-- ==== Sys2Proof/Word.lean ====
section
/-!
DEFINITION. The word types of the core (00_scope.md R12, R13).
-/
namespace Sys2Proof

/-- A 32-bit host register or command word (R22, R100). -/
abbrev Word := BitVec 32

/-- An 8-bit raw data word (R7 `WORD_W`). -/
abbrev Byte := BitVec 8

/-- A 9-bit symbol field (R6, R108): 0 to 255 a byte value, 256 the sentinel, 257 to 511 only read from a header. -/
abbrev Sym := BitVec 9

/-- A bit string, leftmost bit first; the left end is written or read first (R13). -/
abbrev Bits := List Bool

/-- The sentinel, "end-of-stream marker" (R6). -/
abbrev sentinel : Sym := 256#9

end Sys2Proof
end

