-- ==== Sys2Proof/Machine/Bits.lean ====
section
/-!
DEFINITION. Bit strings, numbers and bytes (R13, R74, R86): most significant bit first everywhere.
-/
namespace Sys2Proof.Machine

/-- The unsigned number a bit string stands for, its first bit most significant (R71). -/
def bitsToNat (bs : Bits) : Nat := bs.foldl (fun v b => 2 * v + b.toNat) 0

/-- `bits_n(v)`, the n-bit string of the low n bits of `v`, most significant bit first (R13, R76). -/
def bitsOf : Nat → Nat → Bits
  | 0, _ => []
  | n + 1, v => v.testBit n :: bitsOf n v

/-- The number of padding bits that complete the final byte of `n` bits (R77). -/
def padLength (n : Nat) : Nat := (8 - n % 8) % 8

/-- The bits of a byte string: bit i of the stream is bit `7 - (i mod 8)` of byte `i / 8` (R74). -/
def unpackBytes (bytes : List Byte) : Bits := bytes.flatMap fun b => bitsOf 8 b.toNat

/-- The bytes of a bit string whose length is a multiple of 8 (R74). -/
def packBytes : Bits → List Byte
  | b7 :: b6 :: b5 :: b4 :: b3 :: b2 :: b1 :: b0 :: rest =>
    BitVec.ofNat 8 (bitsToNat [b7, b6, b5, b4, b3, b2, b1, b0]) :: packBytes rest
  | _ => []

/-- Word `k` of a code as the CODE_WORD window shows it: bit `31 - j` is `c[32k + j]`, bits past the end are 0 (R43). -/
def codeWindow (c : Bits) (k : Nat) : Word :=
  BitVec.ofNat 32 (bitsToNat ((List.range 32).map fun j => c.getD (32 * k + j) false))

end Sys2Proof.Machine
end

