-- ==== Sys2Proof/Config.lean ====
section
/-!
DEFINITION. The three named parameters of 00_scope.md R7. They are plain data carried by State (log 4): no step
changes them, and every statement about the core holds for every value in their legal ranges.
-/
namespace Sys2Proof

/-- The parameters of R7. -/
structure Params where
  /-- `MAGIC`, "the fixed 32-bit format constant written first in every artifact" (R7, R8). -/
  magic : Word
  /-- `COUNT_W`, the width of every counter, of `TOTAL` and of every node weight (R7, R9). -/
  countW : Nat
  /-- `NODE_CAP`, the number of entries of the tree store (R7, R10). -/
  nodeCap : Nat
deriving DecidableEq, Repr

/-- The default column of R7's table. No statement rests on these values. -/
def Params.default : Params := { magic := 0xFACE8201#32, countW := 32, nodeCap := 1023 }

end Sys2Proof
end

