-- ==== Sys2Proof/Syntax.lean ====
section
/-!
DEFINITION. The commands of the core: one constructor per row of spec/opcode_table.json, in the order of R102. No
command has an operand field (R100).
-/
namespace Sys2Proof

/-- The thirteen commands of 30_encoding.md R102. -/
inductive Instr where
  | count
  | build
  | gencodes
  | serialize
  | deserialize
  | writeMagic
  | encode
  | checkMagic
  | decode
  | rewind
  | close
  | compress
  | decompress
deriving DecidableEq, Repr

end Sys2Proof
end

