-- ==== Sys2Proof/WellFormed.lean ====
section
/-!
DEFINITION. The checks on what is given to the core from outside: the parameters (R7), the host's accesses (R79),
and the command words (R101). A command has no operand, so no command is ill-formed as syntax.
-/
namespace Sys2Proof

/-- Every command is well formed: "there are no operand fields and no immediates" (R100). -/
def Instr.wf (_ : Instr) : Bool := true

/-- The legal ranges of R7: `MAGIC` not 0, `COUNT_W` 2 to 32, `NODE_CAP` 513 to 65535. -/
def Params.wf (p : Params) : Bool :=
  p.magic != 0#32 && decide (2 ≤ p.countW) && decide (p.countW ≤ 32)
    && decide (513 ≤ p.nodeCap) && decide (p.nodeCap ≤ 65535)

/-- An access inside the register interface: 32 bits wide, at a multiple of 4 in 0x00 to 0x3C (R79). -/
def accessWf (off bytes : Nat) : Bool :=
  decide (bytes = 4) && decide (off % 4 = 0) && decide (off < 0x40)

/-- The opcodes of R102; the others are reserved (R104). -/
def assignedOpcode (op : Nat) : Bool :=
  decide (1 ≤ op ∧ op ≤ 0x0B) || decide (op = 0x10) || decide (op = 0x11)

/-- A legal command word: `w[31:8] = 0` and `w[7:0]` one of the opcodes of R102 (R101). -/
def commandWordWf (w : Word) : Bool :=
  decide (w.toNat / 256 = 0) && assignedOpcode (w.toNat % 256)

end Sys2Proof
end

