-- ==== Sys2Proof/Decode.lean ====
section
/-!
DEFINITION. The command decoder (R101, R102, R104), total on every 32-bit word and rejecting by name, and the encoder
written from the "word" column of R102.
-/
namespace Sys2Proof

/-- Why a word is illegal (R101, R104). Raised by `decode`; the core answers either one with ILLEGAL_CMD. -/
inductive DecodeError where
  /-- `w[31:8]` is not zero. -/
  | reservedField
  /-- `w[7:0]` is none of the opcodes of R102. -/
  | reservedOpcode
deriving DecidableEq, Repr

/-- `OPCODE`, bits 7:0 of a command word (R100). -/
def opcodeField (w : Word) : BitVec 8 := w.extractLsb' 0 8

/-- `RSVD`, bits 31:8 of a command word (R100). -/
def rsvdField (w : Word) : BitVec 24 := w.extractLsb' 8 24

/-- The OPCODE column of R102. -/
def decodeOpcode (op : Nat) : Except DecodeError Instr :=
  match op with
  | 0x01 => .ok .count
  | 0x02 => .ok .build
  | 0x03 => .ok .gencodes
  | 0x04 => .ok .serialize
  | 0x05 => .ok .deserialize
  | 0x06 => .ok .writeMagic
  | 0x07 => .ok .encode
  | 0x08 => .ok .checkMagic
  | 0x09 => .ok .decode
  | 0x0A => .ok .rewind
  | 0x0B => .ok .close
  | 0x10 => .ok .compress
  | 0x11 => .ok .decompress
  | _ => .error .reservedOpcode

/-- Decoding of a word written to CMD (R101): RSVD must be zero and OPCODE assigned. -/
def decode (w : Word) : Except DecodeError Instr :=
  if rsvdField w = 0#24 then decodeOpcode (opcodeField w).toNat else .error .reservedField

/-- The "word" column of R102. -/
def encode (i : Instr) : Word :=
  match i with
  | .count => 0x00000001#32
  | .build => 0x00000002#32
  | .gencodes => 0x00000003#32
  | .serialize => 0x00000004#32
  | .deserialize => 0x00000005#32
  | .writeMagic => 0x00000006#32
  | .encode => 0x00000007#32
  | .checkMagic => 0x00000008#32
  | .decode => 0x00000009#32
  | .rewind => 0x0000000A#32
  | .close => 0x0000000B#32
  | .compress => 0x00000010#32
  | .decompress => 0x00000011#32

/-- The 32-bit word that an opcode-table row's `nbits` bits `w` stand for: the bits above `nbits` are zero. -/
def tableWord (nbits w : Nat) : Word := BitVec.ofNat 32 (w % 2 ^ nbits)

/-- What the decoder reads from an opcode-table word. A command word is one 32-bit word written in one access (R100),
so there is no byte order in it. -/
def decodeTableWord (nbits w : Nat) : Option Instr :=
  match decode (tableWord nbits w) with
  | .ok i => some i
  | .error _ => none

end Sys2Proof
end

