-- ==== Sys2Proof/Machine/State.lean ====
section
/-!
DEFINITION. The state of the core and of the two streams it is connected to (10_state.md, 20_memory.md), as plain data,
the reasons a step can stop, and the state right after reset (R53, R260).
-/
namespace Sys2Proof.Machine

/-- A Huffman tree (R14). Internal nodes carry no symbol (R48). -/
inductive HuffTree where
  | leaf (sym : Sym) (w : Nat)
  | internal (w : Nat) (left right : HuffTree)
deriving DecidableEq, Repr

/-- The status codes 0 to 8 of R231; codes 9 to 15 are never produced, so they do not exist here. -/
inductive ErrCode where
  | none
  | badMagic
  | truncHeader
  | truncPayload
  | illegalCmd
  | sequence
  | headerOverflow
  | countOverflow
  | noCode
deriving DecidableEq, Repr

/-- `STATUS.TREE_SRC` (R24, R31): 0 = built by BUILD, 1 = read by DESERIALIZE. -/
inductive TreeSrc where
  | built
  | read
deriving DecidableEq, Repr

/-- One level of DESERIALIZE's traversal stack (R50, R165): the internal node whose left child is being read, or whose
right child is being read with the left one complete. -/
inductive Frame where
  | left
  | right (l : HuffTree)
deriving DecidableEq, Repr

/-- The position inside COUNT's pseudocode (R130). -/
inductive CountPos where
  | clear
  | loop
  | finish
deriving DecidableEq, Repr

/-- The position inside SERIALIZE (R160) with its traversal stack: before `ser(ROOT)`; about to write a node's tag;
about to write a leaf's symbol. -/
inductive SerPos where
  | start
  | node (t : HuffTree) (rest : List HuffTree)
  | sym (y : Sym) (rest : List HuffTree)
deriving DecidableEq, Repr

/-- The position inside DESERIALIZE (R165) with its traversal stack: before the first assignments; about to read a tag
bit; about to read a leaf's symbol; with `t` returned by the outermost `readNode`, before the last assignments, which are
the bookkeeping at the end (R11, log 11). -/
inductive DesPos where
  | start
  | tag (stack : List Frame)
  | sym (stack : List Frame)
  | store (t : HuffTree)
deriving DecidableEq, Repr

/-- The position inside ENCODE (R183): before the rewind; about to read a byte; inside `EmitCode(y)` about to write bit
`i` of the code of `y` (R182). -/
inductive EncPos where
  | reset
  | read
  | emit (y : Fin 257) (i : Nat)
deriving DecidableEq, Repr

/-- The position inside DECODE (R202) with the traversal pointer P (R51, R204): P = ROOT; P at an internal node below the
root, given by its children; about to write a leaf's symbol. -/
inductive DecPos where
  | atRoot
  | descending (left right : HuffTree)
  | out (y : Sym)
deriving DecidableEq, Repr

/-- The position inside COMPRESS (R186). -/
inductive CompressPos where
  | clear
  | rewind
  | magic
  | count (p : CountPos)
  | build
  | gencodes
  | serialize (p : SerPos)
  | encode (p : EncPos)
  | close
deriving DecidableEq, Repr

/-- The position inside DECOMPRESS (R206). -/
inductive DecompressPos where
  | clear
  | rewind
  | check
  | deserialize (p : DesPos)
  | decode (p : DecPos)
  | close
deriving DecidableEq, Repr

/-- The sequencer phase (R45): IDLE, or RUN(op) with the position within op's pseudocode. `ended op` is RUN(op) at the end
of that pseudocode, after a port transaction: "the bookkeeping at the [...] end of a command" (R11), the completion of R242,
is then the next step (log 11). -/
inductive Phase where
  | idle
  | count (p : CountPos)
  | build
  | gencodes
  | serialize (p : SerPos)
  | deserialize (p : DesPos)
  | writeMagic
  | encode (p : EncPos)
  | checkMagic
  | decode (p : DecPos)
  | rewind
  | close
  | compress (p : CompressPos)
  | decompress (p : DecompressPos)
  | ended (op : Instr)
deriving DecidableEq, Repr

/-- One turn of an agent (R11, R88): the core's next step, a step of the host or of the platform, or the input stream
starting or ceasing to answer reads (R73). -/
inductive Turn where
  /-- The core takes its next step, if it has one. -/
  | core
  /-- `MemRead` at byte offset `off`, `bytes` wide (R222). -/
  | read (off bytes : Nat)
  /-- `MemWrite` at byte offset `off`, `bytes` wide (R223). -/
  | write (off bytes : Nat) (v : Word)
  /-- The host attaches an input stream holding `bits` (R266). -/
  | attachIn (bits : Bits)
  /-- The host attaches an output stream with an empty artifact that has delivered `prior` so far (R266, log 10). -/
  | attachOut (prior : List (List Byte))
  /-- From here on the input stream answers reads, or does not (R73, log 8). -/
  | answer (b : Bool)
  /-- The reset input is asserted (R260, R261). -/
  | reset
deriving DecidableEq, Repr

/-- Why the machine stops in a state that no run from reset reaches (log 14). Each is safe: the spec gives those states
no successor, and the model adds none. -/
inductive Fault where
  /-- BUILD with no nonzero entry in FREQ ("`Q` is never empty", R140). Raised by `buildBody`; safe. -/
  | emptyQueue
  /-- A command that needs the tree runs while the tree store holds no tree (R47). Raised by `gencodesBody`, `serBody`
  and `decBody`; safe. -/
  | noTree
  /-- GENCODES on a tree with a symbol that has no table entry or a code longer than an entry holds (R49, R150). Raised
  by `gencodesBody`; safe. -/
  | codeTableRange
  /-- `CODE[y]` has no bit at an index below `LEN[y]` (R49 says `LEN[s] = |CODE[s]|`). Raised by `encBody`; safe. -/
  | codeMissing
deriving DecidableEq, Repr

/-- What the model refuses. -/
inductive Refusal where
  /-- The instruction has no meaning yet. Raised only by `exec`'s arms; safe. -/
  | notModelled (mnemonic : String)
  /-- A host access of another width, misaligned, or outside 0x00 to 0x3F: "the spec gives it no meaning and a model
  refuses it" (R79). Raised by the host's turns; safe. -/
  | hostAccess (off bytes : Nat)
  /-- The host attaching a stream while BUSY: "the model gives the host no attach step while BUSY" (R266). Raised by the
  host's turns; safe. -/
  | attachWhileBusy
deriving DecidableEq, Repr

/-- All state the spec gives the core, the state of the two streams, and the model's own two fields (`agenda`,
`hostData`). STATUS.BUSY, STATUS.ERR, IRQ and the three table windows are functions of these fields (log 13). -/
structure State where
  /-- CMD (R23). -/
  cmd : Word
  /-- STATUS.DONE (R26). -/
  done : Bool
  /-- STATUS.CMD_DROPPED (R28). -/
  cmdDropped : Bool
  /-- STATUS.ERRCODE (R29). -/
  errCode : ErrCode
  /-- STATUS.FREQ_VALID (R30). -/
  freqValid : Bool
  /-- STATUS.TREE_VALID (R31). -/
  treeValid : Bool
  /-- STATUS.TREE_SRC (R31). -/
  treeSrc : TreeSrc
  /-- STATUS.CODES_VALID (R32). -/
  codesValid : Bool
  /-- CTRL.IE (R34). -/
  ie : Bool
  /-- TOTAL (R35), a COUNT_W-bit count kept as a number (R12). -/
  total : Nat
  /-- IN_POS (R36). -/
  inPos : Word
  /-- OUT_LEN (R37). -/
  outLen : Word
  /-- NODES (R38), a count of at most NODE_CAP. -/
  nodes : Nat
  /-- ERR_POS (R39). -/
  errPos : Word
  /-- IDX.SYM (R40). -/
  idxSym : BitVec 9
  /-- IDX.WORD (R40). -/
  idxWord : BitVec 3
  /-- MAGIC_ID and PARAMS (R44): the constant parameters (R7). -/
  params : Params
  /-- The sequencer phase with the position in the running command (R45, R50, R51). -/
  phase : Phase
  /-- FREQ[0..256] (R46). -/
  freq : Vector Nat 257
  /-- The tree store with ROOT (R47): one tree, or no tree. -/
  tree : Option HuffTree
  /-- LEN[0..256] (R49). -/
  len : Vector (BitVec 9) 257
  /-- CODE[0..256] (R49). -/
  code : Vector Bits 257
  /-- The attached input stream's bits (R70). -/
  inBits : Bits
  /-- The input stream's cursor (R70). -/
  inCur : Nat
  /-- Whether the input stream answers reads (R73). -/
  inAnswers : Bool
  /-- The artifact being written (R75). -/
  outCur : Bits
  /-- The artifacts completed by earlier closes, oldest first (R75). -/
  delivered : List (List Byte)
  /-- The turns still to come, next first (log 2). -/
  agenda : List Turn
  /-- What the host's last register read returned (log 9). -/
  hostData : Option Word
deriving DecidableEq, Repr

/-- The state right after reset with parameters `p`: R53's table; the tables hold the values log 5 names; the streams
are as log 6 says. -/
def State.resetWith (p : Params) : State where
  cmd := 0#32
  done := false
  cmdDropped := false
  errCode := .none
  freqValid := false
  treeValid := false
  treeSrc := .built
  codesValid := false
  ie := false
  total := 0
  inPos := 0#32
  outLen := 0#32
  nodes := 0
  errPos := 0#32
  idxSym := 0#9
  idxWord := 0#3
  params := p
  phase := .idle
  freq := Vector.replicate 257 0
  tree := none
  len := Vector.replicate 257 0#9
  code := Vector.replicate 257 []
  inBits := []
  inCur := 0
  inAnswers := true
  outCur := []
  delivered := []
  agenda := []
  hostData := none

/-- The machine right after reset, with the default parameters of R7. -/
def State.reset : State := State.resetWith Params.default

end Sys2Proof.Machine
end

