-- ==== Sys2Proof/Machine/Flags.lean ====
section
/-!
DEFINITION. STATUS, its flags, the validity chain and IRQ (10_state.md R24 to R33, R52; 60_exceptions.md R231, R241).
-/
namespace Sys2Proof.Machine

/-- STATUS.BUSY: "1 exactly when `phase != IDLE`" (R45). -/
def State.busy (s : State) : Bool :=
  match s.phase with
  | .idle => false
  | _ => true

/-- The 4-bit code of R231. -/
def ErrCode.code (e : ErrCode) : BitVec 4 :=
  match e with
  | .none => 0#4
  | .badMagic => 1#4
  | .truncHeader => 2#4
  | .truncPayload => 3#4
  | .illegalCmd => 4#4
  | .sequence => 5#4
  | .headerOverflow => 6#4
  | .countOverflow => 7#4
  | .noCode => 8#4

/-- STATUS.ERR: "`ERR = 1` exactly when `ERRCODE != 0`" (R27). -/
def State.err (s : State) : Bool := s.errCode.code != 0#4

/-- The TREE_SRC bit (R24). -/
def TreeSrc.bit (t : TreeSrc) : Bool :=
  match t with
  | .built => false
  | .read => true

/-- The STATUS register as a read returns it, from bit 31 down to bit 0 (R24). -/
def State.statusWord (s : State) : Word :=
  0#20 ++ BitVec.ofBool s.codesValid ++ BitVec.ofBool s.treeSrc.bit ++ BitVec.ofBool s.treeValid
    ++ BitVec.ofBool s.freqValid ++ s.errCode.code ++ BitVec.ofBool s.cmdDropped ++ BitVec.ofBool s.err
    ++ BitVec.ofBool s.done ++ BitVec.ofBool s.busy

/-- The interrupt output: `IRQ = CTRL.IE AND STATUS.DONE`, a level (R52, R241). -/
def State.irq (s : State) : Bool := s.ie && s.done

/-- "a command that rewrites a structure clears the flag of that structure and of every structure derived from it"
(R33): rewriting the code table. -/
def State.invalidateCodes (s : State) : State := { s with codesValid := false }

/-- Rewriting the tree clears its flag and the code table's (R31 to R33). -/
def State.invalidateTree (s : State) : State := { s with treeValid := false, codesValid := false }

/-- Rewriting FREQ clears all three flags (R30 to R33). -/
def State.invalidateFreq (s : State) : State :=
  { s with freqValid := false, treeValid := false, codesValid := false }

/-- A host write to STATUS clears DONE by bit 1 and CMD_DROPPED by bit 3; the other bits are ignored (R223). -/
def State.writeStatus (v : Word) (s : State) : State :=
  { s with
    done := s.done && !v.getLsbD 1
    cmdDropped := s.cmdDropped && !v.getLsbD 3 }

end Sys2Proof.Machine
end

