-- ==== Sys2Proof/Machine/Operands.lean ====
section
/-!
DEFINITION. Commands have no operand (R100); the operand forms of this hardware are the registers of the host window,
read and written by offset (R22, R222, R223).
-/
namespace Sys2Proof.Machine

/-- CTRL as a read returns it (R34). -/
def State.ctrlWord (s : State) : Word := 0#31 ++ BitVec.ofBool s.ie

/-- IDX as a read returns it: WORD in bits 18:16, SYM in bits 8:0, the rest 0 (R40). -/
def State.idxRegister (s : State) : Word := 0#13 ++ s.idxWord ++ 0#7 ++ s.idxSym

/-- PARAMS: NODE_CAP in bits 15:0, COUNT_W in bits 21:16, the rest 0 (R44). -/
def State.paramsWord (s : State) : Word :=
  0#10 ++ BitVec.ofNat 6 s.params.countW ++ BitVec.ofNat 16 s.params.nodeCap

/-- FREQ_DATA (R41): `FREQ[IDX.SYM]` while idle with FREQ valid and the index in range, else 0. -/
def State.freqData (s : State) : Word :=
  if h : s.idxSym.toNat < 257 then
    if !s.busy && s.freqValid then BitVec.ofNat 32 s.freq[s.idxSym.toNat] else 0#32
  else 0#32

/-- CODE_LEN (R42): `LEN[IDX.SYM]` while idle with the code table valid and the index in range, else 0. -/
def State.codeLen (s : State) : Word :=
  if h : s.idxSym.toNat < 257 then
    if !s.busy && s.codesValid then s.len[s.idxSym.toNat].setWidth 32 else 0#32
  else 0#32

/-- CODE_WORD (R43): word `IDX.WORD` of `CODE[IDX.SYM]` under the same conditions, else 0. -/
def State.codeWord (s : State) : Word :=
  if h : s.idxSym.toNat < 257 then
    if !s.busy && s.codesValid then codeWindow s.code[s.idxSym.toNat] s.idxWord.toNat else 0#32
  else 0#32

/-- The value of the register at byte offset `off` (R22, R222); reserved offsets read 0 (R80). -/
def State.readReg (off : Nat) (s : State) : Word :=
  match off with
  | 0x00 => s.cmd
  | 0x04 => s.statusWord
  | 0x08 => s.ctrlWord
  | 0x0C => BitVec.ofNat 32 s.total
  | 0x10 => s.inPos
  | 0x14 => s.outLen
  | 0x18 => BitVec.ofNat 32 s.nodes
  | 0x1C => s.errPos
  | 0x20 => s.idxRegister
  | 0x24 => s.freqData
  | 0x28 => s.codeLen
  | 0x2C => s.codeWord
  | 0x30 => s.params.magic
  | 0x34 => s.paramsWord
  | _ => 0#32

/-- A host write to any register but CMD (R223): STATUS, CTRL and IDX take their fields; the others ignore it. -/
def State.writeReg (off : Nat) (v : Word) (s : State) : State :=
  match off with
  | 0x04 => s.writeStatus v
  | 0x08 => { s with ie := v.getLsbD 0 }
  | 0x20 => { s with idxSym := v.extractLsb' 0 9, idxWord := v.extractLsb' 16 3 }
  | _ => s

end Sys2Proof.Machine
end

