-- ==== Sys2Proof/Machine/Ops.lean ====
section
/-!
DEFINITION. The shared operations: the port transactions (20_memory.md), acceptance, completion and the one error entry
(60_exceptions.md R232, R233, R242, R249), reset (R260) and attaching streams (R266).
-/
namespace Sys2Proof.Machine

/-- The answer to `InRead(n)`: a value of n bits and the state after it, the end-of-stream signal, or no answer. -/
inductive ReadResult (n : Nat) where
  | value (v : BitVec n) (s : State)
  | eos
  | pending

/-- `InRead(n)` (R71). A read that the stream does not answer has no result (R73). -/
def inRead (n : Nat) (s : State) : ReadResult n :=
  if s.inAnswers then
    if s.inCur + n ≤ s.inBits.length then
      .value (BitVec.ofNat n (bitsToNat ((s.inBits.drop s.inCur).take n)))
        { s with inCur := s.inCur + n, inPos := s.inPos + BitVec.ofNat 32 n }
    else .eos
  else .pending

/-- `InReset()` (R72). -/
def inReset (s : State) : State := { s with inCur := 0, inPos := 0#32 }

/-- `OutWrite(n, v)` (R76): appends the low n bits of `v`, most significant first. -/
def outWrite (n : Nat) (v : Word) (s : State) : State :=
  { s with outCur := s.outCur ++ bitsOf n v.toNat, outLen := s.outLen + BitVec.ofNat 32 n }

/-- `OutClose()` (R77): pads to a byte, delivers the artifact and starts an empty one. -/
def outClose (s : State) : State :=
  { s with
    delivered :=
      s.delivered ++ [packBytes (s.outCur ++ List.replicate (padLength s.outCur.length) false)]
    outCur := []
    outLen := 0#32 }

/-- How one step of a command's body ends: the body goes on (at the position the state's phase holds); it has reached its
end in an internal phase (`done`) or with a port transaction (`last`), which R11 tells apart; it raises an error; or it is in
a state the spec gives no successor (log 14). -/
inductive BodyResult where
  | cont (s : State)
  | done (s : State)
  | last (s : State)
  | raise (e : ErrCode) (s : State)
  | fault (f : Fault)

/-- What every error records (R233, R236): "`ERR_POS <- IN_POS`" and "`STATUS.ERRCODE <- E`". -/
def recordError (e : ErrCode) (s : State) : State := { s with errPos := s.inPos, errCode := e }

/-- Completion (R242): "`phase <- IDLE; STATUS.BUSY <- 0; STATUS.DONE <- 1`". -/
def finish (s : State) : State := { s with phase := .idle, done := true }

/-- The end of a step of the unit command `i`. An internal phase that reaches the end of the pseudocode is itself the
bookkeeping at the end and completes the command (R11, R242, log 11); after a port transaction, which is a step of its own
(R11, R82), the completion is the next step. Error entry is in the step of the raise: "in the same step" (R233). A unit
command never closes the output (R235). -/
def unitStep (i : Instr) (r : BodyResult) : Host.Outcome State Fault Refusal :=
  match r with
  | .cont s => .next s
  | .done s => .next (finish s)
  | .last s => .next { s with phase := .ended i }
  | .raise e s => .next (finish (recordError e s))
  | .fault f => .fault f

/-- The end of a step of a body inside a composite command: the body's end leads to phase `after`; an error is recorded
and the next step is the close (R233, R234, R243). -/
def compositeStep (after closing : Phase) (r : BodyResult) : Host.Outcome State Fault Refusal :=
  match r with
  | .cont s => .next s
  | .done s => .next { s with phase := after }
  | .last s => .next { s with phase := after }
  | .raise e s => .next { recordError e s with phase := closing }
  | .fault f => .fault f

/-- The first assignments of acceptance (R232): "`CMD <- w`", "`STATUS.DONE <- 0; STATUS.ERRCODE <- 0`". -/
def latch (w : Word) (s : State) : State := { s with cmd := w, done := false, errCode := .none }

/-- A command refused at acceptance (R232): the error is recorded, DONE is set, nothing starts. -/
def refuse (e : ErrCode) (s : State) : State := { recordError e s with done := true }

/-- Acceptance of the legal command `i` while idle (R232): latch its word, then check the precondition; refused with
SEQUENCE, or the phase becomes RUN at `start`. -/
def accept (i : Instr) (pre : Bool) (start : Phase) (s : State) : State :=
  if pre then { latch (encode i) s with phase := start }
  else refuse .sequence (latch (encode i) s)

/-- An illegal word written to CMD while idle (R232, R104). -/
def refuseIllegal (w : Word) (s : State) : State := refuse .illegalCmd (latch w s)

/-- A CMD write while BUSY is dropped (R249). -/
def dropCommand (s : State) : State := { s with cmdDropped := true }

/-- Reset (R260, R261): every register to R53's value, phase IDLE; the ports are not touched (R263); the tables hold the
values log 5 names (R262, log 7). The parameters are constant (R44). -/
def State.assertReset (s : State) : State :=
  { State.resetWith s.params with
    inBits := s.inBits
    inCur := s.inCur
    inAnswers := s.inAnswers
    outCur := s.outCur
    delivered := s.delivered
    agenda := s.agenda
    hostData := s.hostData }

/-- Attaching an input stream: its bits, cursor 0 (R70, R266). DESIGN CHOICE (log 8): the spec does not say whether the new
stream answers reads (R73); `inAnswers` keeps the value it had, and an `answer` turn beside the attach gives the other. -/
def State.attachInput (bits : Bits) (s : State) : State := { s with inBits := bits, inCur := 0 }

/-- Attaching an output stream: an empty artifact, and the artifacts that stream has delivered (R75, R266, log 10). -/
def State.attachOutput (prior : List (List Byte)) (s : State) : State :=
  { s with outCur := [], delivered := prior }

end Sys2Proof.Machine
end

