-- ==== Sys2Proof/Machine/CodeGenerator.lean ====
section
/-!
DEFINITION. Unit huffman_code_generator: GENCODES (42_code_generator.md).
-/
namespace Sys2Proof.Machine

/-- The two halves of the code table (R49). -/
structure CodeTable where
  len : Vector (BitVec 9) 257
  code : Vector Bits 257
deriving DecidableEq, Repr

/-- "`for s in 0..256: LEN[s] <- 0; CODE[s] <- \"\"`" (R150). -/
def CodeTable.empty : CodeTable where
  len := Vector.replicate 257 0#9
  code := Vector.replicate 257 []

/-- "`CODE[s] <- path; LEN[s] <- |path|`" (R150). -/
def CodeTable.put (y : Sym) (path : Bits) (t : CodeTable) : CodeTable :=
  if h : y.toNat < 257 then
    { len := t.len.set y.toNat (BitVec.ofNat 9 path.length), code := t.code.set y.toNat path }
  else t

/-- `walk(n, path)`, depth first, left before right (R150). -/
def walk : HuffTree → Bits → CodeTable → CodeTable
  | .leaf y _, path, t => t.put y path
  | .internal _ l r, path, t => walk r (path ++ [true]) (walk l (path ++ [false]) t)

/-- The code table of a tree; a root that is a leaf gets the code "0" (R150, R151). -/
def codeTable (root : HuffTree) : CodeTable :=
  match root with
  | .leaf y _ => CodeTable.empty.put y [false]
  | .internal w l r => walk (.internal w l r) [] CodeTable.empty

/-- Whether every leaf below has a table entry and a code that fits one, at depth `d` (R49, R150). -/
def HuffTree.fitsTable : HuffTree → Nat → Bool
  | .leaf y _, d => decide (y.toNat < 257) && decide (d ≤ 256)
  | .internal _ l r, d => l.fitsTable (d + 1) && r.fitsTable (d + 1)

/-- GENCODES' one internal step (R150). -/
def gencodesBody (s : State) : BodyResult :=
  match s.tree with
  | none => .fault .noTree
  | some root =>
    if root.fitsTable 0 then
      .done { s.invalidateCodes with
        len := (codeTable root).len
        code := (codeTable root).code
        codesValid := true }
    else .fault .codeTableRange

/-- GENCODES (R150): needs TREE_VALID = 1 and TREE_SRC = 0. -/
def execGencodes (s : State) : Host.Outcome State Fault Refusal :=
  match s.phase with
  | .idle => .next (accept .gencodes (s.treeValid && decide (s.treeSrc = .built)) .gencodes s)
  | .gencodes => unitStep .gencodes (gencodesBody s)
  | .ended .gencodes => .next (finish s)
  | _ => .next (dropCommand s)

end Sys2Proof.Machine
end

