-- ==== Sys2Proof/Machine/Counter.lean ====
section
/-!
DEFINITION. Unit huffman_frequency_counter: COUNT (40_frequency_counter.md).
-/
namespace Sys2Proof.Machine

/-- The table entry of a byte value. -/
def byteEntry (b : Byte) : Fin 257 := ⟨b.toNat, by omega⟩

/-- The table entry of the sentinel. -/
def sentinelEntry : Fin 257 := ⟨256, by omega⟩

/-- Counting one word: "`FREQ[r] <- FREQ[r] + 1; TOTAL <- TOTAL + 1`" (R130). -/
def countWord (r : Byte) (s : State) : State :=
  { s with
    freq := s.freq.set (byteEntry r) (s.freq[byteEntry r] + 1)
    total := s.total + 1 }

/-- One step of COUNT's body (R130, R131); `k` places a position of COUNT in the running command's phase. -/
def countBody (k : CountPos → Phase) (p : CountPos) (s : State) : BodyResult :=
  match p with
  | .clear =>
    .cont { s.invalidateFreq with freq := Vector.replicate 257 0, total := 0, phase := k .loop }
  | .loop =>
    match inRead 8 s with
    | .pending => .cont s
    | .eos => .cont { s with phase := k .finish }
    | .value r s' =>
      if s'.total = 2 ^ s'.params.countW - 2 then .raise .countOverflow s'
      else .cont { countWord r s' with phase := k .loop }
  | .finish =>
    .done { s with freq := s.freq.set sentinelEntry 1, freqValid := true }

/-- COUNT (R130): no precondition. -/
def execCount (s : State) : Host.Outcome State Fault Refusal :=
  match s.phase with
  | .idle => .next (accept .count true (.count .clear) s)
  | .count p => unitStep .count (countBody .count p s)
  | .ended .count => .next (finish s)
  | _ => .next (dropCommand s)

end Sys2Proof.Machine
end

