-- ==== Sys2Proof/Machine/Serializer.lean ====
section
/-!
DEFINITION. Unit huffman_tree_serializer: SERIALIZE and DESERIALIZE (43_tree_serializer.md), their recursion on an
explicit traversal stack (R50).
-/
namespace Sys2Proof.Machine

/-- Writing the tag of node `t` with the subtrees `rest` still to be written after it: "`OutWrite(1, 0)`" and on to the
two children, or "`OutWrite(1, 1)`" and on to the symbol (R160). -/
def serNode (k : SerPos → Phase) (t : HuffTree) (rest : List HuffTree) (s : State) : BodyResult :=
  match t with
  | .internal _ l r => .cont { outWrite 1 0#32 s with phase := k (.node l (r :: rest)) }
  | .leaf y _ => .cont { outWrite 1 1#32 s with phase := k (.sym y rest) }

/-- One step of SERIALIZE's body (R160): one `OutWrite`. -/
def serBody (k : SerPos → Phase) (p : SerPos) (s : State) : BodyResult :=
  match p with
  | .start =>
    match s.tree with
    | none => .fault .noTree
    | some root => serNode k root [] s
  | .node t rest => serNode k t rest s
  | .sym y rest =>
    match rest with
    | [] => .last (outWrite 9 (y.setWidth 32) s)
    | t :: ts => .cont { outWrite 9 (y.setWidth 32) s with phase := k (.node t ts) }

/-- SERIALIZE (R160): needs TREE_VALID = 1. -/
def execSerialize (s : State) : Host.Outcome State Fault Refusal :=
  match s.phase with
  | .idle => .next (accept .serialize s.treeValid (.serialize .start) s)
  | .serialize p => unitStep .serialize (serBody .serialize p s)
  | .ended .serialize => .next (finish s)
  | _ => .next (dropCommand s)

/-- What the return of a `readNode` call with tree `t` leads to (R165): the whole tree is complete, or the right child of
the innermost open node is read next. -/
inductive NodeDone where
  | complete (t : HuffTree)
  | more (stack : List Frame)
deriving DecidableEq, Repr

/-- Return `t` to the open calls on the stack; internal nodes get weight 0 (R165, R167). -/
def returnNode : HuffTree → List Frame → NodeDone
  | t, [] => .complete t
  | t, .left :: fs => .more (.right t :: fs)
  | t, .right l :: fs => returnNode (.internal 0 l t) fs

/-- One step of DESERIALIZE's body (R165, R166, R167): the first assignments; one `InRead` with the updates it causes; or
the last assignments, "`ROOT <- readNode()`" and the two flags, which are no port transaction and so a step of their own
(R11, log 11). -/
def desBody (k : DesPos → Phase) (p : DesPos) (s : State) : BodyResult :=
  match p with
  | .start => .cont { s.invalidateTree with nodes := 0, phase := k (.tag []) }
  | .tag st =>
    match inRead 1 s with
    | .pending => .cont s
    | .eos => .raise .truncHeader s
    | .value b s' =>
      if s'.nodes = s'.params.nodeCap then .raise .headerOverflow s'
      else if b = 1#1 then .cont { s' with nodes := s'.nodes + 1, phase := k (.sym st) }
      else .cont { s' with nodes := s'.nodes + 1, phase := k (.tag (.left :: st)) }
  | .sym st =>
    match inRead 9 s with
    | .pending => .cont s
    | .eos => .raise .truncHeader s
    | .value y s' =>
      match returnNode (.leaf y 0) st with
      | .more st' => .cont { s' with phase := k (.tag st') }
      | .complete t => .cont { s' with phase := k (.store t) }
  | .store t => .done { s with tree := some t, treeValid := true, treeSrc := .read }

/-- DESERIALIZE (R165): no precondition. -/
def execDeserialize (s : State) : Host.Outcome State Fault Refusal :=
  match s.phase with
  | .idle => .next (accept .deserialize true (.deserialize .start) s)
  | .deserialize p => unitStep .deserialize (desBody .deserialize p s)
  | .ended .deserialize => .next (finish s)
  | _ => .next (dropCommand s)

end Sys2Proof.Machine
end

