-- ==== Sys2Proof/Machine/Decoder.lean ====
section
/-!
DEFINITION. Unit huffman_decoder_bitstream: CHECK_MAGIC, DECODE and the composite DECOMPRESS (45_decoder_bitstream.md).
-/
namespace Sys2Proof.Machine

/-- CHECK_MAGIC's one step (R200, R201): the end of stream is tested before the comparison (R240). -/
def checkMagicBody (s : State) : BodyResult :=
  match inRead 32 s with
  | .pending => .cont s
  | .eos => .raise .truncHeader s
  | .value m s' => if m = s'.params.magic then .last s' else .raise .badMagic s'

/-- CHECK_MAGIC (R200): no precondition. -/
def execCheckMagic (s : State) : Host.Outcome State Fault Refusal :=
  match s.phase with
  | .idle => .next (accept .checkMagic true .checkMagic s)
  | .checkMagic => unitStep .checkMagic (checkMagicBody s)
  | .ended .checkMagic => .next (finish s)
  | _ => .next (dropCommand s)

/-- The pointer has moved to `t` (R202): the sentinel's leaf ends DECODE, another leaf's symbol is written next, an
internal node is descended from. -/
def landOn (k : DecPos → Phase) (t : HuffTree) (s : State) : BodyResult :=
  match t with
  | .leaf y _ => if y = sentinel then .last s else .cont { s with phase := k (.out y) }
  | .internal _ l r => .cont { s with phase := k (.descending l r) }

/-- "if b = 0: P <- left(P) else: P <- right(P)" from the root; a root that is a leaf is reached again by either value
(R202, R203). -/
def fromRoot (root : HuffTree) (b : BitVec 1) : HuffTree :=
  match root with
  | .leaf y w => .leaf y w
  | .internal _ l r => if b = 0#1 then l else r

/-- One step of DECODE's body (R202): one `InRead(1)` with the pointer's move, or one `OutWrite`. -/
def decBody (k : DecPos → Phase) (p : DecPos) (s : State) : BodyResult :=
  match p with
  | .atRoot =>
    match s.tree with
    | none => .fault .noTree
    | some root =>
      match inRead 1 s with
      | .pending => .cont s
      | .eos => .raise .truncPayload s
      | .value b s' => landOn k (fromRoot root b) s'
  | .descending l r =>
    match inRead 1 s with
    | .pending => .cont s
    | .eos => .raise .truncPayload s
    | .value b s' => landOn k (if b = 0#1 then l else r) s'
  | .out y => .cont { outWrite 8 (y.setWidth 32) s with phase := k .atRoot }

/-- DECODE (R202): needs TREE_VALID = 1. -/
def execDecode (s : State) : Host.Outcome State Fault Refusal :=
  match s.phase with
  | .idle => .next (accept .decode s.treeValid (.decode .atRoot) s)
  | .decode p => unitStep .decode (decBody .decode p s)
  | .ended .decode => .next (finish s)
  | _ => .next (dropCommand s)

/-- One step of DECOMPRESS (R206). -/
def decompressStep (p : DecompressPos) (s : State) : Host.Outcome State Fault Refusal :=
  match p with
  | .clear => .next { s.invalidateFreq with phase := .decompress .rewind }
  | .rewind => .next { inReset s with phase := .decompress .check }
  | .check => compositeStep (.decompress (.deserialize .start)) (.decompress .close) (checkMagicBody s)
  | .deserialize q =>
    compositeStep (.decompress (.decode .atRoot)) (.decompress .close)
      (desBody (fun p => .decompress (.deserialize p)) q s)
  | .decode q =>
    compositeStep (.decompress .close) (.decompress .close) (decBody (fun p => .decompress (.decode p)) q s)
  | .close => .next { outClose s with phase := .ended .decompress }

/-- DECOMPRESS (R206): no precondition. -/
def execDecompress (s : State) : Host.Outcome State Fault Refusal :=
  match s.phase with
  | .idle => .next (accept .decompress true (.decompress .clear) s)
  | .decompress p => decompressStep p s
  | .ended .decompress => .next (finish s)
  | _ => .next (dropCommand s)

end Sys2Proof.Machine
end

