-- ==== Sys2Proof/Machine/TreeBuilder.lean ====
section
/-!
DEFINITION. Unit huffman_tree_builder: BUILD (41_tree_builder.md).
-/
namespace Sys2Proof.Machine

/-- The `w` field of either form of node (R14). -/
def HuffTree.weight (t : HuffTree) : Nat :=
  match t with
  | .leaf _ w => w
  | .internal w _ _ => w

/-- An entry of the priority queue `Q`: a node and the `seq` part of its key; the key is `(weight, seq)` (R141). -/
structure QEntry where
  seq : Nat
  node : HuffTree
deriving DecidableEq, Repr

/-- "keys are compared lexicographically, weight first" (R141). -/
def QEntry.before (a b : QEntry) : Bool :=
  decide (a.node.weight < b.node.weight)
    || (decide (a.node.weight = b.node.weight) && decide (a.seq < b.seq))

/-- Insertion into `Q`, held in key order with the smallest key first, so that remove-min takes the head (R141). -/
def qInsert (e : QEntry) : List QEntry → List QEntry
  | [] => [e]
  | x :: xs => if e.before x then e :: x :: xs else x :: qInsert e xs

/-- One entry per symbol with a nonzero count, for the symbols from `sym` on whose counts are listed (R140). -/
def insertLeaves : Nat → List Nat → List QEntry → List QEntry
  | _, [], q => q
  | sym, w :: ws, q =>
    insertLeaves (sym + 1) ws
      (if w = 0 then q else qInsert { seq := sym, node := .leaf (BitVec.ofNat 9 sym) w } q)

/-- `Q` after the first loop of BUILD (R140). -/
def leafQueue (freq : Vector Nat 257) : List QEntry := insertLeaves 0 freq.toList []

/-- The internal node of one combination: the first removed is the left child (R142), the weight is the sum (R143). -/
def combineNodes (a b : HuffTree) : HuffTree := .internal (a.weight + b.weight) a b

/-- The while loop of BUILD: combine the two smallest entries until one is left; `k` counts the internal nodes made
(R140, R141). The first argument bounds the number of rounds. -/
def combineAll : Nat → Nat → List QEntry → List QEntry
  | n + 1, k, a :: b :: q =>
    combineAll n (k + 1) (qInsert { seq := 257 + k, node := combineNodes a.node b.node } q)
  | _, _, q => q

/-- The tree BUILD makes of a frequency table, if `Q` has an entry (R140). -/
def buildTree (freq : Vector Nat 257) : Option HuffTree :=
  match combineAll (leafQueue freq).length 0 (leafQueue freq) with
  | [e] => some e.node
  | _ => none

/-- BUILD's one internal step (R140). -/
def buildBody (s : State) : BodyResult :=
  match buildTree s.freq with
  | none => .fault .emptyQueue
  | some t =>
    .done { s.invalidateTree with
      tree := some t
      nodes := 2 * (leafQueue s.freq).length - 1
      treeValid := true
      treeSrc := .built }

/-- BUILD (R140): needs FREQ_VALID = 1. -/
def execBuild (s : State) : Host.Outcome State Fault Refusal :=
  match s.phase with
  | .idle => .next (accept .build s.freqValid .build s)
  | .build => unitStep .build (buildBody s)
  | .ended .build => .next (finish s)
  | _ => .next (dropCommand s)

end Sys2Proof.Machine
end

