-- ==== Sys2Proof/Machine/Encoder.lean ====
section
/-!
DEFINITION. Unit huffman_encoder_bitstream: WRITE_MAGIC, ENCODE and the composite COMPRESS (44_encoder_bitstream.md).
-/
namespace Sys2Proof.Machine

/-- WRITE_MAGIC's one step: `OutWrite(32, MAGIC)` (R180). -/
def writeMagicBody (s : State) : BodyResult := .last (outWrite 32 s.params.magic s)

/-- WRITE_MAGIC (R180): no precondition. -/
def execWriteMagic (s : State) : Host.Outcome State Fault Refusal :=
  match s.phase with
  | .idle => .next (accept .writeMagic true .writeMagic s)
  | .writeMagic => unitStep .writeMagic (writeMagicBody s)
  | .ended .writeMagic => .next (finish s)
  | _ => .next (dropCommand s)

/-- Where `EmitCode(y)` leads from bit index `i` on (R182, R183): to the next bit; after the last bit to the next read,
or, for the sentinel, to the end of ENCODE. -/
def emitFrom (k : EncPos → Phase) (y : Fin 257) (i : Nat) (s : State) : BodyResult :=
  if i < s.len[y].toNat then .cont { s with phase := k (.emit y i) }
  else if y = sentinelEntry then .last s
  else .cont { s with phase := k .read }

/-- One step of ENCODE's body (R182, R183, R184). -/
def encBody (k : EncPos → Phase) (p : EncPos) (s : State) : BodyResult :=
  match p with
  | .reset => .cont { inReset s with phase := k .read }
  | .read =>
    match inRead 8 s with
    | .pending => .cont s
    | .eos => emitFrom k sentinelEntry 0 s
    | .value r s' =>
      if s'.len[byteEntry r] = 0#9 then .raise .noCode s' else emitFrom k (byteEntry r) 0 s'
  | .emit y i =>
    match s.code[y][i]? with
    | none => .fault .codeMissing
    | some b => emitFrom k y (i + 1) (outWrite 1 (BitVec.ofNat 32 b.toNat) s)

/-- ENCODE (R183): needs CODES_VALID = 1. -/
def execEncode (s : State) : Host.Outcome State Fault Refusal :=
  match s.phase with
  | .idle => .next (accept .encode s.codesValid (.encode .reset) s)
  | .encode p => unitStep .encode (encBody .encode p s)
  | .ended .encode => .next (finish s)
  | _ => .next (dropCommand s)

/-- One step of COMPRESS (R186): "each named body is the pseudocode of that command's rule, run without its own
acceptance checks". -/
def compressStep (p : CompressPos) (s : State) : Host.Outcome State Fault Refusal :=
  match p with
  | .clear => .next { s.invalidateFreq with phase := .compress .rewind }
  | .rewind => .next { inReset s with phase := .compress .magic }
  | .magic => compositeStep (.compress (.count .clear)) (.compress .close) (writeMagicBody s)
  | .count q =>
    compositeStep (.compress .build) (.compress .close) (countBody (fun p => .compress (.count p)) q s)
  | .build => compositeStep (.compress .gencodes) (.compress .close) (buildBody s)
  | .gencodes => compositeStep (.compress (.serialize .start)) (.compress .close) (gencodesBody s)
  | .serialize q =>
    compositeStep (.compress (.encode .reset)) (.compress .close)
      (serBody (fun p => .compress (.serialize p)) q s)
  | .encode q =>
    compositeStep (.compress .close) (.compress .close) (encBody (fun p => .compress (.encode p)) q s)
  | .close => .next { outClose s with phase := .ended .compress }

/-- COMPRESS (R186): no precondition. -/
def execCompress (s : State) : Host.Outcome State Fault Refusal :=
  match s.phase with
  | .idle => .next (accept .compress true (.compress .clear) s)
  | .compress p => compressStep p s
  | .ended .compress => .next (finish s)
  | _ => .next (dropCommand s)

end Sys2Proof.Machine
end

