-- ==== Sys2Proof/Machine/PortControl.lean ====
section
/-!
DEFINITION. Port control: REWIND and CLOSE (46_port_control.md R220, R221).
-/
namespace Sys2Proof.Machine

/-- REWIND's one step: `InReset()` (R220). -/
def rewindBody (s : State) : BodyResult := .last (inReset s)

/-- REWIND (R220): no precondition. -/
def execRewind (s : State) : Host.Outcome State Fault Refusal :=
  match s.phase with
  | .idle => .next (accept .rewind true .rewind s)
  | .rewind => unitStep .rewind (rewindBody s)
  | .ended .rewind => .next (finish s)
  | _ => .next (dropCommand s)

/-- CLOSE's one step: `OutClose()` (R221). -/
def closeBody (s : State) : BodyResult := .last (outClose s)

/-- CLOSE (R221): no precondition. -/
def execClose (s : State) : Host.Outcome State Fault Refusal :=
  match s.phase with
  | .idle => .next (accept .close true .close s)
  | .close => unitStep .close (closeBody s)
  | .ended .close => .next (finish s)
  | _ => .next (dropCommand s)

end Sys2Proof.Machine
end

