-- ==== Sys2Proof/Machine/Dispatch.lean ====
section
/-!
DEFINITION. The meaning of a command. While the core is idle it is the acceptance of the command's word (R232); while
that command runs it is the command's next step; while another command runs it is the dropped write of R249 (log 12).
-/
namespace Sys2Proof.Machine

def exec (i : Instr) (s : State) : Host.Outcome State Fault Refusal :=
  match i with
  | .count => Sys2Proof.Machine.execCount s
  | .build => Sys2Proof.Machine.execBuild s
  | .gencodes => Sys2Proof.Machine.execGencodes s
  | .serialize => Sys2Proof.Machine.execSerialize s
  | .deserialize => Sys2Proof.Machine.execDeserialize s
  | .writeMagic => Sys2Proof.Machine.execWriteMagic s
  | .encode => Sys2Proof.Machine.execEncode s
  | .checkMagic => Sys2Proof.Machine.execCheckMagic s
  | .decode => Sys2Proof.Machine.execDecode s
  | .rewind => Sys2Proof.Machine.execRewind s
  | .close => Sys2Proof.Machine.execClose s
  | .compress => Sys2Proof.Machine.execCompress s
  | .decompress => Sys2Proof.Machine.execDecompress s

end Sys2Proof.Machine
end

