-- ==== Sys2Proof/Machine/HostAccess.lean ====
section
/-!
DEFINITION. The turns of the agents (R11, R88): the core's own step, the host's register accesses (46_port_control.md
R222, R223), attaching streams (R266), the input stream's answering (R73) and reset (R260).
-/
namespace Sys2Proof.Machine

/-- The command a phase is running: the `op` of `RUN(op)` (R45). -/
def Phase.running (p : Phase) : Option Instr :=
  match p with
  | .idle => none
  | .count _ => some .count
  | .build => some .build
  | .gencodes => some .gencodes
  | .serialize _ => some .serialize
  | .deserialize _ => some .deserialize
  | .writeMagic => some .writeMagic
  | .encode _ => some .encode
  | .checkMagic => some .checkMagic
  | .decode _ => some .decode
  | .rewind => some .rewind
  | .close => some .close
  | .compress _ => some .compress
  | .decompress _ => some .decompress
  | .ended i => some i

/-- The core's turn: the next step of the running command; an idle core has no step (R248). -/
def coreTurn (s : State) : Host.Outcome State Fault Refusal :=
  match s.phase.running with
  | none => .next s
  | some i => exec i s

/-- A host write of `w` to CMD (R232): dropped while BUSY (R249), refused when illegal (R101), else the command is
given to the core. -/
def issueCommand (w : Word) (s : State) : Host.Outcome State Fault Refusal :=
  if s.busy then .next (dropCommand s)
  else
    match decode w with
    | .error _ => .next (refuseIllegal w s)
    | .ok i => exec i s

/-- `MemRead(off, 4)` (R222): the host receives the register's value (log 9); nothing else changes. -/
def hostRead (off bytes : Nat) (s : State) : Host.Outcome State Fault Refusal :=
  if accessWf off bytes then .next { s with hostData := some (s.readReg off) }
  else .refused (.hostAccess off bytes)

/-- `MemWrite(off, 4, v)` (R223). -/
def hostWrite (off bytes : Nat) (v : Word) (s : State) : Host.Outcome State Fault Refusal :=
  if accessWf off bytes then
    if off = 0 then issueCommand v s else .next (s.writeReg off v)
  else .refused (.hostAccess off bytes)

/-- Attaching happens only while BUSY = 0 (R266). -/
def whileIdle (s s' : State) : Host.Outcome State Fault Refusal :=
  if s.busy then .refused .attachWhileBusy else .next s'

/-- One turn taken by its agent. DESIGN CHOICE (log 24): the reset input is asserted and released in one turn; what happens
while it is held asserted is open in R260 and R264, and no turn happens then. -/
def takeTurn (t : Turn) (s : State) : Host.Outcome State Fault Refusal :=
  match t with
  | .core => coreTurn s
  | .read off bytes => hostRead off bytes s
  | .write off bytes v => hostWrite off bytes v s
  | .attachIn bits => whileIdle s (s.attachInput bits)
  | .attachOut prior => whileIdle s (s.attachOutput prior)
  | .answer b => .next { s with inAnswers := b }
  | .reset => .next s.assertReset

/-- Whose turn it is and the state with that turn taken off the agenda; an empty agenda leaves the core to run alone
(log 2). -/
def nextTurn (s : State) : Turn × State :=
  match s.agenda with
  | [] => (.core, s)
  | t :: ts => (t, { s with agenda := ts })

/-- The state in which the next turn is the host's write of command word `w` to CMD and the core is idle, so that the
write is not dropped (log 3). -/
def State.withCommand (w : Word) (s : State) : State :=
  { s with agenda := .write 0 4 w :: s.agenda, phase := .idle }

end Sys2Proof.Machine
end

