-- ==== Sys2Proof/Safety.lean ====
section
/-!
DEFINITION. The terms the statements use: runs, what a tree's header, paths and codes are by the rules' own recursion,
what an input's frequency table and artifact are, and the invariant of the machine.
-/
namespace Sys2Proof.Machine

/-- `k` steps lead from `s` to `t`, none of them a fault or a refusal. -/
def RunsIn (k : Nat) (s t : State) : Prop := Host.Core.run Sys2Proof.core k s = .next t

/-- Some number of steps leads from `s` to `t`. -/
def RunsTo (s t : State) : Prop := ∃ k, RunsIn k s t

/-- The core runs alone and its reads are answered: no turn is pending and the input stream answers. -/
def Quiet (s : State) : Prop := s.agenda = [] ∧ s.inAnswers = true

/-- What the input stream still holds after the cursor (R70). -/
def State.inputRest (s : State) : Bits := s.inBits.drop s.inCur

/-! ## Trees -/

/-- The number of nodes of a tree. -/
def HuffTree.size : HuffTree → Nat
  | .leaf _ _ => 1
  | .internal _ l r => 1 + l.size + r.size

/-- The leaves of a tree from left to right, each with its symbol and weight. -/
def HuffTree.leaves : HuffTree → List (Sym × Nat)
  | .leaf y w => [(y, w)]
  | .internal _ l r => l.leaves ++ r.leaves

/-- Every leaf's symbol with its path from the root, "0" for left and "1" for right (R14). -/
def HuffTree.paths : HuffTree → List (Sym × Bits)
  | .leaf y _ => [(y, [])]
  | .internal _ l r =>
    (l.paths.map fun p => (p.1, false :: p.2)) ++ (r.paths.map fun p => (p.1, true :: p.2))

/-- The codes of a tree: its paths, and "0" for a root that is a leaf (R150, R151). -/
def HuffTree.codes (t : HuffTree) : List (Sym × Bits) :=
  match t with
  | .leaf y _ => [(y, [false])]
  | .internal w l r => (HuffTree.internal w l r).paths

/-- `enc(T)` (R107). -/
def HuffTree.header : HuffTree → Bits
  | .leaf y _ => true :: bitsOf 9 y.toNat
  | .internal _ l r => false :: (l.header ++ r.header)

/-- The same tree with every weight 0 (R167, R169). -/
def HuffTree.eraseWeights : HuffTree → HuffTree
  | .leaf y _ => .leaf y 0
  | .internal _ l r => .internal 0 l.eraseWeights r.eraseWeights

/-- Every internal node's weight is the sum of its children's (R143). -/
def HuffTree.Weighted : HuffTree → Prop
  | .leaf _ _ => True
  | .internal w l r => w = l.weight + r.weight ∧ l.Weighted ∧ r.Weighted

/-- `t` is `root` or a node below it. -/
def HuffTree.Within (t : HuffTree) : HuffTree → Prop
  | .leaf y w => t = .leaf y w
  | .internal w l r => t = .internal w l r ∨ t.Within l ∨ t.Within r

/-! ## BUILD as the rule states it: remove-min twice, combine, insert (R140 to R142), on an unordered queue -/

/-- The key order of R141: weight first, then seq. -/
def QEntry.KeyLt (a b : QEntry) : Prop :=
  a.node.weight < b.node.weight ∨ (a.node.weight = b.node.weight ∧ a.seq < b.seq)

/-- `a` is the entry remove-min takes from `q`, leaving `rest` (R141). -/
def RemoveMin (q : List QEntry) (a : QEntry) (rest : List QEntry) : Prop :=
  q.Perm (a :: rest) ∧ ∀ b ∈ rest, a.KeyLt b

/-- `Combines k q t`: BUILD's loop, begun with `k` internal nodes made and queue `q`, ends with root `t`. -/
inductive Combines : Nat → List QEntry → HuffTree → Prop where
  | single (k : Nat) (e : QEntry) : Combines k [e] e.node
  | round (k : Nat) (q r rest : List QEntry) (a b : QEntry) (t : HuffTree) :
      RemoveMin q a r → RemoveMin r b rest →
      Combines (k + 1)
        ({ seq := 257 + k, node := .internal (a.node.weight + b.node.weight) a.node b.node } :: rest) t →
      Combines k q t

/-- The entries of BUILD's first loop: one per symbol 0..256 with a nonzero count, its `seq` the symbol (R140, R141). -/
def leafEntries (freq : Vector Nat 257) : List QEntry :=
  ((List.finRange 257).filter fun y => decide (freq[y] ≠ 0)).map fun y =>
    { seq := y.val, node := .leaf (BitVec.ofNat 9 y.val) freq[y] }

/-- The code `walk` records for table entry `y`: the code of the leaf with that symbol, or "" (R150, R151). -/
def HuffTree.codeOf (t : HuffTree) (y : Fin 257) : Bits :=
  match t.codes.find? fun p => decide (p.1.toNat = y.val) with
  | some p => p.2
  | none => []

/-- What R145 says of the leaf symbols of a built tree: unique, and each with a table entry. -/
def HuffTree.TableSymbols (t : HuffTree) : Prop :=
  (t.leaves.map Prod.fst).Nodup ∧ ∀ p ∈ t.leaves, p.1.toNat ≤ 256

/-! ## What an input gives -/

/-- The frequency table of a byte sequence (R133). -/
def freqOf (xs : List Byte) : Vector Nat 257 :=
  Vector.ofFn fun y => if y.val = 256 then 1 else xs.countP fun b => decide (b.toNat = y.val)

/-- `CODE[x_0] ++ ... ++ CODE[x_{N-1}] ++ CODE[256]` (R109). -/
def payloadBits (code : Vector Bits 257) (xs : List Byte) : Bits :=
  (xs.flatMap fun b => code[byteEntry b]) ++ code[sentinelEntry]

/-- The bytes a close delivers for the bits written (R77, R78). -/
def closedBytes (bits : Bits) : List Byte :=
  packBytes (bits ++ List.replicate (padLength bits.length) false)

/-- The bits of the artifact of `xs` for tree `t`, before padding: magic, header, payload (R105). -/
def artifactBits (p : Params) (t : HuffTree) (xs : List Byte) : Bits :=
  bitsOf 32 p.magic.toNat ++ t.header ++ payloadBits (codeTable t).code xs

/-! ## Commands -/

/-- The precondition column of R102. -/
def Precondition (i : Instr) (s : State) : Prop :=
  match i with
  | .count => True
  | .build => s.freqValid = true
  | .gencodes => s.treeValid = true ∧ s.treeSrc = .built
  | .serialize => s.treeValid = true
  | .deserialize => True
  | .writeMagic => True
  | .encode => s.codesValid = true
  | .checkMagic => True
  | .decode => s.treeValid = true
  | .rewind => True
  | .close => True
  | .compress => True
  | .decompress => True

/-- The position at which each command's rule begins: `RUN(mnemonic)` at its first step (R232). -/
def firstPhase (i : Instr) : Phase :=
  match i with
  | .count => .count .clear
  | .build => .build
  | .gencodes => .gencodes
  | .serialize => .serialize .start
  | .deserialize => .deserialize .start
  | .writeMagic => .writeMagic
  | .encode => .encode .reset
  | .checkMagic => .checkMagic
  | .decode => .decode .atRoot
  | .rewind => .rewind
  | .close => .close
  | .compress => .compress .clear
  | .decompress => .decompress .clear

/-- COUNT's body runs as the command COUNT and inside COMPRESS (R130, R186); `k` places its positions. -/
def RunsCount (i : Instr) (k : CountPos → Phase) : Prop :=
  (i = .count ∧ k = .count) ∨ (i = .compress ∧ k = fun p => .compress (.count p))

/-- SERIALIZE's body runs as the command and inside COMPRESS (R160, R186). -/
def RunsSerialize (i : Instr) (k : SerPos → Phase) : Prop :=
  (i = .serialize ∧ k = .serialize) ∨ (i = .compress ∧ k = fun p => .compress (.serialize p))

/-- DESERIALIZE's body runs as the command and inside DECOMPRESS (R165, R206). -/
def RunsDeserialize (i : Instr) (k : DesPos → Phase) : Prop :=
  (i = .deserialize ∧ k = .deserialize) ∨ (i = .decompress ∧ k = fun p => .decompress (.deserialize p))

/-- ENCODE's body runs as the command and inside COMPRESS (R183, R186). -/
def RunsEncode (i : Instr) (k : EncPos → Phase) : Prop :=
  (i = .encode ∧ k = .encode) ∨ (i = .compress ∧ k = fun p => .compress (.encode p))

/-- DECODE's body runs as the command and inside DECOMPRESS (R202, R206). -/
def RunsDecode (i : Instr) (k : DecPos → Phase) : Prop :=
  (i = .decode ∧ k = .decode) ∨ (i = .decompress ∧ k = fun p => .decompress (.decode p))

/-! ## The invariant -/

/-- The sum of the counts of the 256 byte values (R133). -/
def byteSum (freq : Vector Nat 257) : Nat := (freq.toList.take 256).sum

/-- All three validity flags are 0. -/
def FlagsClear (s : State) : Prop :=
  s.freqValid = false ∧ s.treeValid = false ∧ s.codesValid = false

/-- The nodes DESERIALIZE has counted for the open internal nodes of its stack and their complete left children. -/
def framesSize : List Frame → Nat
  | [] => 0
  | .left :: fs => 1 + framesSize fs
  | .right l :: fs => 1 + l.size + framesSize fs

/-- What holds at each position of COUNT. -/
def CountOk (p : CountPos) (s : State) : Prop :=
  match p with
  | .clear => True
  | .loop => FlagsClear s
  | .finish => FlagsClear s

/-- What holds at each position of SERIALIZE. -/
def SerOk (p : SerPos) (s : State) : Prop :=
  match p with
  | .start => s.treeValid = true
  | .node _ _ => True
  | .sym _ _ => True

/-- What holds at each position of DESERIALIZE: the tree is not valid, and NODES counts the nodes met so far. -/
def DesOk (p : DesPos) (s : State) : Prop :=
  match p with
  | .start => True
  | .tag st => s.treeValid = false ∧ s.codesValid = false ∧ s.nodes = framesSize st
  | .sym st => s.treeValid = false ∧ s.codesValid = false ∧ s.nodes = framesSize st + 1
  | .store t => s.treeValid = false ∧ s.codesValid = false ∧ s.nodes = t.size

/-- What holds at each position of ENCODE: the code table is valid, and the bit to be written exists. -/
def EncOk (p : EncPos) (s : State) : Prop :=
  match p with
  | .reset => s.codesValid = true
  | .read => s.codesValid = true
  | .emit y i => s.codesValid = true ∧ i < s.len[y].toNat

/-- What holds at each position of DECODE: the tree is valid, the pointer is a node of it (R51), and the symbol to be
written is not the sentinel (R205). -/
def DecOk (p : DecPos) (s : State) : Prop :=
  match p with
  | .atRoot => s.treeValid = true
  | .descending l r =>
    s.treeValid = true ∧ ∃ root w, s.tree = some root ∧ (HuffTree.internal w l r).Within root
  | .out y => s.treeValid = true ∧ y ≠ sentinel

/-- What holds at each position of COMPRESS: each body's precondition "hold[s] at that point by the preceding bodies"
(R186). -/
def CompressOk (p : CompressPos) (s : State) : Prop :=
  match p with
  | .clear => True
  | .rewind => FlagsClear s
  | .magic => FlagsClear s
  | .count q => FlagsClear s ∧ CountOk q s
  | .build => s.freqValid = true
  | .gencodes => s.treeValid = true ∧ s.treeSrc = .built
  | .serialize q => s.codesValid = true ∧ SerOk q s
  | .encode q => EncOk q s
  | .close => True

/-- What holds at each position of DECOMPRESS. -/
def DecompressOk (p : DecompressPos) (s : State) : Prop :=
  match p with
  | .clear => True
  | .rewind => FlagsClear s
  | .check => FlagsClear s
  | .deserialize q => s.freqValid = false ∧ DesOk q s
  | .decode q => s.freqValid = false ∧ s.treeSrc = .read ∧ DecOk q s
  | .close => s.freqValid = false

/-- What holds at each phase. -/
def PhaseOk (s : State) : Prop :=
  match s.phase with
  | .idle => True
  | .count p => CountOk p s
  | .build => s.freqValid = true
  | .gencodes => s.treeValid = true ∧ s.treeSrc = .built
  | .serialize p => SerOk p s
  | .deserialize p => DesOk p s
  | .writeMagic => True
  | .encode p => EncOk p s
  | .checkMagic => True
  | .decode p => DecOk p s
  | .rewind => True
  | .close => True
  | .compress p => CompressOk p s
  | .decompress p => DecompressOk p s
  | .ended _ => True

/-- The invariant of the data: the parameters are legal (R7), the cursor is inside the stream (R70), the counters are
inside their widths (R131, R38), FREQ sums to TOTAL (R133), and the validity flags follow the chain FREQ, tree, code
table (R33) and mean what they say (R30 to R32, R46, R47, R49). -/
structure DataInv (s : State) : Prop where
  params : s.params.wf = true
  cursor : s.inCur ≤ s.inBits.length
  totalFits : s.total + 2 ≤ 2 ^ s.params.countW
  totalSum : byteSum s.freq = s.total
  freqSentinel : s.freqValid = true → s.freq[sentinelEntry] = 1
  nodesFit : s.nodes ≤ s.params.nodeCap
  treeStored : s.treeValid = true → ∃ t, s.tree = some t ∧ s.nodes = t.size
  treeBuilt : s.treeValid = true → s.treeSrc = .built → s.freqValid = true ∧ buildTree s.freq = s.tree
  codesMade : s.codesValid = true →
    s.treeValid = true ∧ s.treeSrc = .built ∧
      ∃ t, s.tree = some t ∧ s.len = (codeTable t).len ∧ s.code = (codeTable t).code

/-- The invariant of the machine: that of the data; a running command has DONE = 0 (R26, R232) and no error before its
close (R232, R233); and each position of each command has what its rule needs. -/
structure Inv (s : State) : Prop where
  data : DataInv s
  busyDone : s.busy = true → s.done = false
  busyError : s.busy = true → s.errCode ≠ .none →
    s.phase = .compress .close ∨ s.phase = .decompress .close ∨ s.phase = .ended .compress ∨
      s.phase = .ended .decompress
  phaseOk : PhaseOk s

end Sys2Proof.Machine
end

