-- ==== Sys2Proof/Certificates/Slice0/Obligations.lean ====
section
/-!
DEFINITION. The statements for the provers, from the spec's numbered rules. `s.inputRest` is what the input stream still
holds; `RunsIn k s t` is a run of `k` steps; `Quiet s` says that no turn is pending and reads are answered. A phase
`.ended i` is `i` at the end of its pseudocode after a port transaction: its completion is the next step (R11, log 11).
-/

open Sys2Proof Sys2Proof.Machine

/-! ## Command words (R100 to R104) -/

/-- R102: the thirteen words of the opcode map, and reserved words from R104, written out bit by bit. -/
def Obligations.OpcodeMapWordsDecode : Prop :=
  decode 0b00000000000000000000000000000001#32 = .ok .count ∧
  decode 0b00000000000000000000000000000010#32 = .ok .build ∧
  decode 0b00000000000000000000000000000011#32 = .ok .gencodes ∧
  decode 0b00000000000000000000000000000100#32 = .ok .serialize ∧
  decode 0b00000000000000000000000000000101#32 = .ok .deserialize ∧
  decode 0b00000000000000000000000000000110#32 = .ok .writeMagic ∧
  decode 0b00000000000000000000000000000111#32 = .ok .encode ∧
  decode 0b00000000000000000000000000001000#32 = .ok .checkMagic ∧
  decode 0b00000000000000000000000000001001#32 = .ok .decode ∧
  decode 0b00000000000000000000000000001010#32 = .ok .rewind ∧
  decode 0b00000000000000000000000000001011#32 = .ok .close ∧
  decode 0b00000000000000000000000000010000#32 = .ok .compress ∧
  decode 0b00000000000000000000000000010001#32 = .ok .decompress ∧
  decode 0b00000000000000000000000000000000#32 = .error .reservedOpcode ∧
  decode 0b00000000000000000000000000001100#32 = .error .reservedOpcode ∧
  decode 0b00000000000000000000000000010010#32 = .error .reservedOpcode ∧
  decode 0b00000000000000000000000100000001#32 = .error .reservedField

/-- R101, R104: "every 32-bit word is either exactly one command of rule R102 or illegal"; decode and encode agree both
ways, and the legal words are those with RSVD = 0 and an opcode of R102. -/
def Obligations.DecodeAndEncodeAgree : Prop :=
  (∀ i : Instr, decode (encode i) = .ok i) ∧
  (∀ (w : Word) (i : Instr), decode w = .ok i → w = encode i) ∧
  (∀ w : Word, (∃ i, decode w = .ok i) ↔
    w.toNat / 256 = 0 ∧ ((1 ≤ w.toNat % 256 ∧ w.toNat % 256 ≤ 0x0B) ∨ w.toNat % 256 = 0x10 ∨ w.toNat % 256 = 0x11))

/-! ## Steps and acceptance (R11, R23, R25, R26, R29, R232, R249) -/

/-- A step runs the decoded command: the host's write of a legal word to CMD while idle is `exec` of its command, and the
core's turn while a command runs is `exec` of that command, with the turn taken off the agenda; an idle core's turn
changes nothing else (R248). The agenda, and that an empty one is the core's turn, are the model's (log 2); `exec` as
acceptance or as the next step of a running command is log 12. -/
def Obligations.StepRunsTheCommand : Prop :=
  (∀ (s : State) (ts : List Turn) (w : Word) (i : Instr), s.agenda = .write 0 4 w :: ts → s.phase = .idle →
    decode w = .ok i → step s = exec i { s with agenda := ts }) ∧
  (∀ (s : State) (ts : List Turn) (i : Instr), s.agenda = .core :: ts → s.phase.running = some i →
    step s = exec i { s with agenda := ts }) ∧
  (∀ (s : State) (i : Instr), s.agenda = [] → s.phase.running = some i → step s = exec i s) ∧
  (∀ (s : State) (ts : List Turn), s.agenda = .core :: ts → s.phase = .idle → step s = .next { s with agenda := ts }) ∧
  (∀ (s : State), s.agenda = [] → s.phase = .idle → step s = .next s)

/-- The model's convention for the host's tables (log 3): the very next step after placing a legal word runs exactly its
command from idle. -/
def Obligations.PlacedWordRunsNext : Prop :=
  ∀ (s : State) (w : Nat) (i : Instr), w < 2 ^ 32 → decode (BitVec.ofNat 32 w) = .ok i →
    step (s.withFetchWord 32 w) = exec i { s with phase := .idle }

/-- R232: a legal command whose precondition holds is accepted in one step: CMD latched, DONE and ERRCODE cleared, RUN at
the command's first step, nothing else changed. -/
def Obligations.AcceptedCommandStarts : Prop :=
  ∀ (i : Instr) (s : State), s.phase = .idle → Precondition i s →
    exec i s = .next { s with cmd := encode i, done := false, errCode := .none, phase := firstPhase i }

/-- R232: a command whose precondition is false is refused with SEQUENCE; only CMD, DONE, ERRCODE and ERR_POS change. -/
def Obligations.SequenceRefusalChangesNothingElse : Prop :=
  ∀ (i : Instr) (s : State), s.phase = .idle → ¬ Precondition i s →
    exec i s = .next { s with cmd := encode i, done := true, errCode := .sequence, errPos := s.inPos }

/-- R104, R232: an illegal word written while idle is refused with ILLEGAL_CMD; only CMD, DONE, ERRCODE and ERR_POS
change. -/
def Obligations.IllegalWordRefused : Prop :=
  ∀ (s : State) (ts : List Turn) (w : Word), s.agenda = .write 0 4 w :: ts → s.phase = .idle →
    (w.toNat / 256 ≠ 0 ∨
      ¬ ((1 ≤ w.toNat % 256 ∧ w.toNat % 256 ≤ 0x0B) ∨ w.toNat % 256 = 0x10 ∨ w.toNat % 256 = 0x11)) →
    step s = .next
      { s with agenda := ts, cmd := w, done := true, errCode := .illegalCmd, errPos := s.inPos }

/-- R249, R28: a CMD write while BUSY is dropped: it sets CMD_DROPPED and changes nothing else. -/
def Obligations.BusyCommandWriteDropped : Prop :=
  ∀ (s : State) (ts : List Turn) (w : Word), s.agenda = .write 0 4 w :: ts → s.phase ≠ .idle →
    step s = .next { s with agenda := ts, cmdDropped := true }

/-! ## Host registers (R22 to R44, R79, R80, R222, R223) -/

/-- R223: what a host write does at each offset other than CMD, at any time. -/
def Obligations.HostWriteTakesItsFields : Prop :=
  ∀ (s : State) (ts : List Turn) (off : Nat) (v : Word), s.agenda = .write off 4 v :: ts →
    off % 4 = 0 → off < 0x40 → off ≠ 0 →
    step s = .next
      (if off = 0x04 then
        { s with agenda := ts, done := s.done && !v[1], cmdDropped := s.cmdDropped && !v[3] }
      else if off = 0x08 then { s with agenda := ts, ie := v[0] }
      else if off = 0x20 then
        { s with agenda := ts, idxSym := v.extractLsb' 0 9, idxWord := v.extractLsb' 16 3 }
      else { s with agenda := ts })

/-- R222, R80: a host read returns the register's value and changes nothing of the core ("No register read has a side
effect"); the register map of R22 with reserved offsets reading 0. `hostData` is the model's own field (log 9). -/
def Obligations.HostReadReturnsTheRegister : Prop :=
  (∀ (s : State) (ts : List Turn) (off : Nat), s.agenda = .read off 4 :: ts → off % 4 = 0 → off < 0x40 →
    step s = .next { s with agenda := ts, hostData := some (s.readReg off) }) ∧
  (∀ s : State, s.readReg 0x00 = s.cmd ∧ s.readReg 0x04 = s.statusWord ∧
    (s.readReg 0x08)[0] = s.ie ∧ (∀ j, 1 ≤ j → (s.readReg 0x08).getLsbD j = false) ∧
    s.readReg 0x0C = BitVec.ofNat 32 s.total ∧ s.readReg 0x10 = s.inPos ∧ s.readReg 0x14 = s.outLen ∧
    s.readReg 0x18 = BitVec.ofNat 32 s.nodes ∧ s.readReg 0x1C = s.errPos ∧ s.readReg 0x30 = s.params.magic ∧
    s.readReg 0x38 = 0#32 ∧ s.readReg 0x3C = 0#32)

/-- R24, R27, R40, R44, R45: the fields of STATUS, IDX and PARAMS stand at their bits and the reserved bits read 0, for
parameters in their legal ranges. -/
def Obligations.RegisterFieldsInPlace : Prop :=
  ∀ s : State, s.params.wf = true →
    s.statusWord[0] = decide (s.phase ≠ .idle) ∧ s.statusWord[1] = s.done ∧
    s.statusWord[2] = decide (s.errCode ≠ .none) ∧ s.statusWord[3] = s.cmdDropped ∧
    s.statusWord.extractLsb' 4 4 =
      (match s.errCode with
        | .none => 0#4 | .badMagic => 1#4 | .truncHeader => 2#4 | .truncPayload => 3#4 | .illegalCmd => 4#4
        | .sequence => 5#4 | .headerOverflow => 6#4 | .countOverflow => 7#4 | .noCode => 8#4) ∧
    s.statusWord[8] = s.freqValid ∧ s.statusWord[9] = s.treeValid ∧
    s.statusWord[10] = decide (s.treeSrc = .read) ∧ s.statusWord[11] = s.codesValid ∧
    s.statusWord.extractLsb' 12 20 = 0#20 ∧
    (s.readReg 0x20).extractLsb' 0 9 = s.idxSym ∧ (s.readReg 0x20).extractLsb' 9 7 = 0#7 ∧
    (s.readReg 0x20).extractLsb' 16 3 = s.idxWord ∧ (s.readReg 0x20).extractLsb' 19 13 = 0#13 ∧
    ((s.readReg 0x34).extractLsb' 0 16).toNat = s.params.nodeCap ∧
    ((s.readReg 0x34).extractLsb' 16 6).toNat = s.params.countW ∧ (s.readReg 0x34).extractLsb' 22 10 = 0#10

/-- R41, R42: the windows on FREQ and LEN show an entry exactly while idle, valid and in range, and 0 otherwise. -/
def Obligations.TableWindowsAreGated : Prop :=
  ∀ s : State,
    (∀ y : Fin 257, s.idxSym.toNat = y.val → s.phase = .idle → s.freqValid = true →
      s.readReg 0x24 = BitVec.ofNat 32 s.freq[y]) ∧
    (∀ y : Fin 257, s.idxSym.toNat = y.val → s.phase = .idle → s.codesValid = true →
      s.readReg 0x28 = s.len[y].setWidth 32) ∧
    (256 < s.idxSym.toNat ∨ s.phase ≠ .idle ∨ s.freqValid = false → s.readReg 0x24 = 0#32) ∧
    (256 < s.idxSym.toNat ∨ s.phase ≠ .idle ∨ s.codesValid = false → s.readReg 0x28 = 0#32)

/-- R43: while idle, with the code table valid and the index in range, bit `31 - j` of CODE_WORD is `c[32k + j]`, or 0
where the code has no such bit; otherwise CODE_WORD reads 0. -/
def Obligations.CodeWordShowsTheCodeBits : Prop :=
  ∀ s : State,
    (∀ (y : Fin 257) (j : Nat), s.idxSym.toNat = y.val → s.phase = .idle → s.codesValid = true → j < 32 →
      (s.readReg 0x2C).getLsbD (31 - j) = s.code[y].getD (32 * s.idxWord.toNat + j) false) ∧
    (256 < s.idxSym.toNat ∨ s.phase ≠ .idle ∨ s.codesValid = false → s.readReg 0x2C = 0#32)

/-- R79: an access of another width, misaligned or outside the window is refused. -/
def Obligations.AccessOutsideInterfaceRefused : Prop :=
  ∀ (s : State) (ts : List Turn) (off bytes : Nat) (v : Word), bytes ≠ 4 ∨ off % 4 ≠ 0 ∨ 0x40 ≤ off →
    (s.agenda = .read off bytes :: ts → step s = .refused (.hostAccess off bytes)) ∧
    (s.agenda = .write off bytes v :: ts → step s = .refused (.hostAccess off bytes))

/-- R70, R266: streams are attached only while BUSY = 0; an input stream begins at its start, an output stream with an
empty artifact. That the registers stay, and which list is then `delivered`, is the model's reading (log 10); that a new
input stream answers reads as the earlier one did is the model's choice (log 8). -/
def Obligations.StreamsAttachOnlyWhileIdle : Prop :=
  ∀ (s : State) (ts : List Turn) (bits : Bits) (prior : List (List Byte)),
    (s.agenda = .attachIn bits :: ts → s.phase = .idle →
      step s = .next { s with agenda := ts, inBits := bits, inCur := 0 }) ∧
    (s.agenda = .attachOut prior :: ts → s.phase = .idle →
      step s = .next { s with agenda := ts, outCur := [], delivered := prior }) ∧
    (s.agenda = .attachIn bits :: ts ∨ s.agenda = .attachOut prior :: ts → s.phase ≠ .idle →
      step s = .refused .attachWhileBusy)

/-! ## Reset and interrupt (R241, R260 to R263) -/

/-- R53, R260, R261, R263: reset at any time, also during a command, gives every register its reset value and leaves the
ports and the parameters alone. (What the tables then hold is the model's choice, log 7, and is not stated.) -/
def Obligations.ResetClearsRegistersKeepsPorts : Prop :=
  ∀ (s : State) (ts : List Turn), s.agenda = .reset :: ts → ∃ t, step s = .next t ∧
    t.cmd = 0#32 ∧ t.statusWord = 0#32 ∧ t.ie = false ∧ t.total = 0 ∧ t.inPos = 0#32 ∧ t.outLen = 0#32 ∧
    t.nodes = 0 ∧ t.errPos = 0#32 ∧ t.idxSym = 0#9 ∧ t.idxWord = 0#3 ∧ t.phase = .idle ∧ t.irq = false ∧
    t.params = s.params ∧ t.inBits = s.inBits ∧ t.inCur = s.inCur ∧ t.inAnswers = s.inAnswers ∧
    t.outCur = s.outCur ∧ t.delivered = s.delivered ∧ t.agenda = ts

/-- R53: the registers of the state after reset, as a host reads them. -/
def Obligations.ResetStateReadsAsTabled : Prop :=
  ∀ p : Params,
    (State.resetWith p).phase = .idle ∧ (State.resetWith p).irq = false ∧
    ∀ off, off ∈ [0x00, 0x04, 0x08, 0x0C, 0x10, 0x14, 0x18, 0x1C, 0x20, 0x24, 0x28, 0x2C, 0x38, 0x3C] →
      (State.resetWith p).readReg off = 0#32

/-- R52, R241: IRQ is CTRL.IE AND STATUS.DONE; and what raises and what lowers it in one step. It rises when a command
finishes or is refused at acceptance while IE = 1, or when IE is set while DONE = 1; it falls when the host clears DONE,
clears IE or issues a command word, or at reset. -/
def Obligations.InterruptEdges : Prop :=
  (∀ s : State, s.irq = (s.ie && s.done)) ∧
  ∀ s t : State, Inv s → step s = .next t →
    (s.irq = false → t.irq = true →
      (s.ie = true ∧ s.phase ≠ .idle ∧ t.phase = .idle) ∨
      (s.ie = true ∧ s.phase = .idle ∧ (∃ w ts, s.agenda = .write 0x00 4 w :: ts) ∧
        (t.errCode = .illegalCmd ∨ t.errCode = .sequence)) ∨
      (s.done = true ∧ ∃ v ts, s.agenda = .write 0x08 4 v :: ts ∧ v[0] = true)) ∧
    (s.irq = true → t.irq = false →
      (∃ v ts, s.agenda = .write 0x04 4 v :: ts ∧ v[1] = true) ∨
      (∃ v ts, s.agenda = .write 0x08 4 v :: ts ∧ v[0] = false) ∨
      (∃ w ts, s.agenda = .write 0x00 4 w :: ts) ∨ (∃ ts, s.agenda = .reset :: ts))

/-! ## Ports (R73) -/

/-- R73: a core whose next transaction is an unanswered read has no step: its turn changes nothing of the core and the
streams, at every reading position of every command. The form of the stuck core is the model's (log 8). -/
def Obligations.UnansweredReadBlocksTheCore : Prop :=
  ∀ (s : State) (i : Instr), s.inAnswers = false → s.agenda = [] → s.phase.running = some i →
    ((∃ k, RunsCount i k ∧ s.phase = k .loop) ∨
     (∃ k, RunsDeserialize i k ∧ ∃ st, s.phase = k (.tag st) ∨ s.phase = k (.sym st)) ∨
     (∃ k, RunsEncode i k ∧ s.phase = k .read) ∨
     (∃ k, RunsDecode i k ∧ s.tree.isSome ∧ (s.phase = k .atRoot ∨ ∃ l r, s.phase = k (.descending l r))) ∨
     s.phase = .checkMagic ∨ s.phase = .decompress .check) →
    step s = .next s

/-! ## COUNT (R130 to R133) -/

/-- R130, R132, R242: COUNT step by step, as a command and inside COMPRESS: the first step clears the flags, FREQ and
TOTAL; each whole word read is counted once in FREQ and once in TOTAL; with fewer than eight bits left nothing is consumed
and COUNT goes to its end; the last step sets the sentinel's count to 1 and FREQ_VALID, and completes the command (log 11). Each
step changes nothing else. -/
def Obligations.CountStepByStep : Prop :=
  (∀ (i : Instr) (k : CountPos → Phase) (s : State), RunsCount i k →
    (s.phase = k .clear → exec i s = .next
      { s with
        freqValid := false, treeValid := false, codesValid := false
        freq := Vector.replicate 257 0, total := 0, phase := k .loop }) ∧
    (∀ (b : Byte) (rest : Bits), s.phase = k .loop → s.inAnswers = true →
      s.inputRest = bitsOf 8 b.toNat ++ rest → s.total ≠ 2 ^ s.params.countW - 2 → exec i s = .next
      { s with
        inCur := s.inCur + 8, inPos := s.inPos + 8#32
        freq := s.freq.set (byteEntry b) (s.freq[byteEntry b] + 1), total := s.total + 1, phase := k .loop }) ∧
    (s.phase = k .loop → s.inAnswers = true → s.inputRest.length < 8 →
      exec i s = .next { s with phase := k .finish })) ∧
  (∀ s : State, s.phase = .count .finish → exec .count s = .next
    { s with freq := s.freq.set sentinelEntry 1, freqValid := true, phase := .idle, done := true })

/-- R131: the word that would make TOTAL 2^COUNT_W - 1 is consumed, not counted, and raises COUNT_OVERFLOW. -/
def Obligations.CountOverflowIsNotCounted : Prop :=
  ∀ (s : State) (b : Byte) (rest : Bits), s.inAnswers = true → s.inputRest = bitsOf 8 b.toNat ++ rest →
    s.total = 2 ^ s.params.countW - 2 →
    (s.phase = .count .loop → exec .count s = .next
      { s with
        inCur := s.inCur + 8, inPos := s.inPos + 8#32, errPos := s.inPos + 8#32
        errCode := .countOverflow, done := true, phase := .idle }) ∧
    (s.phase = .compress (.count .loop) → exec .compress s = .next
      { s with
        inCur := s.inCur + 8, inPos := s.inPos + 8#32, errPos := s.inPos + 8#32
        errCode := .countOverflow, phase := .compress .close })

/-- R130, R132, R133: COUNT over the words `xs` followed by fewer than 8 bits ends after |xs| + 3 steps with `TOTAL = |xs|`,
`FREQ[s]` the number of occurrences, `FREQ[256] = 1`, the byte counts summing to N, the trailing bits unread, and nothing
else changed. The number of steps is R130's, with the completion in the step of the last two assignments (log 11). -/
def Obligations.CountTalliesTheInput : Prop :=
  ∀ (s : State) (xs : List Byte) (tail : Bits), Quiet s → s.phase = .count .clear →
    s.inputRest = unpackBytes xs ++ tail → tail.length < 8 → xs.length ≤ 2 ^ s.params.countW - 2 →
    RunsIn (xs.length + 3) s
      { s with
        freqValid := true, treeValid := false, codesValid := false
        freq := freqOf xs, total := xs.length
        inCur := s.inCur + 8 * xs.length, inPos := s.inPos + BitVec.ofNat 32 (8 * xs.length)
        phase := .idle, done := true } ∧
    byteSum (freqOf xs) = xs.length

/-! ## BUILD (R140 to R145) -/

/-- R140, R141, R142, R145: on a FREQ with a nonzero entry BUILD completes in one step with the one tree that the rule's loop
makes (two remove-mins by the key (weight, seq), the first removed on the left), `NODES = 2L - 1`, and nothing else
changed. BUILD is a single step (R271); that the completion (R242) falls into it is log 11. -/
def Obligations.BuildMakesTheTreeOfTheRule : Prop :=
  ∀ (s : State) (y : Fin 257), s.phase = .build → s.freq[y] ≠ 0 →
    ∃ t, Combines 0 (leafEntries s.freq) t ∧ (∀ t', Combines 0 (leafEntries s.freq) t' → t' = t) ∧
      exec .build s = .next
        { s with
          tree := some t, nodes := 2 * (leafEntries s.freq).length - 1
          treeValid := true, treeSrc := .built, codesValid := false, phase := .idle, done := true }

/-- R145, R143: the shape of a built tree: one leaf per symbol with a nonzero count, with that count as weight; unique
symbols; 2L - 1 nodes; every internal weight the sum of its children's; the root's weight the sum of all counts. -/
def Obligations.BuiltTreeShape : Prop :=
  ∀ (freq : Vector Nat 257) (t : HuffTree), buildTree freq = some t →
    (t.leaves.map Prod.fst).Nodup ∧
    (∀ (y : Sym) (w : Nat), (y, w) ∈ t.leaves ↔ ∃ x : Fin 257, x.val = y.toNat ∧ freq[x] = w ∧ w ≠ 0) ∧
    t.size = 2 * t.leaves.length - 1 ∧ t.leaves.length ≤ 257 ∧ t.Weighted ∧ t.weight = freq.toList.sum

/-- R143: with a FREQ that COUNT made, the root's weight is TOTAL + 1, which fits COUNT_W bits, and the sentinel has a
leaf of weight 1. -/
def Obligations.BuiltWeightsFit : Prop :=
  ∀ (s : State) (t : HuffTree), DataInv s → s.treeValid = true → s.treeSrc = .built → s.tree = some t →
    t.weight = s.total + 1 ∧ t.weight ≤ 2 ^ s.params.countW - 1 ∧ (sentinel, 1) ∈ t.leaves ∧
    ∀ n : HuffTree, n.Within t → n.weight ≤ t.weight

/-! ## GENCODES (R150 to R153) -/

/-- R150, R151: GENCODES completes in one step: the entry of each symbol with a leaf is its path (for a root that is a
leaf "0") with its length, every other entry is empty, CODES_VALID is set, and nothing else changes. GENCODES is a single
step (R271); that the completion (R242) falls into it is log 11. -/
def Obligations.GencodesRecordsEveryPath : Prop :=
  ∀ (s : State) (t : HuffTree), s.phase = .gencodes → s.tree = some t → t.TableSymbols →
    exec .gencodes s = .next
      { s with
        len := Vector.ofFn fun y => BitVec.ofNat 9 (t.codeOf y).length
        code := Vector.ofFn fun y => t.codeOf y
        codesValid := true, phase := .idle, done := true }

/-- R152: no code of a valid code table is a prefix of another. -/
def Obligations.CodesArePrefixFree : Prop :=
  ∀ (s : State) (x y : Fin 257), DataInv s → s.codesValid = true → x ≠ y → s.len[x] ≠ 0#9 → s.len[y] ≠ 0#9 →
    ¬ s.code[x] <+: s.code[y]

/-- R153, R49: under a valid code table exactly the symbols with a nonzero count have a code, the sentinel among them,
and `LEN[s] = |CODE[s]|`. -/
def Obligations.EveryCountedSymbolHasACode : Prop :=
  ∀ (s : State) (y : Fin 257), DataInv s → s.codesValid = true →
    (s.len[y] ≠ 0#9 ↔ s.freq[y] ≠ 0) ∧ s.len[y].toNat = s.code[y].length ∧ s.len[sentinelEntry] ≠ 0#9

/-- R115: with L leaves every code is at most max(1, L - 1) bits long, and so at most 256. -/
def Obligations.CodeLengthsAreBounded : Prop :=
  ∀ (s : State) (t : HuffTree) (y : Fin 257), DataInv s → s.codesValid = true → s.tree = some t →
    s.code[y].length ≤ max 1 (t.leaves.length - 1) ∧ s.code[y].length ≤ 256

/-! ## SERIALIZE (R160, R161) -/

/-- R160, R11: one OutWrite per step, as a command and inside COMPRESS: tag 0 and on to the children, tag 1 and on to the
symbol, the symbol and on to the next pending subtree; the first step writes the root's tag; the last leaf's symbol
reaches the end, and the completion is next (log 11). Only the output and the position change. -/
def Obligations.SerializeWritesOneFieldPerStep : Prop :=
  (∀ (i : Instr) (k : SerPos → Phase) (s : State), RunsSerialize i k →
    (∀ w l r rest, s.phase = k (.node (.internal w l r) rest) ∨
        (rest = [] ∧ s.phase = k .start ∧ s.tree = some (.internal w l r)) →
      exec i s = .next
        { s with outCur := s.outCur ++ [false], outLen := s.outLen + 1#32, phase := k (.node l (r :: rest)) }) ∧
    (∀ y w rest, s.phase = k (.node (.leaf y w) rest) ∨
        (rest = [] ∧ s.phase = k .start ∧ s.tree = some (.leaf y w)) →
      exec i s = .next { s with outCur := s.outCur ++ [true], outLen := s.outLen + 1#32, phase := k (.sym y rest) }) ∧
    (∀ (y : Sym) t rest, s.phase = k (.sym y (t :: rest)) →
      exec i s = .next
        { s with outCur := s.outCur ++ bitsOf 9 y.toNat, outLen := s.outLen + 9#32, phase := k (.node t rest) })) ∧
  (∀ (s : State) (y : Sym), s.phase = .serialize (.sym y []) → exec .serialize s = .next
    { s with outCur := s.outCur ++ bitsOf 9 y.toNat, outLen := s.outLen + 9#32, phase := .ended .serialize })

/-- R161: SERIALIZE writes exactly `enc(T)`, one field per step, advances OUT_LEN by its length, and changes nothing
else. The completion is a step of its own (log 11). -/
def Obligations.SerializeWritesTheHeader : Prop :=
  ∀ (s : State) (t : HuffTree), Quiet s → s.phase = .serialize .start → s.tree = some t →
    RunsIn (t.size + t.leaves.length + 1) s
      { s with
        outCur := s.outCur ++ t.header, outLen := s.outLen + BitVec.ofNat 32 (t.size + 9 * t.leaves.length)
        phase := .idle, done := true }

/-! ## DESERIALIZE (R165 to R169) -/

/-- R165, R167: DESERIALIZE step by step, as a command and inside DECOMPRESS: the first step clears the flags and NODES; a
tag bit below capacity counts a node, 1 goes on to the symbol, 0 opens an internal node and goes on to its left child. A
symbol closes every open node whose left child `l` is complete (`ls`, innermost first), each with weight 0; if an open node
still lacks its left child, the tree closed is that child and the right child's tag is next, else it is the whole tree and
the last assignments are next: they store it, set the flags and complete the command, in a step of their own (log 11; inside
DECOMPRESS see DecompressRunsItsBodiesInOrder). Each step changes nothing else. -/
def Obligations.DeserializeReadsOneFieldPerStep : Prop :=
  (∀ (i : Instr) (k : DesPos → Phase) (s : State) (st : List Frame) (rest : Bits), RunsDeserialize i k →
    (s.phase = k .start → exec i s = .next
      { s with treeValid := false, codesValid := false, nodes := 0, phase := k (.tag []) }) ∧
    (s.inAnswers = true → s.phase = k (.tag st) → s.nodes ≠ s.params.nodeCap → s.inputRest = true :: rest →
      exec i s = .next
        { s with inCur := s.inCur + 1, inPos := s.inPos + 1#32, nodes := s.nodes + 1, phase := k (.sym st) }) ∧
    (s.inAnswers = true → s.phase = k (.tag st) → s.nodes ≠ s.params.nodeCap → s.inputRest = false :: rest →
      exec i s = .next
        { s with
          inCur := s.inCur + 1, inPos := s.inPos + 1#32, nodes := s.nodes + 1, phase := k (.tag (.left :: st)) }) ∧
    (∀ (y : Sym) (ls : List HuffTree), s.inAnswers = true → s.phase = k (.sym (ls.map .right ++ .left :: st)) →
      s.inputRest = bitsOf 9 y.toNat ++ rest → exec i s = .next
        { s with
          inCur := s.inCur + 9, inPos := s.inPos + 9#32
          phase := k (.tag (.right (ls.foldl (fun r l => .internal 0 l r) (.leaf y 0)) :: st)) }) ∧
    (∀ (y : Sym) (ls : List HuffTree), s.inAnswers = true → s.phase = k (.sym (ls.map .right)) →
      s.inputRest = bitsOf 9 y.toNat ++ rest → exec i s = .next
        { s with
          inCur := s.inCur + 9, inPos := s.inPos + 9#32
          phase := k (.store (ls.foldl (fun r l => .internal 0 l r) (.leaf y 0))) })) ∧
  (∀ (s : State) (t : HuffTree), s.phase = .deserialize (.store t) → exec .deserialize s = .next
    { s with tree := some t, treeValid := true, treeSrc := .read, phase := .idle, done := true })

/-- R165, R166: the two errors of DESERIALIZE in their order: the end of the stream at a tag or inside a symbol is
TRUNC_HEADER, consuming nothing; a tag bit read at capacity is HEADER_OVERFLOW, that bit consumed. In DESERIALIZE they end
the command, in DECOMPRESS they lead to the close. -/
def Obligations.DeserializeErrorsInOrder : Prop :=
  ∀ (s : State) (st : List Frame), s.inAnswers = true →
    (∀ p, ((p = .tag st ∧ s.inputRest = []) ∨ (p = .sym st ∧ s.inputRest.length < 9)) →
      (s.phase = .deserialize p → exec .deserialize s = .next
        { s with errPos := s.inPos, errCode := .truncHeader, done := true, phase := .idle }) ∧
      (s.phase = .decompress (.deserialize p) → exec .decompress s = .next
        { s with errPos := s.inPos, errCode := .truncHeader, phase := .decompress .close })) ∧
    (s.inputRest ≠ [] → s.nodes = s.params.nodeCap →
      (s.phase = .deserialize (.tag st) → exec .deserialize s = .next
        { s with
          inCur := s.inCur + 1, inPos := s.inPos + 1#32, errPos := s.inPos + 1#32
          errCode := .headerOverflow, done := true, phase := .idle }) ∧
      (s.phase = .decompress (.deserialize (.tag st)) → exec .decompress s = .next
        { s with
          inCur := s.inCur + 1, inPos := s.inPos + 1#32, errPos := s.inPos + 1#32
          errCode := .headerOverflow, phase := .decompress .close }))

/-- R169, R167, R168: a header of any tree of at most NODE_CAP nodes, whatever its symbols and depth, is read back as that
tree with weights 0; exactly its bits are consumed and nothing else changes. That the last assignments are one step
of their own is log 11. -/
def Obligations.DeserializeReadsTheHeader : Prop :=
  ∀ (s : State) (t : HuffTree) (rest : Bits), Quiet s → s.phase = .deserialize .start →
    s.inputRest = t.header ++ rest → t.size ≤ s.params.nodeCap →
    RunsIn (1 + t.size + t.leaves.length + 1) s
      { s with
        inCur := s.inCur + t.header.length, inPos := s.inPos + BitVec.ofNat 32 t.header.length
        nodes := t.size, tree := some t.eraseWeights, treeValid := true, treeSrc := .read, codesValid := false
        phase := .idle, done := true }

/-! ## WRITE_MAGIC, CHECK_MAGIC, REWIND, CLOSE (R180, R200, R201, R220, R221) -/

/-- R180, R186: WRITE_MAGIC appends the 32 bits of MAGIC, most significant first, and has reached its end (the completion
is next, log 11); inside COMPRESS COUNT is next. -/
def Obligations.WriteMagicAppendsTheMagic : Prop :=
  ∀ s : State,
    (s.phase = .writeMagic → exec .writeMagic s = .next
      { s with
        outCur := s.outCur ++ bitsOf 32 s.params.magic.toNat, outLen := s.outLen + 32#32
        phase := .ended .writeMagic }) ∧
    (s.phase = .compress .magic → exec .compress s = .next
      { s with
        outCur := s.outCur ++ bitsOf 32 s.params.magic.toNat, outLen := s.outLen + 32#32
        phase := .compress (.count .clear) })

/-- R200: 32 bits equal to MAGIC are consumed and CHECK_MAGIC has reached its end (the completion is next, log 11); inside
DECOMPRESS DESERIALIZE is next. -/
def Obligations.CheckMagicAcceptsTheMagic : Prop :=
  ∀ (s : State) (rest : Bits), s.inAnswers = true → s.inputRest = bitsOf 32 s.params.magic.toNat ++ rest →
    (s.phase = .checkMagic → exec .checkMagic s = .next
      { s with inCur := s.inCur + 32, inPos := s.inPos + 32#32, phase := .ended .checkMagic }) ∧
    (s.phase = .decompress .check → exec .decompress s = .next
      { s with inCur := s.inCur + 32, inPos := s.inPos + 32#32, phase := .decompress (.deserialize .start) })

/-- R200, R201: 32 other bits are consumed and raise BAD_MAGIC; fewer than 32 bits, whatever they are, raise TRUNC_HEADER
and are not consumed. In CHECK_MAGIC the error ends the command, in DECOMPRESS the close is next (R233, R234). -/
def Obligations.CheckMagicErrors : Prop :=
  ∀ (s : State) (v : Word) (rest : Bits), s.inAnswers = true →
    (s.inputRest = bitsOf 32 v.toNat ++ rest → v ≠ s.params.magic →
      (s.phase = .checkMagic → exec .checkMagic s = .next
        { s with
          inCur := s.inCur + 32, inPos := s.inPos + 32#32, errPos := s.inPos + 32#32
          errCode := .badMagic, done := true, phase := .idle }) ∧
      (s.phase = .decompress .check → exec .decompress s = .next
        { s with
          inCur := s.inCur + 32, inPos := s.inPos + 32#32, errPos := s.inPos + 32#32
          errCode := .badMagic, phase := .decompress .close })) ∧
    (s.inputRest.length < 32 →
      (s.phase = .checkMagic → exec .checkMagic s = .next
        { s with errPos := s.inPos, errCode := .truncHeader, done := true, phase := .idle }) ∧
      (s.phase = .decompress .check → exec .decompress s = .next
        { s with errPos := s.inPos, errCode := .truncHeader, phase := .decompress .close }))

/-- R220, R72: REWIND sets the cursor and IN_POS to 0 and has reached its end (the completion is next, log 11). -/
def Obligations.RewindReturnsToTheStart : Prop :=
  ∀ s : State, s.phase = .rewind →
    exec .rewind s = .next { s with inCur := 0, inPos := 0#32, phase := .ended .rewind }

/-- R221, R77, R78, R11: CLOSE delivers the bytes of the artifact padded with fewer than eight zero bits to a whole number of
bytes, begins an empty artifact and has reached its end; that the completion is the next step is log 11. -/
def Obligations.CloseDeliversThePaddedArtifact : Prop :=
  ∀ s : State, s.phase = .close →
    ∃ (n : Nat) (bytes : List Byte), n < 8 ∧ unpackBytes bytes = s.outCur ++ List.replicate n false ∧
      exec .close s = .next
        { s with delivered := s.delivered ++ [bytes], outCur := [], outLen := 0#32, phase := .ended .close }

/-! ## ENCODE (R182 to R184) -/

/-- R182, R183, R11: ENCODE step by step, as a command and inside COMPRESS: the first step rewinds the input; a byte that
has a code is consumed and its code is written next, at the end of the stream the sentinel's; EmitCode writes one code bit
per step, left to right, and after the last bit of a byte's code the next byte is read; the last bit of the sentinel's code
reaches the end, and the completion is next (log 11). Each step changes nothing else. -/
def Obligations.EncodeStepByStep : Prop :=
  (∀ (i : Instr) (k : EncPos → Phase) (s : State), RunsEncode i k →
    (s.phase = k .reset → exec i s = .next { s with inCur := 0, inPos := 0#32, phase := k .read }) ∧
    (∀ (b : Byte) (rest : Bits), s.phase = k .read → s.inAnswers = true →
      s.inputRest = bitsOf 8 b.toNat ++ rest → s.len[byteEntry b] ≠ 0#9 → exec i s = .next
      { s with inCur := s.inCur + 8, inPos := s.inPos + 8#32, phase := k (.emit (byteEntry b) 0) }) ∧
    (s.phase = k .read → s.inAnswers = true → s.inputRest.length < 8 → s.len[sentinelEntry] ≠ 0#9 →
      exec i s = .next { s with phase := k (.emit sentinelEntry 0) }) ∧
    (∀ (y : Fin 257) (j : Nat) (b : Bool), s.phase = k (.emit y j) → s.code[y][j]? = some b →
      j + 1 < s.len[y].toNat → exec i s = .next
      { s with outCur := s.outCur ++ [b], outLen := s.outLen + 1#32, phase := k (.emit y (j + 1)) }) ∧
    (∀ (y : Fin 257) (j : Nat) (b : Bool), s.phase = k (.emit y j) → s.code[y][j]? = some b →
      s.len[y].toNat ≤ j + 1 → y ≠ sentinelEntry → exec i s = .next
      { s with outCur := s.outCur ++ [b], outLen := s.outLen + 1#32, phase := k .read })) ∧
  (∀ (s : State) (j : Nat) (b : Bool), s.phase = .encode (.emit sentinelEntry j) →
    s.code[sentinelEntry][j]? = some b → s.len[sentinelEntry].toNat ≤ j + 1 → exec .encode s = .next
    { s with outCur := s.outCur ++ [b], outLen := s.outLen + 1#32, phase := .ended .encode })

/-- R184: a byte that has no code is consumed, nothing is written, and NO_CODE is raised. -/
def Obligations.EncodeWithoutACodeRaisesNoCode : Prop :=
  ∀ (s : State) (b : Byte) (rest : Bits), s.inAnswers = true → s.inputRest = bitsOf 8 b.toNat ++ rest →
    s.len[byteEntry b] = 0#9 →
    (s.phase = .encode .read → exec .encode s = .next
      { s with
        inCur := s.inCur + 8, inPos := s.inPos + 8#32, errPos := s.inPos + 8#32
        errCode := .noCode, done := true, phase := .idle }) ∧
    (s.phase = .compress (.encode .read) → exec .compress s = .next
      { s with
        inCur := s.inCur + 8, inPos := s.inPos + 8#32, errPos := s.inPos + 8#32
        errCode := .noCode, phase := .compress .close })

/-- R183, R109, R114: ENCODE over a whole stream of bytes `xs` with fewer than eight bits after them, each of which has a
code, writes the payload: each byte's code in order and the sentinel's once. Nothing else changes but the input
position. -/
def Obligations.EncodeWritesThePayload : Prop :=
  ∀ (s : State) (xs : List Byte) (tail : Bits), Quiet s → s.phase = .encode .reset →
    s.inBits = unpackBytes xs ++ tail → tail.length < 8 →
    (∀ y : Fin 257, s.len[y].toNat = s.code[y].length) →
    (∀ b ∈ xs, s.len[byteEntry b] ≠ 0#9) → s.len[sentinelEntry] ≠ 0#9 →
    RunsTo s
      { s with
        inCur := 8 * xs.length, inPos := BitVec.ofNat 32 (8 * xs.length)
        outCur := s.outCur ++ payloadBits s.code xs
        outLen := s.outLen + BitVec.ofNat 32 (payloadBits s.code xs).length
        phase := .idle, done := true }

/-! ## DECODE (R202 to R205) -/

/-- R202, R203, R204: DECODE step by step, as a command and inside DECOMPRESS: one payload bit moves the pointer from the
root or from an internal node to its left child by 0 and to its right child by 1; at an internal node the walk goes on, at
a leaf other than the sentinel's its symbol is written next; a root that is such a leaf is reached by either bit; a symbol
is written as its low eight bits and the pointer is back at the root. Each step changes nothing else. -/
def Obligations.DecodeStepByStep : Prop :=
  ∀ (i : Instr) (k : DecPos → Phase) (s : State), RunsDecode i k →
    (∀ (b : Bool) (rest : Bits) (w : Nat) (l r : HuffTree), s.inAnswers = true → s.inputRest = b :: rest →
      (s.phase = k .atRoot ∧ s.tree = some (.internal w l r)) ∨ s.phase = k (.descending l r) →
      (∀ v l' r', (if b then r else l) = .internal v l' r' → exec i s = .next
        { s with inCur := s.inCur + 1, inPos := s.inPos + 1#32, phase := k (.descending l' r') }) ∧
      (∀ y v, (if b then r else l) = .leaf y v → y ≠ 256#9 → exec i s = .next
        { s with inCur := s.inCur + 1, inPos := s.inPos + 1#32, phase := k (.out y) })) ∧
    (∀ (b : Bool) (rest : Bits) (y : Sym) (w : Nat), s.inAnswers = true → s.inputRest = b :: rest →
      s.phase = k .atRoot → s.tree = some (.leaf y w) → y ≠ 256#9 → exec i s = .next
      { s with inCur := s.inCur + 1, inPos := s.inPos + 1#32, phase := k (.out y) }) ∧
    (∀ y : Sym, s.phase = k (.out y) → exec i s = .next
      { s with outCur := s.outCur ++ bitsOf 8 (y.toNat % 256), outLen := s.outLen + 8#32, phase := k .atRoot })

/-- R202, R203, R205: the bit that reaches the sentinel's leaf ends DECODE without a write, from the root, from below it,
and for the single-leaf tree with either bit: the completion is next (log 11), inside DECOMPRESS the close. -/
def Obligations.SentinelLeafCompletesDecode : Prop :=
  ∀ (s : State) (b : Bool) (rest : Bits) (v w : Nat) (l r : HuffTree) (p : DecPos),
    s.inAnswers = true → s.inputRest = b :: rest →
    ((p = .atRoot ∧ s.tree = some (.internal w l r) ∧ (if b then r else l) = .leaf 256#9 v) ∨
      (p = .descending l r ∧ (if b then r else l) = .leaf 256#9 v) ∨
      (p = .atRoot ∧ s.tree = some (.leaf 256#9 v))) →
    (s.phase = .decode p → exec .decode s = .next
      { s with inCur := s.inCur + 1, inPos := s.inPos + 1#32, phase := .ended .decode }) ∧
    (s.phase = .decompress (.decode p) → exec .decompress s = .next
      { s with inCur := s.inCur + 1, inPos := s.inPos + 1#32, phase := .decompress .close })

/-- R202, R204: the end of the stream before the sentinel's leaf, at the root or below it, is TRUNC_PAYLOAD. -/
def Obligations.DecodeTruncationRaises : Prop :=
  ∀ (s : State) (l r root : HuffTree) (p : DecPos), s.inAnswers = true → s.inputRest = [] →
    (p = .atRoot ∧ s.tree = some root) ∨ p = .descending l r →
    (s.phase = .decode p → exec .decode s = .next
      { s with errPos := s.inPos, errCode := .truncPayload, done := true, phase := .idle }) ∧
    (s.phase = .decompress (.decode p) → exec .decompress s = .next
      { s with errPos := s.inPos, errCode := .truncPayload, phase := .decompress .close })

/-- R202, R207, R109: DECODE of a payload made with the tree's own codes writes the bytes, stops after the last bit of the
sentinel's code, and reads nothing after it. -/
def Obligations.DecodeWritesTheBytes : Prop :=
  ∀ (s : State) (t : HuffTree) (code : Byte → Bits) (sc : Bits) (xs : List Byte) (rest : Bits), Quiet s →
    s.phase = .decode .atRoot → s.tree = some t →
    (∀ b ∈ xs, (b.setWidth 9, code b) ∈ t.codes) → (256#9, sc) ∈ t.codes →
    s.inputRest = xs.flatMap code ++ sc ++ rest →
    RunsTo s
      { s with
        inCur := s.inCur + (xs.flatMap code ++ sc).length
        inPos := s.inPos + BitVec.ofNat 32 (xs.flatMap code ++ sc).length
        outCur := s.outCur ++ unpackBytes xs, outLen := s.outLen + BitVec.ofNat 32 (8 * xs.length)
        phase := .idle, done := true }

/-! ## COMPRESS and DECOMPRESS (R186 to R188, R206 to R209) -/

/-- R186, R187, R234: COMPRESS clears the flags, rewinds, and goes from each body's end to the next body's beginning; its
last transaction closes the output, whether an error was recorded or not, and the completion is next (log 11). -/
def Obligations.CompressRunsItsBodiesInOrder : Prop :=
  ∀ s : State,
    (s.phase = .compress .clear → exec .compress s = .next
      { s with freqValid := false, treeValid := false, codesValid := false, phase := .compress .rewind }) ∧
    (s.phase = .compress .rewind → exec .compress s = .next
      { s with inCur := 0, inPos := 0#32, phase := .compress .magic }) ∧
    (s.phase = .compress (.count .finish) → exec .compress s = .next
      { s with freq := s.freq.set sentinelEntry 1, freqValid := true, phase := .compress .build }) ∧
    (∀ t, s.phase = .compress .build → buildTree s.freq = some t → exec .compress s = .next
      { s with
        tree := some t, nodes := t.size, treeValid := true, treeSrc := .built, codesValid := false
        phase := .compress .gencodes }) ∧
    (∀ t, s.phase = .compress .gencodes → s.tree = some t → t.TableSymbols → exec .compress s = .next
      { s with
        len := Vector.ofFn fun y => BitVec.ofNat 9 (t.codeOf y).length
        code := Vector.ofFn fun y => t.codeOf y
        codesValid := true, phase := .compress (.serialize .start) }) ∧
    (∀ y : Sym, s.phase = .compress (.serialize (.sym y [])) → exec .compress s = .next
      { s with
        outCur := s.outCur ++ bitsOf 9 y.toNat, outLen := s.outLen + 9#32, phase := .compress (.encode .reset) }) ∧
    (∀ (j : Nat) (b : Bool), s.phase = .compress (.encode (.emit sentinelEntry j)) →
      s.code[sentinelEntry][j]? = some b → s.len[sentinelEntry].toNat ≤ j + 1 → exec .compress s = .next
      { s with outCur := s.outCur ++ [b], outLen := s.outLen + 1#32, phase := .compress .close }) ∧
    (s.phase = .compress .close → exec .compress s = .next
      { s with
        delivered := s.delivered ++ [closedBytes s.outCur], outCur := [], outLen := 0#32
        phase := .ended .compress })

/-- R186, R105, R133: COMPRESS of the bytes `xs` delivers magic, header and payload, padded; at its end FREQ is the count of
`xs`, the tree and the code table are those of FREQ, all three are valid, and the status is 0. -/
def Obligations.CompressDeliversTheArtifact : Prop :=
  ∀ (s : State) (xs : List Byte) (tail : Bits), Quiet s → s.params.wf = true → s.phase = .compress .clear →
    s.errCode = .none → s.inBits = unpackBytes xs ++ tail → tail.length < 8 →
    xs.length ≤ 2 ^ s.params.countW - 2 → s.outCur = [] →
    ∃ t, buildTree (freqOf xs) = some t ∧
      RunsTo s
        { s with
          freq := freqOf xs, total := xs.length, tree := some t, nodes := t.size
          len := (codeTable t).len, code := (codeTable t).code
          freqValid := true, treeValid := true, treeSrc := .built, codesValid := true
          inCur := 8 * xs.length, inPos := BitVec.ofNat 32 (8 * xs.length)
          outCur := [], outLen := 0#32
          delivered := s.delivered ++ [closedBytes (artifactBits s.params t xs)]
          phase := .idle, done := true }

/-- R113: the artifact's length A before padding is `32 + (11L - 1) + sum FREQ[s] * LEN[s] + LEN[256]`, and `ceil(A / 8)`
bytes after. -/
def Obligations.ArtifactLength : Prop :=
  ∀ (p : Params) (xs : List Byte) (t : HuffTree), buildTree (freqOf xs) = some t →
    (artifactBits p t xs).length =
      32 + (11 * t.leaves.length - 1) +
        ((List.range 256).map fun y =>
          (freqOf xs).toList.getD y 0 * ((codeTable t).len.toList.getD y 0#9).toNat).sum +
        (codeTable t).len[sentinelEntry].toNat ∧
    (closedBytes (artifactBits p t xs)).length = ((artifactBits p t xs).length + 7) / 8

/-- R206, R208, R234: DECOMPRESS clears the flags and rewinds; from the beginning of its DESERIALIZE the header of any tree
of at most NODE_CAP nodes, whatever its symbols (R168), leads to the beginning of DECODE with that tree of weights 0 stored
and valid, by way of DESERIALIZE's last assignments, which are one step (log 11); its last transaction closes the output,
whether an error was recorded or not, and the completion is next (log 11). (The end of CHECK_MAGIC leads to DESERIALIZE:
CheckMagicAcceptsTheMagic. The end of DECODE leads to the close: SentinelLeafCompletesDecode.) -/
def Obligations.DecompressRunsItsBodiesInOrder : Prop :=
  ∀ s : State,
    (s.phase = .decompress .clear → exec .decompress s = .next
      { s with freqValid := false, treeValid := false, codesValid := false, phase := .decompress .rewind }) ∧
    (s.phase = .decompress .rewind → exec .decompress s = .next
      { s with inCur := 0, inPos := 0#32, phase := .decompress .check }) ∧
    (∀ (t : HuffTree) (rest : Bits), Quiet s → s.phase = .decompress (.deserialize .start) →
      s.inputRest = t.header ++ rest → t.size ≤ s.params.nodeCap → RunsTo s
      { s with
        inCur := s.inCur + t.header.length, inPos := s.inPos + BitVec.ofNat 32 t.header.length
        nodes := t.size, tree := some t.eraseWeights, treeValid := true, treeSrc := .read, codesValid := false
        phase := .decompress (.decode .atRoot) }) ∧
    (∀ t : HuffTree, s.phase = .decompress (.deserialize (.store t)) → exec .decompress s = .next
      { s with tree := some t, treeValid := true, treeSrc := .read, phase := .decompress (.decode .atRoot) }) ∧
    (s.phase = .decompress .close → exec .decompress s = .next
      { s with
        delivered := s.delivered ++ [closedBytes s.outCur], outCur := [], outLen := 0#32
        phase := .ended .decompress })

/-- R188: the round trip. COMPRESS of `xs` delivers an artifact `a`; a core with the same parameters that DECOMPRESSes a
stream holding `a`, whatever follows it, ends with status 0 and delivers exactly `xs`. -/
def Obligations.DecompressUndoesCompress : Prop :=
  ∀ (s : State) (xs : List Byte), Quiet s → s.params.wf = true → s.phase = .compress .clear → s.errCode = .none →
    s.inBits = unpackBytes xs → xs.length ≤ 2 ^ s.params.countW - 2 → s.outCur = [] →
    ∃ (t : State) (a : List Byte), RunsTo s t ∧ t.phase = .idle ∧ t.errCode = .none ∧ t.done = true ∧
      t.delivered = s.delivered ++ [a] ∧
      ∀ (u : State) (rest : Bits), Quiet u → u.params = s.params → u.phase = .decompress .clear → u.errCode = .none →
        u.inBits = unpackBytes a ++ rest → u.outCur = [] →
        ∃ v : State, RunsTo u v ∧ v.phase = .idle ∧ v.errCode = .none ∧ v.done = true ∧
          v.delivered = u.delivered ++ [xs]

/-- R209(b): a stream of at least 32 bits whose first 32 differ from MAGIC: DECOMPRESS ends with BAD_MAGIC having read
exactly those bits, and closes the output. The number of steps rests on log 11. -/
def Obligations.ForeignMagicIsRejected : Prop :=
  ∀ (s : State) (v : Word) (rest : Bits), Quiet s → s.phase = .decompress .clear →
    s.inBits = bitsOf 32 v.toNat ++ rest → v ≠ s.params.magic →
    RunsIn 5 s
      { s with
        freqValid := false, treeValid := false, codesValid := false, inCur := 32, inPos := 32#32, errPos := 32#32
        errCode := .badMagic, delivered := s.delivered ++ [closedBytes s.outCur], outCur := [], outLen := 0#32
        phase := .idle, done := true }

/-- R209(a): any cut of an artifact's bits before the last bit of the sentinel's code makes DECOMPRESS end with
TRUNC_HEADER (cut within the magic or the header) or TRUNC_PAYLOAD (cut within the payload), the output closed. -/
def Obligations.TruncationIsDetected : Prop :=
  ∀ (s : State) (xs : List Byte) (t : HuffTree) (n : Nat), Quiet s → s.params.wf = true →
    s.phase = .decompress .clear → buildTree (freqOf xs) = some t → n < (artifactBits s.params t xs).length →
    s.inBits = (artifactBits s.params t xs).take n →
    ∃ u : State, RunsTo s u ∧ u.phase = .idle ∧ u.done = true ∧
      u.errCode = (if n < 32 + t.header.length then .truncHeader else .truncPayload) ∧
      u.outCur = [] ∧ u.delivered.length = s.delivered.length + 1

/-! ## The whole machine -/

/-- Which commands may change what, in any step (R33, R38, R46, R47, R49, R235): no command changes the parameters, CTRL,
IDX, the attached input, the agenda or what the host read; only COUNT writes FREQ and TOTAL; only BUILD and DESERIALIZE
the tree store, NODES and TREE_SRC; only GENCODES the code table; only the output commands the output; only CLOSE
delivers; CMD changes only while idle, and CMD_DROPPED only when another command runs; the composites run these bodies. -/
def Obligations.EachCommandKeepsTheRest : Prop :=
  ∀ (i : Instr) (s t : State), exec i s = .next t →
    t.params = s.params ∧ t.ie = s.ie ∧ t.idxSym = s.idxSym ∧ t.idxWord = s.idxWord ∧ t.inBits = s.inBits ∧
    t.inAnswers = s.inAnswers ∧ t.agenda = s.agenda ∧ t.hostData = s.hostData ∧
    (i ≠ .count → i ≠ .compress → t.freq = s.freq ∧ t.total = s.total) ∧
    (i ≠ .count → i ≠ .compress → i ≠ .decompress → t.freqValid = s.freqValid) ∧
    (i ≠ .build → i ≠ .deserialize → i ≠ .compress → i ≠ .decompress →
      t.tree = s.tree ∧ t.nodes = s.nodes ∧ t.treeSrc = s.treeSrc ∧ (i ≠ .count → t.treeValid = s.treeValid)) ∧
    (i ≠ .gencodes → i ≠ .compress → t.len = s.len ∧ t.code = s.code) ∧
    (i ∈ [.count, .build, .gencodes, .deserialize, .checkMagic, .rewind] →
      t.outCur = s.outCur ∧ t.outLen = s.outLen) ∧
    (i ≠ .close → i ≠ .compress → i ≠ .decompress → t.delivered = s.delivered) ∧
    (i ∈ [.build, .gencodes, .serialize, .writeMagic, .close] → t.inCur = s.inCur ∧ t.inPos = s.inPos) ∧
    (i ∈ [.serialize, .writeMagic, .encode, .checkMagic, .decode, .rewind, .close] → t.codesValid = s.codesValid) ∧
    (s.phase ≠ .idle → t.cmd = s.cmd) ∧
    (s.phase = .idle ∨ s.phase.running = some i → t.cmdDropped = s.cmdDropped)

/-- R237, R231: the error of a running command and the validity flags it leaves. -/
def Obligations.FlagsAfterAnError : Prop :=
  ∀ (i : Instr) (s t : State), Inv s → s.phase.running = some i → exec i s = .next t → s.errCode = .none →
    (t.errCode = .none ∨ t.errCode = .badMagic ∨ t.errCode = .truncHeader ∨ t.errCode = .truncPayload ∨
      t.errCode = .headerOverflow ∨ t.errCode = .countOverflow ∨ t.errCode = .noCode) ∧
    (t.errCode ≠ .none → t.errPos = t.inPos) ∧
    (t.errCode = .countOverflow → t.freqValid = false ∧ t.treeValid = false ∧ t.codesValid = false) ∧
    (i = .deserialize → t.errCode ≠ .none → t.treeValid = false) ∧
    (t.errCode = .truncPayload → t.treeValid = true ∧ (i = .decompress → t.treeSrc = .read)) ∧
    (i = .decompress → t.errCode = .badMagic ∨ t.errCode = .truncHeader ∨ t.errCode = .headerOverflow →
      t.freqValid = false ∧ t.treeValid = false ∧ t.codesValid = false) ∧
    (t.errCode = .noCode →
      t.freqValid = s.freqValid ∧ t.treeValid = s.treeValid ∧ t.treeSrc = s.treeSrc ∧ t.codesValid = s.codesValid)

/-- The invariant of Safety.lean holds right after reset, for every legal value of the parameters. It rests on the
model's choice of what the tables and the streams hold at reset (log 5, log 6). -/
def Obligations.InvariantHoldsAtReset : Prop :=
  ∀ p : Params, p.wf = true → Inv (State.resetWith p)

/-- Every step of every agent keeps the invariant of Safety.lean: the counters stay inside their widths (R131, R38), FREQ
sums to TOTAL (R133), the validity flags follow the chain FREQ, tree, code table and mean what they say (R30 to R33), DONE
is 0 while BUSY, and each body of a command has its precondition (R186). For the reset turn it rests on the model's
choice of what the tables then hold (log 7). -/
def Obligations.EveryStepKeepsTheInvariant : Prop :=
  ∀ s t : State, Inv s → step s = .next t → Inv t

/-- From a state with the invariant no step faults (the faults are the model's, log 14): the only stops are the refusals
the spec asks for (R79, R266; log 15). -/
def Obligations.NoFaultFromTheInvariant : Prop :=
  ∀ s : State, Inv s → (∃ t, step s = .next t) ∨
    (∃ off bytes v ts, (bytes ≠ 4 ∨ off % 4 ≠ 0 ∨ 0x40 ≤ off) ∧ step s = .refused (.hostAccess off bytes) ∧
      (s.agenda = .read off bytes :: ts ∨ s.agenda = .write off bytes v :: ts)) ∨
    (s.phase ≠ .idle ∧ step s = .refused .attachWhileBusy ∧
      ∃ bits prior ts, s.agenda = .attachIn bits :: ts ∨ s.agenda = .attachOut prior :: ts)

/-- R271: when reads are answered and no other agent acts, every running command ends. -/
def Obligations.EveryCommandTerminates : Prop :=
  ∀ s : State, Inv s → Quiet s → s.phase ≠ .idle → ∃ t, RunsTo s t ∧ t.phase = .idle ∧ t.done = true

/-- R242, R11: at the end of its pseudocode a command completes: the phase becomes IDLE (BUSY 0, R45), DONE 1, and nothing
else changes, ERRCODE among it. That this is a step of its own after a port transaction is log 11. -/
def Obligations.EndedCommandCompletes : Prop :=
  ∀ (i : Instr) (s : State), s.phase = .ended i → exec i s = .next { s with phase := .idle, done := true }
end

