-- ==== Sys2Proof/Laws/Bits.lean ====
section
/-!
SUPPORT. Bit strings, numbers and bytes: lengths, and that each conversion undoes the other (R13, R74).
-/
namespace Sys2Proof.Machine

@[simp] theorem bitsOf_length (n v : Nat) : (bitsOf n v).length = n := by
  induction n with
  | zero => rfl
  | succ n ih => simp [bitsOf, ih]

/-- Starting the fold of `bitsToNat` from `v` shifts `v` past the bits that follow. -/
theorem bitsToNat_foldl (bs : Bits) (v : Nat) :
    bs.foldl (fun v b => 2 * v + b.toNat) v = v * 2 ^ bs.length + bitsToNat bs := by
  induction bs generalizing v with
  | nil => simp [bitsToNat]
  | cons b bs ih =>
    simp only [bitsToNat, List.foldl_cons, List.length_cons]
    rw [ih, ih (2 * 0 + b.toNat)]
    ring

@[simp] theorem bitsToNat_nil : bitsToNat [] = 0 := rfl

theorem bitsToNat_cons (b : Bool) (bs : Bits) :
    bitsToNat (b :: bs) = b.toNat * 2 ^ bs.length + bitsToNat bs := by
  have h := bitsToNat_foldl bs (2 * 0 + b.toNat)
  simpa [bitsToNat] using h

theorem bitsToNat_lt (bs : Bits) : bitsToNat bs < 2 ^ bs.length := by
  induction bs with
  | nil => simp
  | cons b bs ih =>
    rw [bitsToNat_cons, List.length_cons, pow_succ]
    have : b.toNat ≤ 1 := Bool.toNat_le b
    nlinarith [Nat.mul_le_mul_right (2 ^ bs.length) this]

/-- Reading back the n low bits of a number gives it modulo `2^n`. -/
theorem bitsToNat_bitsOf (n v : Nat) : bitsToNat (bitsOf n v) = v % 2 ^ n := by
  induction n with
  | zero => simp [bitsOf, Nat.mod_one]
  | succ n ih =>
    rw [bitsOf, bitsToNat_cons, ih, bitsOf_length, pow_succ, Nat.mod_mul, Nat.add_comm]
    congr 1
    rw [Nat.testBit_eq_decide_div_mod_eq, Nat.mul_comm]
    rcases Nat.mod_two_eq_zero_or_one (v / 2 ^ n) with h | h <;> simp [h]

theorem bitsOf_congr {n v v' : Nat} (h : v % 2 ^ n = v' % 2 ^ n) : bitsOf n v = bitsOf n v' := by
  induction n with
  | zero => rfl
  | succ n ih =>
    have h1 : v.testBit n = v'.testBit n := by
      have := congrArg (fun x => x.testBit n) h
      simpa [Nat.testBit_mod_two_pow] using this
    have h2 : v % 2 ^ n = v' % 2 ^ n := by
      have := congrArg (· % 2 ^ n) h
      simpa [Nat.mod_mod_of_dvd, pow_succ] using this
    rw [bitsOf, bitsOf, h1, ih h2]

/-- Writing a number's bits and reading the number of a bit string undo each other. -/
theorem bitsOf_bitsToNat (bs : Bits) : bitsOf bs.length (bitsToNat bs) = bs := by
  induction bs with
  | nil => rfl
  | cons b bs ih =>
    have hlt := bitsToNat_lt bs
    rw [List.length_cons, bitsOf]
    congr 1
    · rw [bitsToNat_cons]
      cases b
      · simpa using Nat.testBit_lt_two_pow hlt
      · simpa using Nat.testBit_two_pow_add_eq (bitsToNat bs) bs.length ▸ by
          simp [Nat.testBit_lt_two_pow hlt]
    · rw [bitsOf_congr (v' := bitsToNat bs) (by rw [bitsToNat_cons]; simp), ih]

@[simp] theorem bitsOf_one (v : Nat) : bitsOf 1 v = [v.testBit 0] := rfl

/-- Bit `n - 1 - j` of the number of an n-bit string is its bit j (R13). -/
theorem bitsToNat_testBit (bs : Bits) (j : Nat) (h : j < bs.length) :
    (bitsToNat bs).testBit (bs.length - 1 - j) = bs[j] := by
  induction bs generalizing j with
  | nil => simp at h
  | cons b bs ih =>
    rw [bitsToNat_cons]
    have hl := bitsToNat_lt bs
    cases j with
    | zero =>
      simp
      cases b
      · simpa using Nat.testBit_lt_two_pow hl
      · simpa using Nat.testBit_two_pow_add_eq (bitsToNat bs) bs.length ▸ by simp [Nat.testBit_lt_two_pow hl]
    | succ j =>
      have hj : j < bs.length := by simpa using h
      have e : (b :: bs).length - 1 - (j+1) = bs.length - 1 - j := by simp; omega
      rw [e]
      simp only [List.getElem_cons_succ]
      rw [← ih j hj]
      cases b
      · simp
      · simp
        exact Nat.testBit_two_pow_add_gt (by omega) _

/-! ### Bytes -/

@[simp] theorem unpackBytes_nil : unpackBytes [] = [] := rfl

@[simp] theorem unpackBytes_cons (b : Byte) (bs : List Byte) :
    unpackBytes (b :: bs) = bitsOf 8 b.toNat ++ unpackBytes bs := rfl

theorem unpackBytes_append (xs ys : List Byte) :
    unpackBytes (xs ++ ys) = unpackBytes xs ++ unpackBytes ys := by
  simp [unpackBytes]

@[simp] theorem unpackBytes_length (bs : List Byte) : (unpackBytes bs).length = 8 * bs.length := by
  induction bs with
  | nil => rfl
  | cons b bs ih => simp [ih]; ring

/-- Packing eight bits and more takes the first eight as one byte (R74). -/
theorem packBytes_append (a bs : Bits) (h : a.length = 8) :
    packBytes (a ++ bs) = BitVec.ofNat 8 (bitsToNat a) :: packBytes bs := by
  match a, h with
  | [b7, b6, b5, b4, b3, b2, b1, b0], _ => rfl

/-- Packing undoes unpacking (R74). -/
theorem packBytes_unpackBytes (bs : List Byte) : packBytes (unpackBytes bs) = bs := by
  induction bs with
  | nil => rfl
  | cons b bs ih =>
    rw [unpackBytes_cons, packBytes_append _ _ (bitsOf_length 8 _), ih, bitsToNat_bitsOf]
    congr 1
    apply BitVec.eq_of_toNat_eq
    have := b.isLt
    simp
    omega

/-- Unpacking undoes packing on whole bytes (R74). -/
theorem unpackBytes_packBytes (n : Nat) (bs : Bits) (h : bs.length = 8 * n) :
    unpackBytes (packBytes bs) = bs := by
  induction n generalizing bs with
  | zero => simp_all [packBytes]
  | succ n ih =>
    have hl : (bs.take 8).length = 8 := by simp; omega
    conv_rhs => rw [← List.take_append_drop 8 bs]
    conv_lhs => rw [← List.take_append_drop 8 bs]
    rw [packBytes_append _ _ hl, unpackBytes_cons, ih (bs.drop 8) (by simp; omega)]
    congr 1
    rw [BitVec.toNat_ofNat, ← bitsOf_congr (v := bitsToNat (bs.take 8)) (by simp)]
    have h8 := bitsOf_bitsToNat (bs.take 8)
    rwa [hl] at h8

/-- The padding completes the final byte (R78). -/
theorem length_add_padLength (n : Nat) : (n + padLength n) % 8 = 0 := by
  unfold padLength; omega

/-- At most seven padding bits (R78). -/
theorem padLength_le (n : Nat) : padLength n ≤ 7 := by
  unfold padLength; omega

end Sys2Proof.Machine
end

