-- ==== Sys2Proof/Laws/State.lean ====
section
/-!
SUPPORT. One lemma per field per update of State, each true by rfl, so that no later proof unfolds a record update.
-/
namespace Sys2Proof.Machine

/-! ### inReset -/

@[simp] theorem inReset_cmd (s : State) : (inReset s).cmd = s.cmd := rfl
@[simp] theorem inReset_done (s : State) : (inReset s).done = s.done := rfl
@[simp] theorem inReset_cmdDropped (s : State) : (inReset s).cmdDropped = s.cmdDropped := rfl
@[simp] theorem inReset_errCode (s : State) : (inReset s).errCode = s.errCode := rfl
@[simp] theorem inReset_freqValid (s : State) : (inReset s).freqValid = s.freqValid := rfl
@[simp] theorem inReset_treeValid (s : State) : (inReset s).treeValid = s.treeValid := rfl
@[simp] theorem inReset_treeSrc (s : State) : (inReset s).treeSrc = s.treeSrc := rfl
@[simp] theorem inReset_codesValid (s : State) : (inReset s).codesValid = s.codesValid := rfl
@[simp] theorem inReset_ie (s : State) : (inReset s).ie = s.ie := rfl
@[simp] theorem inReset_total (s : State) : (inReset s).total = s.total := rfl
@[simp] theorem inReset_inPos (s : State) : (inReset s).inPos = 0#32 := rfl
@[simp] theorem inReset_outLen (s : State) : (inReset s).outLen = s.outLen := rfl
@[simp] theorem inReset_nodes (s : State) : (inReset s).nodes = s.nodes := rfl
@[simp] theorem inReset_errPos (s : State) : (inReset s).errPos = s.errPos := rfl
@[simp] theorem inReset_idxSym (s : State) : (inReset s).idxSym = s.idxSym := rfl
@[simp] theorem inReset_idxWord (s : State) : (inReset s).idxWord = s.idxWord := rfl
@[simp] theorem inReset_params (s : State) : (inReset s).params = s.params := rfl
@[simp] theorem inReset_phase (s : State) : (inReset s).phase = s.phase := rfl
@[simp] theorem inReset_freq (s : State) : (inReset s).freq = s.freq := rfl
@[simp] theorem inReset_tree (s : State) : (inReset s).tree = s.tree := rfl
@[simp] theorem inReset_len (s : State) : (inReset s).len = s.len := rfl
@[simp] theorem inReset_code (s : State) : (inReset s).code = s.code := rfl
@[simp] theorem inReset_inBits (s : State) : (inReset s).inBits = s.inBits := rfl
@[simp] theorem inReset_inCur (s : State) : (inReset s).inCur = 0 := rfl
@[simp] theorem inReset_inAnswers (s : State) : (inReset s).inAnswers = s.inAnswers := rfl
@[simp] theorem inReset_outCur (s : State) : (inReset s).outCur = s.outCur := rfl
@[simp] theorem inReset_delivered (s : State) : (inReset s).delivered = s.delivered := rfl
@[simp] theorem inReset_agenda (s : State) : (inReset s).agenda = s.agenda := rfl
@[simp] theorem inReset_hostData (s : State) : (inReset s).hostData = s.hostData := rfl

/-! ### outWrite -/

@[simp] theorem outWrite_cmd (n : Nat) (v : Word) (s : State) : (outWrite n v s).cmd = s.cmd := rfl
@[simp] theorem outWrite_done (n : Nat) (v : Word) (s : State) : (outWrite n v s).done = s.done := rfl
@[simp] theorem outWrite_cmdDropped (n : Nat) (v : Word) (s : State) : (outWrite n v s).cmdDropped = s.cmdDropped := rfl
@[simp] theorem outWrite_errCode (n : Nat) (v : Word) (s : State) : (outWrite n v s).errCode = s.errCode := rfl
@[simp] theorem outWrite_freqValid (n : Nat) (v : Word) (s : State) : (outWrite n v s).freqValid = s.freqValid := rfl
@[simp] theorem outWrite_treeValid (n : Nat) (v : Word) (s : State) : (outWrite n v s).treeValid = s.treeValid := rfl
@[simp] theorem outWrite_treeSrc (n : Nat) (v : Word) (s : State) : (outWrite n v s).treeSrc = s.treeSrc := rfl
@[simp] theorem outWrite_codesValid (n : Nat) (v : Word) (s : State) : (outWrite n v s).codesValid = s.codesValid := rfl
@[simp] theorem outWrite_ie (n : Nat) (v : Word) (s : State) : (outWrite n v s).ie = s.ie := rfl
@[simp] theorem outWrite_total (n : Nat) (v : Word) (s : State) : (outWrite n v s).total = s.total := rfl
@[simp] theorem outWrite_inPos (n : Nat) (v : Word) (s : State) : (outWrite n v s).inPos = s.inPos := rfl
@[simp] theorem outWrite_outLen (n : Nat) (v : Word) (s : State) : (outWrite n v s).outLen = s.outLen + BitVec.ofNat 32 n := rfl
@[simp] theorem outWrite_nodes (n : Nat) (v : Word) (s : State) : (outWrite n v s).nodes = s.nodes := rfl
@[simp] theorem outWrite_errPos (n : Nat) (v : Word) (s : State) : (outWrite n v s).errPos = s.errPos := rfl
@[simp] theorem outWrite_idxSym (n : Nat) (v : Word) (s : State) : (outWrite n v s).idxSym = s.idxSym := rfl
@[simp] theorem outWrite_idxWord (n : Nat) (v : Word) (s : State) : (outWrite n v s).idxWord = s.idxWord := rfl
@[simp] theorem outWrite_params (n : Nat) (v : Word) (s : State) : (outWrite n v s).params = s.params := rfl
@[simp] theorem outWrite_phase (n : Nat) (v : Word) (s : State) : (outWrite n v s).phase = s.phase := rfl
@[simp] theorem outWrite_freq (n : Nat) (v : Word) (s : State) : (outWrite n v s).freq = s.freq := rfl
@[simp] theorem outWrite_tree (n : Nat) (v : Word) (s : State) : (outWrite n v s).tree = s.tree := rfl
@[simp] theorem outWrite_len (n : Nat) (v : Word) (s : State) : (outWrite n v s).len = s.len := rfl
@[simp] theorem outWrite_code (n : Nat) (v : Word) (s : State) : (outWrite n v s).code = s.code := rfl
@[simp] theorem outWrite_inBits (n : Nat) (v : Word) (s : State) : (outWrite n v s).inBits = s.inBits := rfl
@[simp] theorem outWrite_inCur (n : Nat) (v : Word) (s : State) : (outWrite n v s).inCur = s.inCur := rfl
@[simp] theorem outWrite_inAnswers (n : Nat) (v : Word) (s : State) : (outWrite n v s).inAnswers = s.inAnswers := rfl
@[simp] theorem outWrite_outCur (n : Nat) (v : Word) (s : State) : (outWrite n v s).outCur = s.outCur ++ bitsOf n v.toNat := rfl
@[simp] theorem outWrite_delivered (n : Nat) (v : Word) (s : State) : (outWrite n v s).delivered = s.delivered := rfl
@[simp] theorem outWrite_agenda (n : Nat) (v : Word) (s : State) : (outWrite n v s).agenda = s.agenda := rfl
@[simp] theorem outWrite_hostData (n : Nat) (v : Word) (s : State) : (outWrite n v s).hostData = s.hostData := rfl

/-! ### outClose -/

@[simp] theorem outClose_cmd (s : State) : (outClose s).cmd = s.cmd := rfl
@[simp] theorem outClose_done (s : State) : (outClose s).done = s.done := rfl
@[simp] theorem outClose_cmdDropped (s : State) : (outClose s).cmdDropped = s.cmdDropped := rfl
@[simp] theorem outClose_errCode (s : State) : (outClose s).errCode = s.errCode := rfl
@[simp] theorem outClose_freqValid (s : State) : (outClose s).freqValid = s.freqValid := rfl
@[simp] theorem outClose_treeValid (s : State) : (outClose s).treeValid = s.treeValid := rfl
@[simp] theorem outClose_treeSrc (s : State) : (outClose s).treeSrc = s.treeSrc := rfl
@[simp] theorem outClose_codesValid (s : State) : (outClose s).codesValid = s.codesValid := rfl
@[simp] theorem outClose_ie (s : State) : (outClose s).ie = s.ie := rfl
@[simp] theorem outClose_total (s : State) : (outClose s).total = s.total := rfl
@[simp] theorem outClose_inPos (s : State) : (outClose s).inPos = s.inPos := rfl
@[simp] theorem outClose_outLen (s : State) : (outClose s).outLen = 0#32 := rfl
@[simp] theorem outClose_nodes (s : State) : (outClose s).nodes = s.nodes := rfl
@[simp] theorem outClose_errPos (s : State) : (outClose s).errPos = s.errPos := rfl
@[simp] theorem outClose_idxSym (s : State) : (outClose s).idxSym = s.idxSym := rfl
@[simp] theorem outClose_idxWord (s : State) : (outClose s).idxWord = s.idxWord := rfl
@[simp] theorem outClose_params (s : State) : (outClose s).params = s.params := rfl
@[simp] theorem outClose_phase (s : State) : (outClose s).phase = s.phase := rfl
@[simp] theorem outClose_freq (s : State) : (outClose s).freq = s.freq := rfl
@[simp] theorem outClose_tree (s : State) : (outClose s).tree = s.tree := rfl
@[simp] theorem outClose_len (s : State) : (outClose s).len = s.len := rfl
@[simp] theorem outClose_code (s : State) : (outClose s).code = s.code := rfl
@[simp] theorem outClose_inBits (s : State) : (outClose s).inBits = s.inBits := rfl
@[simp] theorem outClose_inCur (s : State) : (outClose s).inCur = s.inCur := rfl
@[simp] theorem outClose_inAnswers (s : State) : (outClose s).inAnswers = s.inAnswers := rfl
@[simp] theorem outClose_outCur (s : State) : (outClose s).outCur = [] := rfl
@[simp] theorem outClose_delivered (s : State) : (outClose s).delivered = s.delivered ++ [packBytes (s.outCur ++ List.replicate (padLength s.outCur.length) false)] := rfl
@[simp] theorem outClose_agenda (s : State) : (outClose s).agenda = s.agenda := rfl
@[simp] theorem outClose_hostData (s : State) : (outClose s).hostData = s.hostData := rfl

/-! ### recordError -/

@[simp] theorem recordError_cmd (e : ErrCode) (s : State) : (recordError e s).cmd = s.cmd := rfl
@[simp] theorem recordError_done (e : ErrCode) (s : State) : (recordError e s).done = s.done := rfl
@[simp] theorem recordError_cmdDropped (e : ErrCode) (s : State) : (recordError e s).cmdDropped = s.cmdDropped := rfl
@[simp] theorem recordError_errCode (e : ErrCode) (s : State) : (recordError e s).errCode = e := rfl
@[simp] theorem recordError_freqValid (e : ErrCode) (s : State) : (recordError e s).freqValid = s.freqValid := rfl
@[simp] theorem recordError_treeValid (e : ErrCode) (s : State) : (recordError e s).treeValid = s.treeValid := rfl
@[simp] theorem recordError_treeSrc (e : ErrCode) (s : State) : (recordError e s).treeSrc = s.treeSrc := rfl
@[simp] theorem recordError_codesValid (e : ErrCode) (s : State) : (recordError e s).codesValid = s.codesValid := rfl
@[simp] theorem recordError_ie (e : ErrCode) (s : State) : (recordError e s).ie = s.ie := rfl
@[simp] theorem recordError_total (e : ErrCode) (s : State) : (recordError e s).total = s.total := rfl
@[simp] theorem recordError_inPos (e : ErrCode) (s : State) : (recordError e s).inPos = s.inPos := rfl
@[simp] theorem recordError_outLen (e : ErrCode) (s : State) : (recordError e s).outLen = s.outLen := rfl
@[simp] theorem recordError_nodes (e : ErrCode) (s : State) : (recordError e s).nodes = s.nodes := rfl
@[simp] theorem recordError_errPos (e : ErrCode) (s : State) : (recordError e s).errPos = s.inPos := rfl
@[simp] theorem recordError_idxSym (e : ErrCode) (s : State) : (recordError e s).idxSym = s.idxSym := rfl
@[simp] theorem recordError_idxWord (e : ErrCode) (s : State) : (recordError e s).idxWord = s.idxWord := rfl
@[simp] theorem recordError_params (e : ErrCode) (s : State) : (recordError e s).params = s.params := rfl
@[simp] theorem recordError_phase (e : ErrCode) (s : State) : (recordError e s).phase = s.phase := rfl
@[simp] theorem recordError_freq (e : ErrCode) (s : State) : (recordError e s).freq = s.freq := rfl
@[simp] theorem recordError_tree (e : ErrCode) (s : State) : (recordError e s).tree = s.tree := rfl
@[simp] theorem recordError_len (e : ErrCode) (s : State) : (recordError e s).len = s.len := rfl
@[simp] theorem recordError_code (e : ErrCode) (s : State) : (recordError e s).code = s.code := rfl
@[simp] theorem recordError_inBits (e : ErrCode) (s : State) : (recordError e s).inBits = s.inBits := rfl
@[simp] theorem recordError_inCur (e : ErrCode) (s : State) : (recordError e s).inCur = s.inCur := rfl
@[simp] theorem recordError_inAnswers (e : ErrCode) (s : State) : (recordError e s).inAnswers = s.inAnswers := rfl
@[simp] theorem recordError_outCur (e : ErrCode) (s : State) : (recordError e s).outCur = s.outCur := rfl
@[simp] theorem recordError_delivered (e : ErrCode) (s : State) : (recordError e s).delivered = s.delivered := rfl
@[simp] theorem recordError_agenda (e : ErrCode) (s : State) : (recordError e s).agenda = s.agenda := rfl
@[simp] theorem recordError_hostData (e : ErrCode) (s : State) : (recordError e s).hostData = s.hostData := rfl

/-! ### finish -/

@[simp] theorem finish_cmd (s : State) : (finish s).cmd = s.cmd := rfl
@[simp] theorem finish_done (s : State) : (finish s).done = true := rfl
@[simp] theorem finish_cmdDropped (s : State) : (finish s).cmdDropped = s.cmdDropped := rfl
@[simp] theorem finish_errCode (s : State) : (finish s).errCode = s.errCode := rfl
@[simp] theorem finish_freqValid (s : State) : (finish s).freqValid = s.freqValid := rfl
@[simp] theorem finish_treeValid (s : State) : (finish s).treeValid = s.treeValid := rfl
@[simp] theorem finish_treeSrc (s : State) : (finish s).treeSrc = s.treeSrc := rfl
@[simp] theorem finish_codesValid (s : State) : (finish s).codesValid = s.codesValid := rfl
@[simp] theorem finish_ie (s : State) : (finish s).ie = s.ie := rfl
@[simp] theorem finish_total (s : State) : (finish s).total = s.total := rfl
@[simp] theorem finish_inPos (s : State) : (finish s).inPos = s.inPos := rfl
@[simp] theorem finish_outLen (s : State) : (finish s).outLen = s.outLen := rfl
@[simp] theorem finish_nodes (s : State) : (finish s).nodes = s.nodes := rfl
@[simp] theorem finish_errPos (s : State) : (finish s).errPos = s.errPos := rfl
@[simp] theorem finish_idxSym (s : State) : (finish s).idxSym = s.idxSym := rfl
@[simp] theorem finish_idxWord (s : State) : (finish s).idxWord = s.idxWord := rfl
@[simp] theorem finish_params (s : State) : (finish s).params = s.params := rfl
@[simp] theorem finish_phase (s : State) : (finish s).phase = .idle := rfl
@[simp] theorem finish_freq (s : State) : (finish s).freq = s.freq := rfl
@[simp] theorem finish_tree (s : State) : (finish s).tree = s.tree := rfl
@[simp] theorem finish_len (s : State) : (finish s).len = s.len := rfl
@[simp] theorem finish_code (s : State) : (finish s).code = s.code := rfl
@[simp] theorem finish_inBits (s : State) : (finish s).inBits = s.inBits := rfl
@[simp] theorem finish_inCur (s : State) : (finish s).inCur = s.inCur := rfl
@[simp] theorem finish_inAnswers (s : State) : (finish s).inAnswers = s.inAnswers := rfl
@[simp] theorem finish_outCur (s : State) : (finish s).outCur = s.outCur := rfl
@[simp] theorem finish_delivered (s : State) : (finish s).delivered = s.delivered := rfl
@[simp] theorem finish_agenda (s : State) : (finish s).agenda = s.agenda := rfl
@[simp] theorem finish_hostData (s : State) : (finish s).hostData = s.hostData := rfl

/-! ### latch -/

@[simp] theorem latch_cmd (w : Word) (s : State) : (latch w s).cmd = w := rfl
@[simp] theorem latch_done (w : Word) (s : State) : (latch w s).done = false := rfl
@[simp] theorem latch_cmdDropped (w : Word) (s : State) : (latch w s).cmdDropped = s.cmdDropped := rfl
@[simp] theorem latch_errCode (w : Word) (s : State) : (latch w s).errCode = .none := rfl
@[simp] theorem latch_freqValid (w : Word) (s : State) : (latch w s).freqValid = s.freqValid := rfl
@[simp] theorem latch_treeValid (w : Word) (s : State) : (latch w s).treeValid = s.treeValid := rfl
@[simp] theorem latch_treeSrc (w : Word) (s : State) : (latch w s).treeSrc = s.treeSrc := rfl
@[simp] theorem latch_codesValid (w : Word) (s : State) : (latch w s).codesValid = s.codesValid := rfl
@[simp] theorem latch_ie (w : Word) (s : State) : (latch w s).ie = s.ie := rfl
@[simp] theorem latch_total (w : Word) (s : State) : (latch w s).total = s.total := rfl
@[simp] theorem latch_inPos (w : Word) (s : State) : (latch w s).inPos = s.inPos := rfl
@[simp] theorem latch_outLen (w : Word) (s : State) : (latch w s).outLen = s.outLen := rfl
@[simp] theorem latch_nodes (w : Word) (s : State) : (latch w s).nodes = s.nodes := rfl
@[simp] theorem latch_errPos (w : Word) (s : State) : (latch w s).errPos = s.errPos := rfl
@[simp] theorem latch_idxSym (w : Word) (s : State) : (latch w s).idxSym = s.idxSym := rfl
@[simp] theorem latch_idxWord (w : Word) (s : State) : (latch w s).idxWord = s.idxWord := rfl
@[simp] theorem latch_params (w : Word) (s : State) : (latch w s).params = s.params := rfl
@[simp] theorem latch_phase (w : Word) (s : State) : (latch w s).phase = s.phase := rfl
@[simp] theorem latch_freq (w : Word) (s : State) : (latch w s).freq = s.freq := rfl
@[simp] theorem latch_tree (w : Word) (s : State) : (latch w s).tree = s.tree := rfl
@[simp] theorem latch_len (w : Word) (s : State) : (latch w s).len = s.len := rfl
@[simp] theorem latch_code (w : Word) (s : State) : (latch w s).code = s.code := rfl
@[simp] theorem latch_inBits (w : Word) (s : State) : (latch w s).inBits = s.inBits := rfl
@[simp] theorem latch_inCur (w : Word) (s : State) : (latch w s).inCur = s.inCur := rfl
@[simp] theorem latch_inAnswers (w : Word) (s : State) : (latch w s).inAnswers = s.inAnswers := rfl
@[simp] theorem latch_outCur (w : Word) (s : State) : (latch w s).outCur = s.outCur := rfl
@[simp] theorem latch_delivered (w : Word) (s : State) : (latch w s).delivered = s.delivered := rfl
@[simp] theorem latch_agenda (w : Word) (s : State) : (latch w s).agenda = s.agenda := rfl
@[simp] theorem latch_hostData (w : Word) (s : State) : (latch w s).hostData = s.hostData := rfl

/-! ### refuse -/

@[simp] theorem refuse_cmd (e : ErrCode) (s : State) : (refuse e s).cmd = s.cmd := rfl
@[simp] theorem refuse_done (e : ErrCode) (s : State) : (refuse e s).done = true := rfl
@[simp] theorem refuse_cmdDropped (e : ErrCode) (s : State) : (refuse e s).cmdDropped = s.cmdDropped := rfl
@[simp] theorem refuse_errCode (e : ErrCode) (s : State) : (refuse e s).errCode = e := rfl
@[simp] theorem refuse_freqValid (e : ErrCode) (s : State) : (refuse e s).freqValid = s.freqValid := rfl
@[simp] theorem refuse_treeValid (e : ErrCode) (s : State) : (refuse e s).treeValid = s.treeValid := rfl
@[simp] theorem refuse_treeSrc (e : ErrCode) (s : State) : (refuse e s).treeSrc = s.treeSrc := rfl
@[simp] theorem refuse_codesValid (e : ErrCode) (s : State) : (refuse e s).codesValid = s.codesValid := rfl
@[simp] theorem refuse_ie (e : ErrCode) (s : State) : (refuse e s).ie = s.ie := rfl
@[simp] theorem refuse_total (e : ErrCode) (s : State) : (refuse e s).total = s.total := rfl
@[simp] theorem refuse_inPos (e : ErrCode) (s : State) : (refuse e s).inPos = s.inPos := rfl
@[simp] theorem refuse_outLen (e : ErrCode) (s : State) : (refuse e s).outLen = s.outLen := rfl
@[simp] theorem refuse_nodes (e : ErrCode) (s : State) : (refuse e s).nodes = s.nodes := rfl
@[simp] theorem refuse_errPos (e : ErrCode) (s : State) : (refuse e s).errPos = s.inPos := rfl
@[simp] theorem refuse_idxSym (e : ErrCode) (s : State) : (refuse e s).idxSym = s.idxSym := rfl
@[simp] theorem refuse_idxWord (e : ErrCode) (s : State) : (refuse e s).idxWord = s.idxWord := rfl
@[simp] theorem refuse_params (e : ErrCode) (s : State) : (refuse e s).params = s.params := rfl
@[simp] theorem refuse_phase (e : ErrCode) (s : State) : (refuse e s).phase = s.phase := rfl
@[simp] theorem refuse_freq (e : ErrCode) (s : State) : (refuse e s).freq = s.freq := rfl
@[simp] theorem refuse_tree (e : ErrCode) (s : State) : (refuse e s).tree = s.tree := rfl
@[simp] theorem refuse_len (e : ErrCode) (s : State) : (refuse e s).len = s.len := rfl
@[simp] theorem refuse_code (e : ErrCode) (s : State) : (refuse e s).code = s.code := rfl
@[simp] theorem refuse_inBits (e : ErrCode) (s : State) : (refuse e s).inBits = s.inBits := rfl
@[simp] theorem refuse_inCur (e : ErrCode) (s : State) : (refuse e s).inCur = s.inCur := rfl
@[simp] theorem refuse_inAnswers (e : ErrCode) (s : State) : (refuse e s).inAnswers = s.inAnswers := rfl
@[simp] theorem refuse_outCur (e : ErrCode) (s : State) : (refuse e s).outCur = s.outCur := rfl
@[simp] theorem refuse_delivered (e : ErrCode) (s : State) : (refuse e s).delivered = s.delivered := rfl
@[simp] theorem refuse_agenda (e : ErrCode) (s : State) : (refuse e s).agenda = s.agenda := rfl
@[simp] theorem refuse_hostData (e : ErrCode) (s : State) : (refuse e s).hostData = s.hostData := rfl

/-! ### dropCommand -/

@[simp] theorem dropCommand_cmd (s : State) : (dropCommand s).cmd = s.cmd := rfl
@[simp] theorem dropCommand_done (s : State) : (dropCommand s).done = s.done := rfl
@[simp] theorem dropCommand_cmdDropped (s : State) : (dropCommand s).cmdDropped = true := rfl
@[simp] theorem dropCommand_errCode (s : State) : (dropCommand s).errCode = s.errCode := rfl
@[simp] theorem dropCommand_freqValid (s : State) : (dropCommand s).freqValid = s.freqValid := rfl
@[simp] theorem dropCommand_treeValid (s : State) : (dropCommand s).treeValid = s.treeValid := rfl
@[simp] theorem dropCommand_treeSrc (s : State) : (dropCommand s).treeSrc = s.treeSrc := rfl
@[simp] theorem dropCommand_codesValid (s : State) : (dropCommand s).codesValid = s.codesValid := rfl
@[simp] theorem dropCommand_ie (s : State) : (dropCommand s).ie = s.ie := rfl
@[simp] theorem dropCommand_total (s : State) : (dropCommand s).total = s.total := rfl
@[simp] theorem dropCommand_inPos (s : State) : (dropCommand s).inPos = s.inPos := rfl
@[simp] theorem dropCommand_outLen (s : State) : (dropCommand s).outLen = s.outLen := rfl
@[simp] theorem dropCommand_nodes (s : State) : (dropCommand s).nodes = s.nodes := rfl
@[simp] theorem dropCommand_errPos (s : State) : (dropCommand s).errPos = s.errPos := rfl
@[simp] theorem dropCommand_idxSym (s : State) : (dropCommand s).idxSym = s.idxSym := rfl
@[simp] theorem dropCommand_idxWord (s : State) : (dropCommand s).idxWord = s.idxWord := rfl
@[simp] theorem dropCommand_params (s : State) : (dropCommand s).params = s.params := rfl
@[simp] theorem dropCommand_phase (s : State) : (dropCommand s).phase = s.phase := rfl
@[simp] theorem dropCommand_freq (s : State) : (dropCommand s).freq = s.freq := rfl
@[simp] theorem dropCommand_tree (s : State) : (dropCommand s).tree = s.tree := rfl
@[simp] theorem dropCommand_len (s : State) : (dropCommand s).len = s.len := rfl
@[simp] theorem dropCommand_code (s : State) : (dropCommand s).code = s.code := rfl
@[simp] theorem dropCommand_inBits (s : State) : (dropCommand s).inBits = s.inBits := rfl
@[simp] theorem dropCommand_inCur (s : State) : (dropCommand s).inCur = s.inCur := rfl
@[simp] theorem dropCommand_inAnswers (s : State) : (dropCommand s).inAnswers = s.inAnswers := rfl
@[simp] theorem dropCommand_outCur (s : State) : (dropCommand s).outCur = s.outCur := rfl
@[simp] theorem dropCommand_delivered (s : State) : (dropCommand s).delivered = s.delivered := rfl
@[simp] theorem dropCommand_agenda (s : State) : (dropCommand s).agenda = s.agenda := rfl
@[simp] theorem dropCommand_hostData (s : State) : (dropCommand s).hostData = s.hostData := rfl

/-! ### invalidateFreq -/

@[simp] theorem invalidateFreq_cmd (s : State) : (s.invalidateFreq).cmd = s.cmd := rfl
@[simp] theorem invalidateFreq_done (s : State) : (s.invalidateFreq).done = s.done := rfl
@[simp] theorem invalidateFreq_cmdDropped (s : State) : (s.invalidateFreq).cmdDropped = s.cmdDropped := rfl
@[simp] theorem invalidateFreq_errCode (s : State) : (s.invalidateFreq).errCode = s.errCode := rfl
@[simp] theorem invalidateFreq_freqValid (s : State) : (s.invalidateFreq).freqValid = false := rfl
@[simp] theorem invalidateFreq_treeValid (s : State) : (s.invalidateFreq).treeValid = false := rfl
@[simp] theorem invalidateFreq_treeSrc (s : State) : (s.invalidateFreq).treeSrc = s.treeSrc := rfl
@[simp] theorem invalidateFreq_codesValid (s : State) : (s.invalidateFreq).codesValid = false := rfl
@[simp] theorem invalidateFreq_ie (s : State) : (s.invalidateFreq).ie = s.ie := rfl
@[simp] theorem invalidateFreq_total (s : State) : (s.invalidateFreq).total = s.total := rfl
@[simp] theorem invalidateFreq_inPos (s : State) : (s.invalidateFreq).inPos = s.inPos := rfl
@[simp] theorem invalidateFreq_outLen (s : State) : (s.invalidateFreq).outLen = s.outLen := rfl
@[simp] theorem invalidateFreq_nodes (s : State) : (s.invalidateFreq).nodes = s.nodes := rfl
@[simp] theorem invalidateFreq_errPos (s : State) : (s.invalidateFreq).errPos = s.errPos := rfl
@[simp] theorem invalidateFreq_idxSym (s : State) : (s.invalidateFreq).idxSym = s.idxSym := rfl
@[simp] theorem invalidateFreq_idxWord (s : State) : (s.invalidateFreq).idxWord = s.idxWord := rfl
@[simp] theorem invalidateFreq_params (s : State) : (s.invalidateFreq).params = s.params := rfl
@[simp] theorem invalidateFreq_phase (s : State) : (s.invalidateFreq).phase = s.phase := rfl
@[simp] theorem invalidateFreq_freq (s : State) : (s.invalidateFreq).freq = s.freq := rfl
@[simp] theorem invalidateFreq_tree (s : State) : (s.invalidateFreq).tree = s.tree := rfl
@[simp] theorem invalidateFreq_len (s : State) : (s.invalidateFreq).len = s.len := rfl
@[simp] theorem invalidateFreq_code (s : State) : (s.invalidateFreq).code = s.code := rfl
@[simp] theorem invalidateFreq_inBits (s : State) : (s.invalidateFreq).inBits = s.inBits := rfl
@[simp] theorem invalidateFreq_inCur (s : State) : (s.invalidateFreq).inCur = s.inCur := rfl
@[simp] theorem invalidateFreq_inAnswers (s : State) : (s.invalidateFreq).inAnswers = s.inAnswers := rfl
@[simp] theorem invalidateFreq_outCur (s : State) : (s.invalidateFreq).outCur = s.outCur := rfl
@[simp] theorem invalidateFreq_delivered (s : State) : (s.invalidateFreq).delivered = s.delivered := rfl
@[simp] theorem invalidateFreq_agenda (s : State) : (s.invalidateFreq).agenda = s.agenda := rfl
@[simp] theorem invalidateFreq_hostData (s : State) : (s.invalidateFreq).hostData = s.hostData := rfl

/-! ### invalidateTree -/

@[simp] theorem invalidateTree_cmd (s : State) : (s.invalidateTree).cmd = s.cmd := rfl
@[simp] theorem invalidateTree_done (s : State) : (s.invalidateTree).done = s.done := rfl
@[simp] theorem invalidateTree_cmdDropped (s : State) : (s.invalidateTree).cmdDropped = s.cmdDropped := rfl
@[simp] theorem invalidateTree_errCode (s : State) : (s.invalidateTree).errCode = s.errCode := rfl
@[simp] theorem invalidateTree_freqValid (s : State) : (s.invalidateTree).freqValid = s.freqValid := rfl
@[simp] theorem invalidateTree_treeValid (s : State) : (s.invalidateTree).treeValid = false := rfl
@[simp] theorem invalidateTree_treeSrc (s : State) : (s.invalidateTree).treeSrc = s.treeSrc := rfl
@[simp] theorem invalidateTree_codesValid (s : State) : (s.invalidateTree).codesValid = false := rfl
@[simp] theorem invalidateTree_ie (s : State) : (s.invalidateTree).ie = s.ie := rfl
@[simp] theorem invalidateTree_total (s : State) : (s.invalidateTree).total = s.total := rfl
@[simp] theorem invalidateTree_inPos (s : State) : (s.invalidateTree).inPos = s.inPos := rfl
@[simp] theorem invalidateTree_outLen (s : State) : (s.invalidateTree).outLen = s.outLen := rfl
@[simp] theorem invalidateTree_nodes (s : State) : (s.invalidateTree).nodes = s.nodes := rfl
@[simp] theorem invalidateTree_errPos (s : State) : (s.invalidateTree).errPos = s.errPos := rfl
@[simp] theorem invalidateTree_idxSym (s : State) : (s.invalidateTree).idxSym = s.idxSym := rfl
@[simp] theorem invalidateTree_idxWord (s : State) : (s.invalidateTree).idxWord = s.idxWord := rfl
@[simp] theorem invalidateTree_params (s : State) : (s.invalidateTree).params = s.params := rfl
@[simp] theorem invalidateTree_phase (s : State) : (s.invalidateTree).phase = s.phase := rfl
@[simp] theorem invalidateTree_freq (s : State) : (s.invalidateTree).freq = s.freq := rfl
@[simp] theorem invalidateTree_tree (s : State) : (s.invalidateTree).tree = s.tree := rfl
@[simp] theorem invalidateTree_len (s : State) : (s.invalidateTree).len = s.len := rfl
@[simp] theorem invalidateTree_code (s : State) : (s.invalidateTree).code = s.code := rfl
@[simp] theorem invalidateTree_inBits (s : State) : (s.invalidateTree).inBits = s.inBits := rfl
@[simp] theorem invalidateTree_inCur (s : State) : (s.invalidateTree).inCur = s.inCur := rfl
@[simp] theorem invalidateTree_inAnswers (s : State) : (s.invalidateTree).inAnswers = s.inAnswers := rfl
@[simp] theorem invalidateTree_outCur (s : State) : (s.invalidateTree).outCur = s.outCur := rfl
@[simp] theorem invalidateTree_delivered (s : State) : (s.invalidateTree).delivered = s.delivered := rfl
@[simp] theorem invalidateTree_agenda (s : State) : (s.invalidateTree).agenda = s.agenda := rfl
@[simp] theorem invalidateTree_hostData (s : State) : (s.invalidateTree).hostData = s.hostData := rfl

/-! ### invalidateCodes -/

@[simp] theorem invalidateCodes_cmd (s : State) : (s.invalidateCodes).cmd = s.cmd := rfl
@[simp] theorem invalidateCodes_done (s : State) : (s.invalidateCodes).done = s.done := rfl
@[simp] theorem invalidateCodes_cmdDropped (s : State) : (s.invalidateCodes).cmdDropped = s.cmdDropped := rfl
@[simp] theorem invalidateCodes_errCode (s : State) : (s.invalidateCodes).errCode = s.errCode := rfl
@[simp] theorem invalidateCodes_freqValid (s : State) : (s.invalidateCodes).freqValid = s.freqValid := rfl
@[simp] theorem invalidateCodes_treeValid (s : State) : (s.invalidateCodes).treeValid = s.treeValid := rfl
@[simp] theorem invalidateCodes_treeSrc (s : State) : (s.invalidateCodes).treeSrc = s.treeSrc := rfl
@[simp] theorem invalidateCodes_codesValid (s : State) : (s.invalidateCodes).codesValid = false := rfl
@[simp] theorem invalidateCodes_ie (s : State) : (s.invalidateCodes).ie = s.ie := rfl
@[simp] theorem invalidateCodes_total (s : State) : (s.invalidateCodes).total = s.total := rfl
@[simp] theorem invalidateCodes_inPos (s : State) : (s.invalidateCodes).inPos = s.inPos := rfl
@[simp] theorem invalidateCodes_outLen (s : State) : (s.invalidateCodes).outLen = s.outLen := rfl
@[simp] theorem invalidateCodes_nodes (s : State) : (s.invalidateCodes).nodes = s.nodes := rfl
@[simp] theorem invalidateCodes_errPos (s : State) : (s.invalidateCodes).errPos = s.errPos := rfl
@[simp] theorem invalidateCodes_idxSym (s : State) : (s.invalidateCodes).idxSym = s.idxSym := rfl
@[simp] theorem invalidateCodes_idxWord (s : State) : (s.invalidateCodes).idxWord = s.idxWord := rfl
@[simp] theorem invalidateCodes_params (s : State) : (s.invalidateCodes).params = s.params := rfl
@[simp] theorem invalidateCodes_phase (s : State) : (s.invalidateCodes).phase = s.phase := rfl
@[simp] theorem invalidateCodes_freq (s : State) : (s.invalidateCodes).freq = s.freq := rfl
@[simp] theorem invalidateCodes_tree (s : State) : (s.invalidateCodes).tree = s.tree := rfl
@[simp] theorem invalidateCodes_len (s : State) : (s.invalidateCodes).len = s.len := rfl
@[simp] theorem invalidateCodes_code (s : State) : (s.invalidateCodes).code = s.code := rfl
@[simp] theorem invalidateCodes_inBits (s : State) : (s.invalidateCodes).inBits = s.inBits := rfl
@[simp] theorem invalidateCodes_inCur (s : State) : (s.invalidateCodes).inCur = s.inCur := rfl
@[simp] theorem invalidateCodes_inAnswers (s : State) : (s.invalidateCodes).inAnswers = s.inAnswers := rfl
@[simp] theorem invalidateCodes_outCur (s : State) : (s.invalidateCodes).outCur = s.outCur := rfl
@[simp] theorem invalidateCodes_delivered (s : State) : (s.invalidateCodes).delivered = s.delivered := rfl
@[simp] theorem invalidateCodes_agenda (s : State) : (s.invalidateCodes).agenda = s.agenda := rfl
@[simp] theorem invalidateCodes_hostData (s : State) : (s.invalidateCodes).hostData = s.hostData := rfl

/-! ### countWord -/

@[simp] theorem countWord_cmd (r : Byte) (s : State) : (countWord r s).cmd = s.cmd := rfl
@[simp] theorem countWord_done (r : Byte) (s : State) : (countWord r s).done = s.done := rfl
@[simp] theorem countWord_cmdDropped (r : Byte) (s : State) : (countWord r s).cmdDropped = s.cmdDropped := rfl
@[simp] theorem countWord_errCode (r : Byte) (s : State) : (countWord r s).errCode = s.errCode := rfl
@[simp] theorem countWord_freqValid (r : Byte) (s : State) : (countWord r s).freqValid = s.freqValid := rfl
@[simp] theorem countWord_treeValid (r : Byte) (s : State) : (countWord r s).treeValid = s.treeValid := rfl
@[simp] theorem countWord_treeSrc (r : Byte) (s : State) : (countWord r s).treeSrc = s.treeSrc := rfl
@[simp] theorem countWord_codesValid (r : Byte) (s : State) : (countWord r s).codesValid = s.codesValid := rfl
@[simp] theorem countWord_ie (r : Byte) (s : State) : (countWord r s).ie = s.ie := rfl
@[simp] theorem countWord_total (r : Byte) (s : State) : (countWord r s).total = s.total + 1 := rfl
@[simp] theorem countWord_inPos (r : Byte) (s : State) : (countWord r s).inPos = s.inPos := rfl
@[simp] theorem countWord_outLen (r : Byte) (s : State) : (countWord r s).outLen = s.outLen := rfl
@[simp] theorem countWord_nodes (r : Byte) (s : State) : (countWord r s).nodes = s.nodes := rfl
@[simp] theorem countWord_errPos (r : Byte) (s : State) : (countWord r s).errPos = s.errPos := rfl
@[simp] theorem countWord_idxSym (r : Byte) (s : State) : (countWord r s).idxSym = s.idxSym := rfl
@[simp] theorem countWord_idxWord (r : Byte) (s : State) : (countWord r s).idxWord = s.idxWord := rfl
@[simp] theorem countWord_params (r : Byte) (s : State) : (countWord r s).params = s.params := rfl
@[simp] theorem countWord_phase (r : Byte) (s : State) : (countWord r s).phase = s.phase := rfl
@[simp] theorem countWord_freq (r : Byte) (s : State) : (countWord r s).freq = s.freq.set (byteEntry r) (s.freq[byteEntry r] + 1) := rfl
@[simp] theorem countWord_tree (r : Byte) (s : State) : (countWord r s).tree = s.tree := rfl
@[simp] theorem countWord_len (r : Byte) (s : State) : (countWord r s).len = s.len := rfl
@[simp] theorem countWord_code (r : Byte) (s : State) : (countWord r s).code = s.code := rfl
@[simp] theorem countWord_inBits (r : Byte) (s : State) : (countWord r s).inBits = s.inBits := rfl
@[simp] theorem countWord_inCur (r : Byte) (s : State) : (countWord r s).inCur = s.inCur := rfl
@[simp] theorem countWord_inAnswers (r : Byte) (s : State) : (countWord r s).inAnswers = s.inAnswers := rfl
@[simp] theorem countWord_outCur (r : Byte) (s : State) : (countWord r s).outCur = s.outCur := rfl
@[simp] theorem countWord_delivered (r : Byte) (s : State) : (countWord r s).delivered = s.delivered := rfl
@[simp] theorem countWord_agenda (r : Byte) (s : State) : (countWord r s).agenda = s.agenda := rfl
@[simp] theorem countWord_hostData (r : Byte) (s : State) : (countWord r s).hostData = s.hostData := rfl

/-! ### attachInput -/

@[simp] theorem attachInput_cmd (bits : Bits) (s : State) : (s.attachInput bits).cmd = s.cmd := rfl
@[simp] theorem attachInput_done (bits : Bits) (s : State) : (s.attachInput bits).done = s.done := rfl
@[simp] theorem attachInput_cmdDropped (bits : Bits) (s : State) : (s.attachInput bits).cmdDropped = s.cmdDropped := rfl
@[simp] theorem attachInput_errCode (bits : Bits) (s : State) : (s.attachInput bits).errCode = s.errCode := rfl
@[simp] theorem attachInput_freqValid (bits : Bits) (s : State) : (s.attachInput bits).freqValid = s.freqValid := rfl
@[simp] theorem attachInput_treeValid (bits : Bits) (s : State) : (s.attachInput bits).treeValid = s.treeValid := rfl
@[simp] theorem attachInput_treeSrc (bits : Bits) (s : State) : (s.attachInput bits).treeSrc = s.treeSrc := rfl
@[simp] theorem attachInput_codesValid (bits : Bits) (s : State) : (s.attachInput bits).codesValid = s.codesValid := rfl
@[simp] theorem attachInput_ie (bits : Bits) (s : State) : (s.attachInput bits).ie = s.ie := rfl
@[simp] theorem attachInput_total (bits : Bits) (s : State) : (s.attachInput bits).total = s.total := rfl
@[simp] theorem attachInput_inPos (bits : Bits) (s : State) : (s.attachInput bits).inPos = s.inPos := rfl
@[simp] theorem attachInput_outLen (bits : Bits) (s : State) : (s.attachInput bits).outLen = s.outLen := rfl
@[simp] theorem attachInput_nodes (bits : Bits) (s : State) : (s.attachInput bits).nodes = s.nodes := rfl
@[simp] theorem attachInput_errPos (bits : Bits) (s : State) : (s.attachInput bits).errPos = s.errPos := rfl
@[simp] theorem attachInput_idxSym (bits : Bits) (s : State) : (s.attachInput bits).idxSym = s.idxSym := rfl
@[simp] theorem attachInput_idxWord (bits : Bits) (s : State) : (s.attachInput bits).idxWord = s.idxWord := rfl
@[simp] theorem attachInput_params (bits : Bits) (s : State) : (s.attachInput bits).params = s.params := rfl
@[simp] theorem attachInput_phase (bits : Bits) (s : State) : (s.attachInput bits).phase = s.phase := rfl
@[simp] theorem attachInput_freq (bits : Bits) (s : State) : (s.attachInput bits).freq = s.freq := rfl
@[simp] theorem attachInput_tree (bits : Bits) (s : State) : (s.attachInput bits).tree = s.tree := rfl
@[simp] theorem attachInput_len (bits : Bits) (s : State) : (s.attachInput bits).len = s.len := rfl
@[simp] theorem attachInput_code (bits : Bits) (s : State) : (s.attachInput bits).code = s.code := rfl
@[simp] theorem attachInput_inBits (bits : Bits) (s : State) : (s.attachInput bits).inBits = bits := rfl
@[simp] theorem attachInput_inCur (bits : Bits) (s : State) : (s.attachInput bits).inCur = 0 := rfl
@[simp] theorem attachInput_inAnswers (bits : Bits) (s : State) : (s.attachInput bits).inAnswers = s.inAnswers := rfl
@[simp] theorem attachInput_outCur (bits : Bits) (s : State) : (s.attachInput bits).outCur = s.outCur := rfl
@[simp] theorem attachInput_delivered (bits : Bits) (s : State) : (s.attachInput bits).delivered = s.delivered := rfl
@[simp] theorem attachInput_agenda (bits : Bits) (s : State) : (s.attachInput bits).agenda = s.agenda := rfl
@[simp] theorem attachInput_hostData (bits : Bits) (s : State) : (s.attachInput bits).hostData = s.hostData := rfl

/-! ### attachOutput -/

@[simp] theorem attachOutput_cmd (prior : List (List Byte)) (s : State) : (s.attachOutput prior).cmd = s.cmd := rfl
@[simp] theorem attachOutput_done (prior : List (List Byte)) (s : State) : (s.attachOutput prior).done = s.done := rfl
@[simp] theorem attachOutput_cmdDropped (prior : List (List Byte)) (s : State) : (s.attachOutput prior).cmdDropped = s.cmdDropped := rfl
@[simp] theorem attachOutput_errCode (prior : List (List Byte)) (s : State) : (s.attachOutput prior).errCode = s.errCode := rfl
@[simp] theorem attachOutput_freqValid (prior : List (List Byte)) (s : State) : (s.attachOutput prior).freqValid = s.freqValid := rfl
@[simp] theorem attachOutput_treeValid (prior : List (List Byte)) (s : State) : (s.attachOutput prior).treeValid = s.treeValid := rfl
@[simp] theorem attachOutput_treeSrc (prior : List (List Byte)) (s : State) : (s.attachOutput prior).treeSrc = s.treeSrc := rfl
@[simp] theorem attachOutput_codesValid (prior : List (List Byte)) (s : State) : (s.attachOutput prior).codesValid = s.codesValid := rfl
@[simp] theorem attachOutput_ie (prior : List (List Byte)) (s : State) : (s.attachOutput prior).ie = s.ie := rfl
@[simp] theorem attachOutput_total (prior : List (List Byte)) (s : State) : (s.attachOutput prior).total = s.total := rfl
@[simp] theorem attachOutput_inPos (prior : List (List Byte)) (s : State) : (s.attachOutput prior).inPos = s.inPos := rfl
@[simp] theorem attachOutput_outLen (prior : List (List Byte)) (s : State) : (s.attachOutput prior).outLen = s.outLen := rfl
@[simp] theorem attachOutput_nodes (prior : List (List Byte)) (s : State) : (s.attachOutput prior).nodes = s.nodes := rfl
@[simp] theorem attachOutput_errPos (prior : List (List Byte)) (s : State) : (s.attachOutput prior).errPos = s.errPos := rfl
@[simp] theorem attachOutput_idxSym (prior : List (List Byte)) (s : State) : (s.attachOutput prior).idxSym = s.idxSym := rfl
@[simp] theorem attachOutput_idxWord (prior : List (List Byte)) (s : State) : (s.attachOutput prior).idxWord = s.idxWord := rfl
@[simp] theorem attachOutput_params (prior : List (List Byte)) (s : State) : (s.attachOutput prior).params = s.params := rfl
@[simp] theorem attachOutput_phase (prior : List (List Byte)) (s : State) : (s.attachOutput prior).phase = s.phase := rfl
@[simp] theorem attachOutput_freq (prior : List (List Byte)) (s : State) : (s.attachOutput prior).freq = s.freq := rfl
@[simp] theorem attachOutput_tree (prior : List (List Byte)) (s : State) : (s.attachOutput prior).tree = s.tree := rfl
@[simp] theorem attachOutput_len (prior : List (List Byte)) (s : State) : (s.attachOutput prior).len = s.len := rfl
@[simp] theorem attachOutput_code (prior : List (List Byte)) (s : State) : (s.attachOutput prior).code = s.code := rfl
@[simp] theorem attachOutput_inBits (prior : List (List Byte)) (s : State) : (s.attachOutput prior).inBits = s.inBits := rfl
@[simp] theorem attachOutput_inCur (prior : List (List Byte)) (s : State) : (s.attachOutput prior).inCur = s.inCur := rfl
@[simp] theorem attachOutput_inAnswers (prior : List (List Byte)) (s : State) : (s.attachOutput prior).inAnswers = s.inAnswers := rfl
@[simp] theorem attachOutput_outCur (prior : List (List Byte)) (s : State) : (s.attachOutput prior).outCur = [] := rfl
@[simp] theorem attachOutput_delivered (prior : List (List Byte)) (s : State) : (s.attachOutput prior).delivered = prior := rfl
@[simp] theorem attachOutput_agenda (prior : List (List Byte)) (s : State) : (s.attachOutput prior).agenda = s.agenda := rfl
@[simp] theorem attachOutput_hostData (prior : List (List Byte)) (s : State) : (s.attachOutput prior).hostData = s.hostData := rfl

/-! ### writeStatus -/

@[simp] theorem writeStatus_cmd (v : Word) (s : State) : (s.writeStatus v).cmd = s.cmd := rfl
@[simp] theorem writeStatus_done (v : Word) (s : State) : (s.writeStatus v).done = (s.done && !v.getLsbD 1) := rfl
@[simp] theorem writeStatus_cmdDropped (v : Word) (s : State) : (s.writeStatus v).cmdDropped = (s.cmdDropped && !v.getLsbD 3) := rfl
@[simp] theorem writeStatus_errCode (v : Word) (s : State) : (s.writeStatus v).errCode = s.errCode := rfl
@[simp] theorem writeStatus_freqValid (v : Word) (s : State) : (s.writeStatus v).freqValid = s.freqValid := rfl
@[simp] theorem writeStatus_treeValid (v : Word) (s : State) : (s.writeStatus v).treeValid = s.treeValid := rfl
@[simp] theorem writeStatus_treeSrc (v : Word) (s : State) : (s.writeStatus v).treeSrc = s.treeSrc := rfl
@[simp] theorem writeStatus_codesValid (v : Word) (s : State) : (s.writeStatus v).codesValid = s.codesValid := rfl
@[simp] theorem writeStatus_ie (v : Word) (s : State) : (s.writeStatus v).ie = s.ie := rfl
@[simp] theorem writeStatus_total (v : Word) (s : State) : (s.writeStatus v).total = s.total := rfl
@[simp] theorem writeStatus_inPos (v : Word) (s : State) : (s.writeStatus v).inPos = s.inPos := rfl
@[simp] theorem writeStatus_outLen (v : Word) (s : State) : (s.writeStatus v).outLen = s.outLen := rfl
@[simp] theorem writeStatus_nodes (v : Word) (s : State) : (s.writeStatus v).nodes = s.nodes := rfl
@[simp] theorem writeStatus_errPos (v : Word) (s : State) : (s.writeStatus v).errPos = s.errPos := rfl
@[simp] theorem writeStatus_idxSym (v : Word) (s : State) : (s.writeStatus v).idxSym = s.idxSym := rfl
@[simp] theorem writeStatus_idxWord (v : Word) (s : State) : (s.writeStatus v).idxWord = s.idxWord := rfl
@[simp] theorem writeStatus_params (v : Word) (s : State) : (s.writeStatus v).params = s.params := rfl
@[simp] theorem writeStatus_phase (v : Word) (s : State) : (s.writeStatus v).phase = s.phase := rfl
@[simp] theorem writeStatus_freq (v : Word) (s : State) : (s.writeStatus v).freq = s.freq := rfl
@[simp] theorem writeStatus_tree (v : Word) (s : State) : (s.writeStatus v).tree = s.tree := rfl
@[simp] theorem writeStatus_len (v : Word) (s : State) : (s.writeStatus v).len = s.len := rfl
@[simp] theorem writeStatus_code (v : Word) (s : State) : (s.writeStatus v).code = s.code := rfl
@[simp] theorem writeStatus_inBits (v : Word) (s : State) : (s.writeStatus v).inBits = s.inBits := rfl
@[simp] theorem writeStatus_inCur (v : Word) (s : State) : (s.writeStatus v).inCur = s.inCur := rfl
@[simp] theorem writeStatus_inAnswers (v : Word) (s : State) : (s.writeStatus v).inAnswers = s.inAnswers := rfl
@[simp] theorem writeStatus_outCur (v : Word) (s : State) : (s.writeStatus v).outCur = s.outCur := rfl
@[simp] theorem writeStatus_delivered (v : Word) (s : State) : (s.writeStatus v).delivered = s.delivered := rfl
@[simp] theorem writeStatus_agenda (v : Word) (s : State) : (s.writeStatus v).agenda = s.agenda := rfl
@[simp] theorem writeStatus_hostData (v : Word) (s : State) : (s.writeStatus v).hostData = s.hostData := rfl

/-! ### assertReset -/

@[simp] theorem assertReset_cmd (s : State) : s.assertReset.cmd = 0#32 := rfl
@[simp] theorem assertReset_done (s : State) : s.assertReset.done = false := rfl
@[simp] theorem assertReset_cmdDropped (s : State) : s.assertReset.cmdDropped = false := rfl
@[simp] theorem assertReset_errCode (s : State) : s.assertReset.errCode = .none := rfl
@[simp] theorem assertReset_freqValid (s : State) : s.assertReset.freqValid = false := rfl
@[simp] theorem assertReset_treeValid (s : State) : s.assertReset.treeValid = false := rfl
@[simp] theorem assertReset_treeSrc (s : State) : s.assertReset.treeSrc = .built := rfl
@[simp] theorem assertReset_codesValid (s : State) : s.assertReset.codesValid = false := rfl
@[simp] theorem assertReset_ie (s : State) : s.assertReset.ie = false := rfl
@[simp] theorem assertReset_total (s : State) : s.assertReset.total = 0 := rfl
@[simp] theorem assertReset_inPos (s : State) : s.assertReset.inPos = 0#32 := rfl
@[simp] theorem assertReset_outLen (s : State) : s.assertReset.outLen = 0#32 := rfl
@[simp] theorem assertReset_nodes (s : State) : s.assertReset.nodes = 0 := rfl
@[simp] theorem assertReset_errPos (s : State) : s.assertReset.errPos = 0#32 := rfl
@[simp] theorem assertReset_idxSym (s : State) : s.assertReset.idxSym = 0#9 := rfl
@[simp] theorem assertReset_idxWord (s : State) : s.assertReset.idxWord = 0#3 := rfl
@[simp] theorem assertReset_params (s : State) : s.assertReset.params = s.params := rfl
@[simp] theorem assertReset_phase (s : State) : s.assertReset.phase = .idle := rfl
@[simp] theorem assertReset_freq (s : State) : s.assertReset.freq = Vector.replicate 257 0 := rfl
@[simp] theorem assertReset_tree (s : State) : s.assertReset.tree = none := rfl
@[simp] theorem assertReset_len (s : State) : s.assertReset.len = Vector.replicate 257 0#9 := rfl
@[simp] theorem assertReset_code (s : State) : s.assertReset.code = Vector.replicate 257 [] := rfl
@[simp] theorem assertReset_inBits (s : State) : s.assertReset.inBits = s.inBits := rfl
@[simp] theorem assertReset_inCur (s : State) : s.assertReset.inCur = s.inCur := rfl
@[simp] theorem assertReset_inAnswers (s : State) : s.assertReset.inAnswers = s.inAnswers := rfl
@[simp] theorem assertReset_outCur (s : State) : s.assertReset.outCur = s.outCur := rfl
@[simp] theorem assertReset_delivered (s : State) : s.assertReset.delivered = s.delivered := rfl
@[simp] theorem assertReset_agenda (s : State) : s.assertReset.agenda = s.agenda := rfl
@[simp] theorem assertReset_hostData (s : State) : s.assertReset.hostData = s.hostData := rfl

end Sys2Proof.Machine
end

