-- ==== Sys2Proof/Laws/Ops.lean ====
section
/-!
SUPPORT. One lemma per shared operation that says what it can do.
-/
namespace Sys2Proof.Machine

/-! ### InRead (R71, R73) -/

/-- Everything `InRead(n)` can answer. -/
theorem inRead_cases (n : Nat) (s : State) :
    (s.inAnswers = false ∧ inRead n s = .pending) ∨
    (s.inAnswers = true ∧ s.inBits.length < s.inCur + n ∧ inRead n s = .eos) ∨
    (s.inAnswers = true ∧ s.inCur + n ≤ s.inBits.length ∧
      inRead n s = .value (BitVec.ofNat n (bitsToNat (s.inputRest.take n)))
        { s with inCur := s.inCur + n, inPos := s.inPos + BitVec.ofNat 32 n }) := by
  unfold inRead State.inputRest
  cases s.inAnswers <;> simp
  by_cases h : s.inCur + n ≤ s.inBits.length
  · simp [h]
  · simp [h]; omega

theorem inRead_pending {n : Nat} {s : State} (h : s.inAnswers = false) : inRead n s = .pending := by
  simp [inRead, h]

theorem inRead_eos {n : Nat} {s : State} (h : s.inAnswers = true) (hl : s.inBits.length < s.inCur + n) :
    inRead n s = .eos := by
  simp [inRead, h, Nat.not_le.2 hl]

/-- Reading the bits that come next. -/
theorem inRead_value {n : Nat} {s : State} (h : s.inAnswers = true) {bs rest : Bits} (hb : s.inputRest = bs ++ rest)
    (hn : bs.length = n) (hpos : 0 < n) :
    inRead n s = .value (BitVec.ofNat n (bitsToNat bs))
      { s with inCur := s.inCur + n, inPos := s.inPos + BitVec.ofNat 32 n } := by
  have hl : s.inCur + n ≤ s.inBits.length := by
    have := congrArg List.length hb
    simp only [State.inputRest, List.length_drop, List.length_append] at this
    omega
  have ht : (s.inBits.drop s.inCur).take n = bs := by
    rw [State.inputRest] at hb
    rw [hb, ← hn, List.take_left']
    rfl
  simp [inRead, h, hl, ht]

/-- Reading the n bits of a number gives the number. -/
theorem inRead_bitsOf {n : Nat} {s : State} (h : s.inAnswers = true) (v : Nat) {rest : Bits}
    (hb : s.inputRest = bitsOf n v ++ rest) (hpos : 0 < n) :
    inRead n s = .value (BitVec.ofNat n v)
      { s with inCur := s.inCur + n, inPos := s.inPos + BitVec.ofNat 32 n } := by
  rw [inRead_value h hb (bitsOf_length n v) hpos, bitsToNat_bitsOf]
  congr 1
  apply BitVec.eq_of_toNat_eq
  simp

/-- Reading one bit. -/
theorem inRead_one {s : State} (h : s.inAnswers = true) {b : Bool} {rest : Bits} (hb : s.inputRest = b :: rest) :
    inRead 1 s = .value (BitVec.ofBool b) { s with inCur := s.inCur + 1, inPos := s.inPos + 1#32 } := by
  rw [inRead_value (n := 1) h (bs := [b]) (rest := rest) hb rfl (by omega)]
  cases b <;> rfl

/-- Fewer than n bits left is the end of the stream. -/
theorem inRead_eos_of_rest {n : Nat} {s : State} (h : s.inAnswers = true) (hl : s.inputRest.length < n) :
    inRead n s = .eos := by
  apply inRead_eos h
  simp only [State.inputRest, List.length_drop] at hl
  omega

/-! ### Ends of a body's step (R11, R233, R242) -/

@[simp] theorem unitStep_cont (i : Instr) (s : State) : unitStep i (.cont s) = .next s := rfl
@[simp] theorem unitStep_done (i : Instr) (s : State) : unitStep i (.done s) = .next (finish s) := rfl
@[simp] theorem unitStep_last (i : Instr) (s : State) :
    unitStep i (.last s) = .next { s with phase := .ended i } := rfl
@[simp] theorem unitStep_raise (i : Instr) (e : ErrCode) (s : State) :
    unitStep i (.raise e s) = .next (finish (recordError e s)) := rfl
@[simp] theorem compositeStep_cont (p q : Phase) (s : State) : compositeStep p q (.cont s) = .next s := rfl
@[simp] theorem compositeStep_done (p q : Phase) (s : State) :
    compositeStep p q (.done s) = .next { s with phase := p } := rfl
@[simp] theorem compositeStep_last (p q : Phase) (s : State) :
    compositeStep p q (.last s) = .next { s with phase := p } := rfl
@[simp] theorem compositeStep_raise (p q : Phase) (e : ErrCode) (s : State) :
    compositeStep p q (.raise e s) = .next { recordError e s with phase := q } := rfl

/-- At the end of a command's pseudocode the step is its completion (R11, R242). -/
theorem exec_ended {i : Instr} {s : State} (h : s.phase = .ended i) : exec i s = .next (finish s) := by
  cases i <;>
    simp [exec, execCount, execBuild, execGencodes, execSerialize, execDeserialize, execWriteMagic, execEncode,
      execCheckMagic, execDecode, execRewind, execClose, execCompress, execDecompress, h]

/-! ### Acceptance (R232) -/

theorem accept_of_pre (i : Instr) (start : Phase) (s : State) :
    accept i true start s = { s with cmd := encode i, done := false, errCode := .none, phase := start } := rfl

theorem accept_of_not_pre (i : Instr) (start : Phase) (s : State) :
    accept i false start s =
      { s with cmd := encode i, done := true, errCode := .sequence, errPos := s.inPos } := rfl

/-! ### BUSY (R45) -/

theorem busy_eq_false_iff (s : State) : s.busy = false ↔ s.phase = .idle := by
  unfold State.busy; cases s.phase <;> simp

theorem busy_eq_true_iff (s : State) : s.busy = true ↔ s.phase ≠ .idle := by
  unfold State.busy; cases s.phase <;> simp

theorem running_eq_none_iff (p : Phase) : p.running = none ↔ p = .idle := by
  cases p <;> simp [Phase.running]

end Sys2Proof.Machine
end

