-- ==== Sys2Proof/Laws/Trees.lean ====
section
/-!
SUPPORT. Trees: counts of nodes and leaves, paths, headers (R107, R112, R145, R152).
-/
namespace Sys2Proof.Machine

theorem HuffTree.leaves_pos (t : HuffTree) : 0 < t.leaves.length := by
  induction t with
  | leaf y w => simp [HuffTree.leaves]
  | internal w l r ihl ihr => simp [HuffTree.leaves]; omega

/-- A tree with L leaves has 2L - 1 nodes (R145). -/
theorem HuffTree.size_eq (t : HuffTree) : t.size + 1 = 2 * t.leaves.length := by
  induction t with
  | leaf y w => rfl
  | internal w l r ihl ihr => simp only [HuffTree.leaves, HuffTree.size, List.length_append]; omega

theorem HuffTree.size_pos (t : HuffTree) : 0 < t.size := by
  cases t <;> simp [HuffTree.size]

/-- The header has one bit per node and nine per leaf (R161). -/
theorem HuffTree.header_length (t : HuffTree) :
    t.header.length = t.size + 9 * t.leaves.length := by
  induction t with
  | leaf y w => simp [HuffTree.header, HuffTree.size, HuffTree.leaves]
  | internal w l r ihl ihr =>
    simp only [HuffTree.header, HuffTree.size, HuffTree.leaves, List.length_append, List.length_cons, ihl, ihr]
    ring

theorem HuffTree.header_eraseWeights (t : HuffTree) : t.eraseWeights.header = t.header := by
  induction t with
  | leaf y w => rfl
  | internal w l r ihl ihr => simp [HuffTree.header, HuffTree.eraseWeights, ihl, ihr]

theorem HuffTree.paths_eraseWeights (t : HuffTree) : t.eraseWeights.paths = t.paths := by
  induction t with
  | leaf y w => rfl
  | internal w l r ihl ihr => simp [HuffTree.paths, HuffTree.eraseWeights, ihl, ihr]

@[simp] theorem HuffTree.size_eraseWeights (t : HuffTree) : t.eraseWeights.size = t.size := by
  induction t with
  | leaf y w => rfl
  | internal w l r ihl ihr => simp [HuffTree.size, HuffTree.eraseWeights, ihl, ihr]

/-- Paths and leaves list the same symbols in the same order. -/
theorem HuffTree.paths_symbols (t : HuffTree) : t.paths.map Prod.fst = t.leaves.map Prod.fst := by
  induction t with
  | leaf y w => rfl
  | internal w l r ihl ihr =>
    simp only [HuffTree.paths, HuffTree.leaves, List.map_append, List.map_map, ← ihl, ← ihr]
    rfl

/-- A path is shorter than the number of leaves (R115). -/
theorem HuffTree.path_length_lt (t : HuffTree) (p : Sym × Bits) (h : p ∈ t.paths) :
    p.2.length < t.leaves.length := by
  induction t generalizing p with
  | leaf y w => simp [HuffTree.paths] at h; simp [h, HuffTree.leaves]
  | internal w l r ihl ihr =>
    simp only [HuffTree.paths, List.mem_append, List.mem_map] at h
    have hl := l.leaves_pos
    have hr := r.leaves_pos
    simp only [HuffTree.leaves, List.length_append]
    rcases h with ⟨q, hq, rfl⟩ | ⟨q, hq, rfl⟩
    · have := ihl q hq; simp only [List.length_cons]; omega
    · have := ihr q hq; simp only [List.length_cons]; omega

/-- No leaf's path is a prefix of another leaf's path (R152). -/
theorem HuffTree.paths_prefixFree (t : HuffTree) :
    t.paths.Pairwise fun p q => ¬ p.2 <+: q.2 ∧ ¬ q.2 <+: p.2 := by
  induction t with
  | leaf y w => simp [HuffTree.paths]
  | internal w l r ihl ihr =>
    rw [HuffTree.paths, List.pairwise_append, List.pairwise_map, List.pairwise_map]
    refine ⟨ihl.imp (by simp), ihr.imp (by simp), ?_⟩
    simp only [List.mem_map]
    rintro _ ⟨p, _, rfl⟩ _ ⟨q, _, rfl⟩
    simp

/-- Distinct symbols at distinct leaves: a path determines its symbol and a symbol its path. -/
theorem HuffTree.path_unique (t : HuffTree) (hn : (t.leaves.map Prod.fst).Nodup) {y : Sym} {p q : Bits}
    (hp : (y, p) ∈ t.paths) (hq : (y, q) ∈ t.paths) : p = q := by
  rw [← t.paths_symbols] at hn
  have := List.inj_on_of_nodup_map hn hp hq rfl
  simpa using this

/-- `fitsTable` says what it means: entries for all symbols and codes of at most 256 bits (R49). -/
theorem HuffTree.fitsTable_iff (t : HuffTree) (d : Nat) :
    t.fitsTable d = true ↔ ∀ p ∈ t.paths, p.1.toNat < 257 ∧ d + p.2.length ≤ 256 := by
  induction t generalizing d with
  | leaf y w => simp [HuffTree.fitsTable, HuffTree.paths]
  | internal w l r ihl ihr =>
    simp only [HuffTree.fitsTable, Bool.and_eq_true, ihl, ihr, HuffTree.paths, List.mem_append, List.mem_map]
    constructor
    · rintro ⟨h1, h2⟩ p (⟨q, hq, rfl⟩ | ⟨q, hq, rfl⟩)
      · have := h1 q hq; simp only [List.length_cons]; omega
      · have := h2 q hq; simp only [List.length_cons]; omega
    · intro h
      refine ⟨fun q hq => ?_, fun q hq => ?_⟩
      · have := h _ (.inl ⟨q, hq, rfl⟩); simp only [List.length_cons] at this; omega
      · have := h _ (.inr ⟨q, hq, rfl⟩); simp only [List.length_cons] at this; omega

theorem HuffTree.within_refl (t : HuffTree) : t.Within t := by
  cases t <;> simp [HuffTree.Within]

/-- A child of a node of the tree is a node of the tree. -/
theorem HuffTree.within_child {w : Nat} {l r root : HuffTree} (h : (HuffTree.internal w l r).Within root) :
    l.Within root ∧ r.Within root := by
  induction root with
  | leaf y v => simp [HuffTree.Within] at h
  | internal v a b iha ihb =>
    simp only [HuffTree.Within] at h ⊢
    rcases h with h | h | h
    · injection h with h1 h2 h3
      subst h2 h3
      exact ⟨.inr (.inl l.within_refl), .inr (.inr r.within_refl)⟩
    · exact ⟨.inr (.inl (iha h).1), .inr (.inl (iha h).2)⟩
    · exact ⟨.inr (.inr (ihb h).1), .inr (.inr (ihb h).2)⟩

/-! ### The code table as a sequence of puts -/

theorem walk_eq_foldl (t : HuffTree) (path : Bits) (T : CodeTable) :
    walk t path T = t.paths.foldl (fun T p => T.put p.1 (path ++ p.2)) T := by
  induction t generalizing path T with
  | leaf y w => simp [walk, HuffTree.paths]
  | internal w l r ihl ihr =>
    simp only [walk, ihl, ihr, HuffTree.paths, List.foldl_append, List.foldl_map, List.append_assoc,
      List.cons_append, List.nil_append]

theorem CodeTable.put_len (T : CodeTable) (y : Sym) (p : Bits) (x : Fin 257) :
    (T.put y p).len[x] = if y.toNat = x.val then BitVec.ofNat 9 p.length else T.len[x] := by
  unfold CodeTable.put
  split
  · simp [Vector.getElem_set]
  · rename_i h
    rw [if_neg]; intro hx; exact h (hx ▸ x.isLt)

theorem CodeTable.put_code (T : CodeTable) (y : Sym) (p : Bits) (x : Fin 257) :
    (T.put y p).code[x] = if y.toNat = x.val then p else T.code[x] := by
  unfold CodeTable.put
  split
  · simp [Vector.getElem_set]
  · rename_i h
    rw [if_neg]; intro hx; exact h (hx ▸ x.isLt)

/-- Putting a list of entries leaves an entry not named in it alone. -/
theorem CodeTable.foldl_put_of_not_mem (ps : List (Sym × Bits)) (T : CodeTable) (x : Fin 257)
    (h : ∀ p ∈ ps, p.1.toNat ≠ x.val) :
    (ps.foldl (fun T p => T.put p.1 p.2) T).len[x] = T.len[x] ∧
    (ps.foldl (fun T p => T.put p.1 p.2) T).code[x] = T.code[x] := by
  induction ps generalizing T with
  | nil => simp
  | cons p ps ih =>
    have hp := h p (by simp)
    obtain ⟨h1, h2⟩ := ih (T.put p.1 p.2) (fun q hq => h q (by simp [hq]))
    rw [List.foldl_cons, h1, h2, CodeTable.put_len, CodeTable.put_code, if_neg hp, if_neg hp]
    exact ⟨rfl, rfl⟩

/-- Putting a list of entries with distinct symbols writes each. -/
theorem CodeTable.foldl_put_of_mem (ps : List (Sym × Bits)) (T : CodeTable) (x : Fin 257)
    (hn : (ps.map Prod.fst).Nodup) (p : Sym × Bits) (hp : p ∈ ps) (hx : p.1.toNat = x.val) :
    (ps.foldl (fun T p => T.put p.1 p.2) T).len[x] = BitVec.ofNat 9 p.2.length ∧
    (ps.foldl (fun T p => T.put p.1 p.2) T).code[x] = p.2 := by
  induction ps generalizing T with
  | nil => simp at hp
  | cons q ps ih =>
    rw [List.map_cons, List.nodup_cons] at hn
    rw [List.foldl_cons]
    rcases List.mem_cons.1 hp with rfl | hp
    · have hrest : ∀ r ∈ ps, r.1.toNat ≠ x.val := by
        intro r hr hrx
        exact hn.1 (List.mem_map.2 ⟨r, hr, BitVec.eq_of_toNat_eq (hrx.trans hx.symm)⟩)
      obtain ⟨h1, h2⟩ := CodeTable.foldl_put_of_not_mem ps (T.put p.1 p.2) x hrest
      rw [h1, h2, CodeTable.put_len, CodeTable.put_code, if_pos hx, if_pos hx]
      exact ⟨rfl, rfl⟩
    · exact ih _ hn.2 hp

theorem CodeTable.empty_entry (x : Fin 257) :
    CodeTable.empty.len[x] = 0#9 ∧ CodeTable.empty.code[x] = [] := by
  constructor <;> simp [CodeTable.empty]

/-- The code table of a tree is its list of codes, put one by one (R150, R151). -/
theorem codeTable_eq (t : HuffTree) :
    codeTable t = t.codes.foldl (fun T p => T.put p.1 p.2) CodeTable.empty := by
  cases t with
  | leaf y w => rfl
  | internal w l r => rw [codeTable, walk_eq_foldl]; rfl

theorem HuffTree.codes_symbols (t : HuffTree) : t.codes.map Prod.fst = t.leaves.map Prod.fst := by
  cases t with
  | leaf y w => rfl
  | internal w l r => exact HuffTree.paths_symbols _

/-- A leaf's code is the entry of its symbol (R150). -/
theorem codeTable_of_mem (t : HuffTree) (hn : (t.leaves.map Prod.fst).Nodup) {y : Sym} {p : Bits}
    (h : (y, p) ∈ t.codes) (x : Fin 257) (hx : y.toNat = x.val) :
    (codeTable t).len[x] = BitVec.ofNat 9 p.length ∧ (codeTable t).code[x] = p := by
  rw [codeTable_eq]
  exact CodeTable.foldl_put_of_mem _ _ x (by rwa [HuffTree.codes_symbols]) (y, p) h hx

/-- "A symbol with no leaf keeps `LEN = 0` and `CODE = \"\"`" (R150). -/
theorem codeTable_of_not_mem (t : HuffTree) (x : Fin 257)
    (h : ∀ y ∈ t.leaves.map Prod.fst, y.toNat ≠ x.val) :
    (codeTable t).len[x] = 0#9 ∧ (codeTable t).code[x] = [] := by
  rw [codeTable_eq]
  have := CodeTable.foldl_put_of_not_mem t.codes CodeTable.empty x
    (fun p hp => h p.1 (by rw [← HuffTree.codes_symbols]; exact List.mem_map_of_mem hp))
  rw [this.1, this.2]
  exact CodeTable.empty_entry x

/-- Every code of a tree has at least one bit (R151). -/
theorem HuffTree.codes_pos (t : HuffTree) (p : Sym × Bits) (h : p ∈ t.codes) : 0 < p.2.length := by
  cases t with
  | leaf y w => simp [HuffTree.codes] at h; simp [h]
  | internal w l r =>
    simp only [HuffTree.codes, HuffTree.paths, List.mem_append, List.mem_map] at h
    rcases h with ⟨q, _, rfl⟩ | ⟨q, _, rfl⟩ <;> simp

theorem HuffTree.codes_prefixFree (t : HuffTree) :
    t.codes.Pairwise fun p q => ¬ p.2 <+: q.2 ∧ ¬ q.2 <+: p.2 := by
  cases t with
  | leaf y w => simp [HuffTree.codes]
  | internal w l r => exact HuffTree.paths_prefixFree _

theorem HuffTree.fitsTable_code (t : HuffTree) (h : t.fitsTable 0 = true) (p : Sym × Bits) (hp : p ∈ t.codes) :
    p.1.toNat < 257 ∧ p.2.length ≤ 256 := by
  cases t with
  | leaf y w =>
    simp only [HuffTree.fitsTable, Bool.and_eq_true, decide_eq_true_eq] at h
    simp only [HuffTree.codes, List.mem_singleton] at hp
    subst hp; simpa using h.1
  | internal w l r => simpa using (HuffTree.fitsTable_iff _ 0).1 h p hp

/-- "`LEN[s] = |CODE[s]|`" (R49). -/
theorem codeTable_len_eq (t : HuffTree) (hn : (t.leaves.map Prod.fst).Nodup) (hf : t.fitsTable 0 = true)
    (x : Fin 257) : (codeTable t).len[x].toNat = (codeTable t).code[x].length := by
  by_cases h : ∃ p ∈ t.codes, p.1.toNat = x.val
  · obtain ⟨⟨y, p⟩, hp, hx⟩ := h
    have h1 := codeTable_of_mem t hn hp x hx
    have h2 := (HuffTree.fitsTable_code t hf _ hp).2
    rw [h1.1, h1.2, BitVec.toNat_ofNat]
    exact Nat.mod_eq_of_lt (by simp only at h2; omega)
  · push Not at h
    have h1 := codeTable_of_not_mem t x (fun y hy => by
      rw [← HuffTree.codes_symbols] at hy
      obtain ⟨p, hp, rfl⟩ := List.mem_map.1 hy
      exact h p hp)
    rw [h1.1, h1.2]; rfl

end Sys2Proof.Machine
end

