-- ==== Sys2Proof/Laws/Queue.lean ====
section
/-!
SUPPORT. BUILD's priority queue and loop: the sorted queue of the model does what R140 to R142 say on an unordered one.
-/
namespace Sys2Proof.Machine

theorem QEntry.before_iff (a b : QEntry) : a.before b = true ↔ a.KeyLt b := by
  simp [QEntry.before, QEntry.KeyLt]

theorem QEntry.KeyLt.trans {a b c : QEntry} (h : a.KeyLt b) (h' : b.KeyLt c) : a.KeyLt c := by
  unfold QEntry.KeyLt at *; omega

theorem QEntry.KeyLt.asymm {a b : QEntry} (h : a.KeyLt b) : ¬ b.KeyLt a := by
  unfold QEntry.KeyLt at *; omega

/-- Keys with different `seq` are comparable: "All `seq` values of one BUILD are distinct, so the order is total" (R141). -/
theorem QEntry.keyLt_of_not_before {a b : QEntry} (h : ¬ a.before b = true) (hs : a.seq ≠ b.seq) : b.KeyLt a := by
  rw [QEntry.before_iff] at h
  unfold QEntry.KeyLt at *; omega

theorem qInsert_perm (e : QEntry) (q : List QEntry) : (qInsert e q).Perm (e :: q) := by
  induction q with
  | nil => exact .refl _
  | cons x xs ih =>
    unfold qInsert
    split
    · exact .refl _
    · exact (ih.cons x).trans (.swap e x xs)

theorem qInsert_length (e : QEntry) (q : List QEntry) : (qInsert e q).length = q.length + 1 :=
  (qInsert_perm e q).length_eq

/-- The queue is in key order. -/
def QSorted (q : List QEntry) : Prop := q.Pairwise QEntry.KeyLt

theorem qInsert_sorted (e : QEntry) (q : List QEntry) (hq : QSorted q) (hs : ∀ x ∈ q, e.seq ≠ x.seq) :
    QSorted (qInsert e q) := by
  induction q with
  | nil => simp [qInsert, QSorted]
  | cons x xs ih =>
    obtain ⟨hx, hxs⟩ := List.pairwise_cons.1 hq
    unfold qInsert
    split
    · rename_i h
      have hex := (QEntry.before_iff e x).1 h
      exact List.pairwise_cons.2 ⟨fun y hy => by
        rcases List.mem_cons.1 hy with rfl | hy
        · exact hex
        · exact hex.trans (hx y hy), hq⟩
    · rename_i h
      refine List.pairwise_cons.2 ⟨fun y hy => ?_, ih hxs fun y hy => hs y (by simp [hy])⟩
      rcases List.mem_cons.1 ((qInsert_perm e xs).mem_iff.1 hy) with rfl | hy
      · exact QEntry.keyLt_of_not_before h (hs x (by simp))
      · exact hx y hy

/-! ### The first loop -/

/-- The entries of the first loop for the counts listed, the first of them of symbol `sym`. -/
def entriesFrom : Nat → List Nat → List QEntry
  | _, [] => []
  | sym, w :: ws =>
    if w = 0 then entriesFrom (sym + 1) ws
    else { seq := sym, node := .leaf (BitVec.ofNat 9 sym) w } :: entriesFrom (sym + 1) ws

theorem entriesFrom_seq (sym : Nat) (ws : List Nat) (e : QEntry) (h : e ∈ entriesFrom sym ws) :
    sym ≤ e.seq ∧ e.seq < sym + ws.length := by
  induction ws generalizing sym with
  | nil => simp [entriesFrom] at h
  | cons w ws ih =>
    simp only [List.length_cons]
    unfold entriesFrom at h
    split at h
    · have := ih _ h; omega
    · rcases List.mem_cons.1 h with rfl | h
      · simp only; omega
      · have := ih _ h; omega

theorem entriesFrom_nodup (sym : Nat) (ws : List Nat) : ((entriesFrom sym ws).map QEntry.seq).Nodup := by
  induction ws generalizing sym with
  | nil => simp [entriesFrom]
  | cons w ws ih =>
    unfold entriesFrom
    split
    · exact ih _
    · rw [List.map_cons, List.nodup_cons]
      refine ⟨fun h => ?_, ih _⟩
      obtain ⟨e, he, hes⟩ := List.mem_map.1 h
      have := entriesFrom_seq _ _ _ he
      simp only at hes; omega

theorem insertLeaves_perm (sym : Nat) (ws : List Nat) (q : List QEntry) :
    (insertLeaves sym ws q).Perm (entriesFrom sym ws ++ q) := by
  induction ws generalizing sym q with
  | nil => exact .refl _
  | cons w ws ih =>
    unfold insertLeaves entriesFrom
    by_cases hw : w = 0
    · simpa [hw] using ih (sym + 1) q
    · simp only [hw, if_false, List.cons_append]
      refine (ih (sym + 1) _).trans ?_
      refine ((qInsert_perm _ q).append_left _).trans ?_
      exact List.perm_middle

theorem insertLeaves_sorted (sym : Nat) (ws : List Nat) (q : List QEntry) (hq : QSorted q)
    (hs : ∀ x ∈ q, x.seq < sym) : QSorted (insertLeaves sym ws q) := by
  induction ws generalizing sym q with
  | nil => exact hq
  | cons w ws ih =>
    unfold insertLeaves
    split
    · exact ih _ _ hq fun x hx => Nat.lt_succ_of_lt (hs x hx)
    · refine ih _ _ (qInsert_sorted _ _ hq fun x hx => ?_) fun x hx => ?_
      · have := hs x hx; simp only; omega
      · rcases List.mem_cons.1 ((qInsert_perm _ q).mem_iff.1 hx) with rfl | hx
        · simp
        · have := hs x hx; omega

theorem entriesFrom_ofFn (n sym : Nat) (f : Fin n → Nat) :
    entriesFrom sym (List.ofFn f) =
      ((List.finRange n).filter fun y => decide (f y ≠ 0)).map fun y =>
        { seq := sym + y.val, node := .leaf (BitVec.ofNat 9 (sym + y.val)) (f y) } := by
  induction n generalizing sym with
  | zero => simp [entriesFrom]
  | succ n ih =>
    rw [List.ofFn_succ, entriesFrom, List.finRange_succ, ih]
    by_cases h : f 0 = 0
    · simp [h, List.filter_map, Function.comp_def, Nat.add_assoc, Nat.add_comm 1]
    · simp [h, List.filter_map, Function.comp_def, Nat.add_assoc, Nat.add_comm 1]

theorem vector_toList_eq_ofFn {α : Type} {n : Nat} (v : Vector α n) : v.toList = List.ofFn fun y : Fin n => v[y] := by
  apply List.ext_getElem <;> simp

theorem leafEntries_eq (freq : Vector Nat 257) : leafEntries freq = entriesFrom 0 freq.toList := by
  rw [vector_toList_eq_ofFn, entriesFrom_ofFn]
  simp [leafEntries]

/-- The sorted queue of the model holds the entries of R140's first loop. -/
theorem leafQueue_perm (freq : Vector Nat 257) : (leafQueue freq).Perm (leafEntries freq) := by
  have := insertLeaves_perm 0 freq.toList []
  rwa [List.append_nil, ← leafEntries_eq] at this

theorem leafQueue_sorted (freq : Vector Nat 257) : QSorted (leafQueue freq) :=
  insertLeaves_sorted 0 _ [] .nil (by simp)

theorem leafEntries_seq (freq : Vector Nat 257) (e : QEntry) (h : e ∈ leafEntries freq) : e.seq < 257 := by
  rw [leafEntries_eq] at h
  have := (entriesFrom_seq _ _ _ h).2
  simpa using this

theorem leafEntries_nodup (freq : Vector Nat 257) : ((leafEntries freq).map QEntry.seq).Nodup := by
  rw [leafEntries_eq]; exact entriesFrom_nodup _ _

theorem leafEntries_mem (freq : Vector Nat 257) (y : Fin 257) (h : freq[y] ≠ 0) :
    { seq := y.val, node := .leaf (BitVec.ofNat 9 y.val) freq[y] } ∈ leafEntries freq := by
  simp only [leafEntries, List.mem_map, List.mem_filter, List.mem_finRange, true_and, decide_eq_true_eq]
  exact ⟨y, h, rfl⟩

/-! ### The loop -/

theorem Combines.perm {k : Nat} {q : List QEntry} {t : HuffTree} (h : Combines k q t) :
    ∀ q', q.Perm q' → Combines k q' t := by
  induction h with
  | single k e =>
    intro q' hq
    have := List.perm_singleton.1 hq.symm
    subst this; exact .single k e
  | round k q r rest a b t h1 h2 h3 _ =>
    intro q' hq
    exact .round k q' r rest a b t ⟨hq.symm.trans h1.1, h1.2⟩ h2 h3

theorem RemoveMin.unique {q q' r r' : List QEntry} {a a' : QEntry} (h : RemoveMin q a r) (h' : RemoveMin q' a' r')
    (hq : q.Perm q') : a = a' ∧ r.Perm r' := by
  have hp : (a :: r).Perm (a' :: r') := h.1.symm.trans (hq.trans h'.1)
  have haa : a = a' := by
    by_contra hne
    have h1 : a ∈ r' := by
      have : a ∈ a' :: r' := hp.mem_iff.1 (by simp)
      simpa [hne] using this
    have h2 : a' ∈ r := by
      have : a' ∈ a :: r := hp.mem_iff.2 (by simp)
      simpa [Ne.symm hne] using this
    exact (h.2 _ h2).asymm (h'.2 _ h1)
  subst haa
  exact ⟨rfl, hp.cons_inv⟩

/-- BUILD's loop has one result (R141: "`remove-min` is deterministic"). -/
theorem Combines.unique {k : Nat} {q : List QEntry} {t : HuffTree} (h : Combines k q t) :
    ∀ q' t', q.Perm q' → Combines k q' t' → t = t' := by
  induction h with
  | single k e =>
    intro q' t' hq h'
    have := List.perm_singleton.1 hq.symm
    subst this
    cases h' with
    | single => rfl
    | round _ _ r rest a b _ h1 h2 _ =>
      have l1 := h1.1.length_eq
      have l2 := h2.1.length_eq
      simp only [List.length_cons, List.length_nil] at l1 l2; omega
  | round k q r rest a b t h1 h2 h3 ih =>
    intro q' t' hq h'
    cases h' with
    | single _ e =>
      have l0 := hq.length_eq
      have l1 := h1.1.length_eq
      have l2 := h2.1.length_eq
      simp only [List.length_cons, List.length_nil] at l0 l1 l2; omega
    | round _ _ r' rest' a' b' _ g1 g2 g3 =>
      obtain ⟨rfl, hr⟩ := h1.unique g1 hq
      obtain ⟨rfl, hrest⟩ := h2.unique g2 hr
      exact ih _ _ (hrest.cons _) g3

/-- On a sorted queue the head is what remove-min takes. -/
theorem removeMin_head {a : QEntry} {q : List QEntry} (h : QSorted (a :: q)) : RemoveMin (a :: q) a q :=
  ⟨.refl _, (List.pairwise_cons.1 h).1⟩

/-- The model's loop runs to one entry and follows R140's loop. -/
theorem combineAll_combines (n k : Nat) (q : List QEntry) (hs : QSorted q) (hb : ∀ e ∈ q, e.seq < 257 + k)
    (h0 : 0 < q.length) (hn : q.length ≤ n + 1) :
    ∃ e, combineAll n k q = [e] ∧ Combines k q e.node := by
  induction n generalizing k q with
  | zero =>
    match q, h0, hn with
    | [e], _, _ => exact ⟨e, rfl, .single k e⟩
  | succ n ih =>
    match q, h0 with
    | [e], _ => exact ⟨e, rfl, .single k e⟩
    | a :: b :: q, _ =>
      have hsb := (List.pairwise_cons.1 hs).2
      have hsq := (List.pairwise_cons.1 hsb).2
      let e : QEntry := { seq := 257 + k, node := combineNodes a.node b.node }
      obtain ⟨x, hx, hc⟩ := ih (k + 1) (qInsert e q)
        (qInsert_sorted _ _ hsq fun x hx => by have := hb x (by simp [hx]); simp only [e]; omega)
        (fun x hx => by
          rcases List.mem_cons.1 ((qInsert_perm _ q).mem_iff.1 hx) with rfl | hx
          · simp only [e]; omega
          · have := hb x (by simp [hx]); omega)
        (by rw [qInsert_length]; omega)
        (by rw [qInsert_length]; simp only [List.length_cons] at hn; omega)
      exact ⟨x, hx, .round k _ _ _ a b _ (removeMin_head hs) (removeMin_head hsb) (hc.perm _ (qInsert_perm e q))⟩

/-- BUILD's tree is the one R140's loop makes, whenever some count is not zero. -/
theorem buildTree_combines (freq : Vector Nat 257) (y : Fin 257) (hy : freq[y] ≠ 0) :
    ∃ t, buildTree freq = some t ∧ Combines 0 (leafEntries freq) t := by
  have hmem := (leafQueue_perm freq).mem_iff.2 (leafEntries_mem freq y hy)
  obtain ⟨e, he, hc⟩ := combineAll_combines (leafQueue freq).length 0 (leafQueue freq) (leafQueue_sorted freq)
    (fun e h => by have := leafEntries_seq freq e ((leafQueue_perm freq).mem_iff.1 h); omega)
    (List.length_pos_of_mem hmem) (by omega)
  refine ⟨e.node, ?_, hc.perm _ (leafQueue_perm freq)⟩
  simp [buildTree, he]

theorem buildTree_some_combines {freq : Vector Nat 257} {t : HuffTree} (y : Fin 257) (hy : freq[y] ≠ 0)
    (h : buildTree freq = some t) : Combines 0 (leafEntries freq) t := by
  obtain ⟨t', h', hc⟩ := buildTree_combines freq y hy
  rw [h] at h'
  cases h'
  exact hc

/-! ### What the loop keeps -/

/-- The leaves of all the trees in a queue. -/
def queueLeaves (q : List QEntry) : List (Sym × Nat) := q.flatMap fun e => e.node.leaves

theorem queueLeaves_perm {q q' : List QEntry} (h : q.Perm q') : (queueLeaves q).Perm (queueLeaves q') :=
  h.flatMap_right _

/-- The loop moves leaves and loses none (R145). -/
theorem Combines.leaves {k : Nat} {q : List QEntry} {t : HuffTree} (h : Combines k q t) :
    t.leaves.Perm (queueLeaves q) := by
  induction h with
  | single k e => simp [queueLeaves]
  | round k q r rest a b t h1 h2 _ ih =>
    refine ih.trans ?_
    have hq := (queueLeaves_perm (h1.1.trans (h2.1.cons a))).symm
    simpa [queueLeaves, HuffTree.leaves, List.append_assoc] using hq

/-- The weights of the entries of a queue, added up. -/
def queueWeight (q : List QEntry) : Nat := (q.map fun e => e.node.weight).sum

theorem queueWeight_perm {q q' : List QEntry} (h : q.Perm q') : queueWeight q = queueWeight q' :=
  (h.map _).sum_eq

theorem Combines.weight {k : Nat} {q : List QEntry} {t : HuffTree} (h : Combines k q t) :
    t.weight = queueWeight q := by
  induction h with
  | single k e => simp [queueWeight]
  | round k q r rest a b t h1 h2 _ ih =>
    rw [ih, queueWeight_perm (h1.1.trans (h2.1.cons a))]
    simp [queueWeight, HuffTree.weight]; ring

theorem Combines.weighted {k : Nat} {q : List QEntry} {t : HuffTree} (h : Combines k q t) :
    (∀ e ∈ q, e.node.Weighted) → t.Weighted := by
  induction h with
  | single k e => intro h; exact h e (by simp)
  | round k q r rest a b t h1 h2 _ ih =>
    intro h
    have hp := h1.1.trans (h2.1.cons a)
    apply ih
    intro e he
    rcases List.mem_cons.1 he with rfl | he
    · exact ⟨rfl, h a (hp.mem_iff.2 (by simp)), h b (hp.mem_iff.2 (by simp))⟩
    · exact h e (hp.mem_iff.2 (by simp [he]))

/-! ### The built tree -/

/-- The leaves a built tree has: one per symbol with a nonzero count, with that count (R140, R145). -/
theorem queueLeaves_leafEntries (freq : Vector Nat 257) :
    queueLeaves (leafEntries freq) =
      ((List.finRange 257).filter fun y => decide (freq[y] ≠ 0)).map fun y => (BitVec.ofNat 9 y.val, freq[y]) := by
  rw [queueLeaves, leafEntries, List.flatMap_map]
  exact List.flatMap_pure_eq_map _ _

theorem ofNat9_injective (x y : Fin 257) (h : BitVec.ofNat 9 x.val = BitVec.ofNat 9 y.val) : x = y := by
  have := congrArg BitVec.toNat h
  simp only [BitVec.toNat_ofNat] at this
  apply Fin.ext
  omega

/-- The leaves of a built tree, in some order. -/
theorem built_leaves {freq : Vector Nat 257} {t : HuffTree} (h : Combines 0 (leafEntries freq) t) :
    t.leaves.Perm
      (((List.finRange 257).filter fun y => decide (freq[y] ≠ 0)).map fun y => (BitVec.ofNat 9 y.val, freq[y])) := by
  rw [← queueLeaves_leafEntries]; exact h.leaves

theorem built_leaves_length {freq : Vector Nat 257} {t : HuffTree} (h : Combines 0 (leafEntries freq) t) :
    t.leaves.length = (leafQueue freq).length := by
  rw [(built_leaves h).length_eq, (leafQueue_perm freq).length_eq]
  simp [leafEntries]

/-- At most one leaf per symbol of the alphabet (R7 `MAX_LEAVES_BUILT`). -/
theorem built_leaves_le {freq : Vector Nat 257} {t : HuffTree} (h : Combines 0 (leafEntries freq) t) :
    t.leaves.length ≤ 257 := by
  rw [(built_leaves h).length_eq, List.length_map]
  exact (List.length_filter_le _ _).trans (by simp)

/-- "every leaf's symbol is unique across the tree" (R145). -/
theorem built_symbols_nodup {freq : Vector Nat 257} {t : HuffTree} (h : Combines 0 (leafEntries freq) t) :
    (t.leaves.map Prod.fst).Nodup := by
  have hp := (built_leaves h).map Prod.fst
  rw [hp.nodup_iff, List.map_map]
  refine List.Nodup.map_on (fun x _ y _ hxy => ofNat9_injective x y hxy) ?_
  exact (List.nodup_finRange 257).filter _

/-- A symbol has a leaf in a built tree exactly when its count is not zero, and the leaf's weight is the count. -/
theorem built_mem_leaves {freq : Vector Nat 257} {t : HuffTree} (h : Combines 0 (leafEntries freq) t) (y : Sym) (w : Nat) :
    (y, w) ∈ t.leaves ↔ ∃ x : Fin 257, x.val = y.toNat ∧ freq[x] = w ∧ w ≠ 0 := by
  rw [(built_leaves h).mem_iff]
  simp only [List.mem_map, List.mem_filter, List.mem_finRange, true_and, decide_eq_true_eq, Prod.mk.injEq]
  constructor
  · rintro ⟨x, hx, rfl, rfl⟩
    refine ⟨x, ?_, rfl, hx⟩
    simp only [BitVec.toNat_ofNat]; omega
  · rintro ⟨x, hx, rfl, hw⟩
    refine ⟨x, hw, ?_, rfl⟩
    rw [hx]; simp

theorem built_fits {freq : Vector Nat 257} {t : HuffTree} (h : Combines 0 (leafEntries freq) t) :
    t.fitsTable 0 = true := by
  rw [HuffTree.fitsTable_iff]
  intro p hp
  constructor
  · have hm : p.1 ∈ t.leaves.map Prod.fst := by
      rw [← HuffTree.paths_symbols]; exact List.mem_map_of_mem hp
    obtain ⟨⟨y, w⟩, hyw, hy⟩ := List.mem_map.1 hm
    obtain ⟨x, hx, _⟩ := (built_mem_leaves h y w).1 hyw
    rw [← hy]
    simp only; omega
  · have h1 := HuffTree.path_length_lt t p hp
    have h2 := built_leaves_le h
    omega

end Sys2Proof.Machine
end

