-- ==== Sys2Proof/Laws/Invariant.lean ====
section
/-!
SUPPORT. What one step of each command's body keeps: the invariant of the data, DONE and ERRCODE, and what the next
position needs.
-/
namespace Sys2Proof.Machine

/-- The invariant of the data sees only these fields. -/
theorem DataInv.of_eq {s t : State} (h : DataInv s)
    (h1 : t.params = s.params := by rfl) (h2 : t.inBits = s.inBits := by rfl) (h3 : t.inCur = s.inCur := by rfl)
    (h4 : t.total = s.total := by rfl) (h5 : t.freq = s.freq := by rfl) (h6 : t.freqValid = s.freqValid := by rfl)
    (h7 : t.nodes = s.nodes := by rfl) (h8 : t.treeValid = s.treeValid := by rfl) (h9 : t.tree = s.tree := by rfl)
    (h10 : t.treeSrc = s.treeSrc := by rfl) (h11 : t.codesValid = s.codesValid := by rfl)
    (h12 : t.len = s.len := by rfl) (h13 : t.code = s.code := by rfl) : DataInv t := by
  obtain ⟨a1, a2, a3, a4, a5, a6, a7, a8, a9⟩ := h
  constructor <;> simp only [h1, h2, h3, h4, h5, h6, h7, h8, h9, h10, h11, h12, h13] <;> assumption

/-- A successful read only moves the cursor. -/
theorem DataInv.advance {s : State} (h : DataInv s) {n : Nat} {v : Word} (hl : s.inCur + n ≤ s.inBits.length) :
    DataInv { s with inCur := s.inCur + n, inPos := v } := by
  obtain ⟨a1, a2, a3, a4, a5, a6, a7, a8, a9⟩ := h
  exact ⟨a1, hl, a3, a4, a5, a6, a7, a8, a9⟩

theorem DataInv.rewind {s : State} (h : DataInv s) : DataInv (inReset s) := by
  obtain ⟨a1, a2, a3, a4, a5, a6, a7, a8, a9⟩ := h
  exact ⟨a1, Nat.zero_le _, a3, a4, a5, a6, a7, a8, a9⟩

theorem Params.wf_bounds {p : Params} (h : p.wf = true) :
    p.magic ≠ 0#32 ∧ 2 ≤ p.countW ∧ p.countW ≤ 32 ∧ 513 ≤ p.nodeCap ∧ p.nodeCap ≤ 65535 := by
  simpa [Params.wf, and_assoc] using h

theorem Params.four_le {p : Params} (h : p.wf = true) : 4 ≤ 2 ^ p.countW := by
  have := (Params.wf_bounds h).2.1
  calc 4 = 2 ^ 2 := rfl
    _ ≤ 2 ^ p.countW := Nat.pow_le_pow_right (by omega) this

/-! ### Sums over FREQ (R133) -/

theorem byteSum_replicate : byteSum (Vector.replicate 257 0) = 0 := by decide +kernel

theorem byteSum_eq (freq : Vector Nat 257) : byteSum freq = ((List.finRange 256).map fun y => freq[y]).sum := by
  unfold byteSum
  congr 1
  apply List.ext_getElem <;> simp

theorem byteSum_set_sentinel (freq : Vector Nat 257) (v : Nat) :
    byteSum (freq.set sentinelEntry v) = byteSum freq := by
  rw [byteSum_eq, byteSum_eq]
  congr 1
  apply List.map_congr_left
  intro y _
  have : (sentinelEntry : Nat) ≠ y.val := by simp only [sentinelEntry]; omega
  simp [this]

theorem sum_set_succ (l : List Nat) (n : Nat) (h : n < l.length) : (l.set n (l[n] + 1)).sum = l.sum + 1 := by
  induction l generalizing n with
  | nil => simp at h
  | cons x xs ih =>
    cases n with
    | zero => simp; omega
    | succ n =>
      have := ih n (by simpa using h)
      simp only [List.set_cons_succ, List.sum_cons, List.getElem_cons_succ, this]; omega

theorem byteSum_set_byte (freq : Vector Nat 257) (r : Byte) :
    byteSum (freq.set (byteEntry r) (freq[byteEntry r] + 1)) = byteSum freq + 1 := by
  have hr : (byteEntry r).val < 256 := r.isLt
  have hlen : (byteEntry r).val < (freq.toList.take 256).length := by simp; omega
  have h := sum_set_succ (freq.toList.take 256) _ hlen
  unfold byteSum
  rw [Vector.toList_set, List.take_set]
  rwa [List.getElem_take, Vector.getElem_toList] at h

/-! ### One step of a body

`r.Keeps s contOk doneOk raiseOk`: a body's step from `s` with result `r` is no fault; it keeps the invariant of the
data; short of an error it keeps DONE and ERRCODE; and it meets the condition given for its kind of result. A step that
waits for an unanswered read changes nothing. -/

def BodyResult.Keeps (s : State) (contOk doneOk : State → Prop) (raiseOk : ErrCode → State → Prop) :
    BodyResult → Prop
  | .cont s' => s' = s ∨ (DataInv s' ∧ s'.done = s.done ∧ s'.errCode = s.errCode ∧ contOk s')
  | .done s' => DataInv s' ∧ s'.done = s.done ∧ s'.errCode = s.errCode ∧ doneOk s'
  | .last s' => DataInv s' ∧ s'.done = s.done ∧ s'.errCode = s.errCode ∧ doneOk s'
  | .raise e s' => DataInv s' ∧ e ≠ .none ∧ raiseOk e s'
  | .fault _ => False

/-- COUNT (R130, R131, R133). -/
theorem countBody_keeps (k : CountPos → Phase) (p : CountPos) (s : State) (hd : DataInv s) (hp : CountOk p s) :
    (countBody k p s).Keeps s (fun s' => ∃ p', s'.phase = k p' ∧ FlagsClear s' ∧ CountOk p' s')
      (fun s' => s'.freqValid = true) (fun e s' => e = .countOverflow ∧ FlagsClear s') := by
  cases p with
  | clear =>
    refine .inr ⟨⟨hd.params, hd.cursor, ?_, byteSum_replicate, ?_, hd.nodesFit, ?_, ?_, ?_⟩, rfl, rfl,
      .loop, rfl, ⟨rfl, rfl, rfl⟩, ⟨rfl, rfl, rfl⟩⟩
    · have := Params.four_le hd.params; simp only [invalidateFreq_params]; omega
    all_goals simp
  | loop =>
    obtain ⟨hf, ht, hc⟩ := hp
    rcases inRead_cases 8 s with ⟨_, h⟩ | ⟨_, _, h⟩ | ⟨_, hl, h⟩
    · simp [countBody, h, BodyResult.Keeps]
    · simp only [countBody, h]
      exact .inr ⟨hd.of_eq, rfl, rfl, .finish, rfl, ⟨hf, ht, hc⟩, ⟨hf, ht, hc⟩⟩
    · have hd' := hd.advance (v := s.inPos + BitVec.ofNat 32 8) hl
      simp only [countBody, h]
      split
      · exact ⟨hd', by simp, rfl, hf, ht, hc⟩
      · rename_i hmax
        refine .inr ⟨⟨hd'.params, hd'.cursor, ?_, ?_, ?_, hd'.nodesFit, ?_, ?_, ?_⟩, rfl, rfl,
          .loop, rfl, ⟨hf, ht, hc⟩, ⟨hf, ht, hc⟩⟩
        · have := hd'.totalFits
          simp only [countWord] at hmax this ⊢
          omega
        · simp only [countWord]
          rw [byteSum_set_byte, hd.totalSum]
        · simp [hf]
        · simp [ht]
        · simp [ht]
        · simp [hc]
  | finish =>
    obtain ⟨hf, ht, hc⟩ := hp
    refine ⟨⟨hd.params, hd.cursor, hd.totalFits, ?_, ?_, hd.nodesFit, ?_, ?_, ?_⟩, rfl, rfl, rfl⟩
    · simp only [byteSum_set_sentinel]; exact hd.totalSum
    · simp
    · simp [ht]
    · simp [ht]
    · simp [hc]

/-- The tree BUILD makes of a valid FREQ, with all that R140 to R145 say of it. -/
theorem DataInv.build {s : State} (hd : DataInv s) (hf : s.freqValid = true) :
    ∃ t, buildTree s.freq = some t ∧ Combines 0 (leafEntries s.freq) t ∧
      2 * (leafQueue s.freq).length - 1 = t.size ∧ t.size ≤ s.params.nodeCap := by
  have h256 := hd.freqSentinel hf
  obtain ⟨t, ht, hc⟩ := buildTree_combines s.freq sentinelEntry (by omega)
  have h1 := built_leaves_length hc
  have h2 := built_leaves_le hc
  have h3 := t.size_eq
  have h4 := (Params.wf_bounds hd.params).2.2.2.1
  exact ⟨t, ht, hc, by omega, by omega⟩

/-- A built tree that is valid is the one BUILD makes of FREQ. -/
theorem DataInv.builtTree {s : State} (hd : DataInv s) (ht : s.treeValid = true) (hs : s.treeSrc = .built) :
    ∃ t, s.tree = some t ∧ Combines 0 (leafEntries s.freq) t := by
  obtain ⟨hf, hb⟩ := hd.treeBuilt ht hs
  obtain ⟨t, h1, h2, _⟩ := hd.build hf
  exact ⟨t, hb ▸ h1, h2⟩

/-- BUILD (R140, R145). -/
theorem buildBody_keeps (s : State) (hd : DataInv s) (hf : s.freqValid = true) :
    (buildBody s).Keeps s (fun _ => False) (fun s' => s'.treeValid = true ∧ s'.treeSrc = .built) (fun _ _ => False) := by
  obtain ⟨t, ht, hc, hsz, hcap⟩ := hd.build hf
  simp only [buildBody, ht]
  refine ⟨⟨hd.params, hd.cursor, hd.totalFits, hd.totalSum, hd.freqSentinel, ?_, ?_, ?_, ?_⟩, rfl, rfl, rfl, rfl⟩
  · simp only [invalidateTree_params]; omega
  · intro _; exact ⟨t, rfl, hsz⟩
  · intro _ _; exact ⟨hf, ht⟩
  · simp

/-- GENCODES (R150, R153). -/
theorem gencodesBody_keeps (s : State) (hd : DataInv s) (ht : s.treeValid = true) (hs : s.treeSrc = .built) :
    (gencodesBody s).Keeps s (fun _ => False) (fun s' => s'.codesValid = true) (fun _ _ => False) := by
  obtain ⟨t, htree, hc⟩ := hd.builtTree ht hs
  simp only [gencodesBody, htree, built_fits hc, if_true]
  exact ⟨⟨hd.params, hd.cursor, hd.totalFits, hd.totalSum, hd.freqSentinel, hd.nodesFit, htree ▸ hd.treeStored,
    htree ▸ hd.treeBuilt, fun _ => ⟨ht, hs, t, htree, rfl, rfl⟩⟩, rfl, rfl, rfl⟩

/-- SERIALIZE (R160) changes only the output. -/
theorem serBody_keeps (k : SerPos → Phase) (p : SerPos) (s : State) (hd : DataInv s) (hp : SerOk p s) :
    (serBody k p s).Keeps s (fun s' => ∃ p', s'.phase = k p' ∧ SerOk p' s' ∧ s'.codesValid = s.codesValid)
      (fun s' => s'.codesValid = s.codesValid) (fun _ _ => False) := by
  have hnode : ∀ t rest, (serNode k t rest s).Keeps s
      (fun s' => ∃ p', s'.phase = k p' ∧ SerOk p' s' ∧ s'.codesValid = s.codesValid)
      (fun s' => s'.codesValid = s.codesValid) (fun _ _ => False) := by
    intro t rest
    cases t with
    | leaf y w => exact .inr ⟨hd.of_eq, rfl, rfl, _, rfl, trivial, rfl⟩
    | internal w l r => exact .inr ⟨hd.of_eq, rfl, rfl, _, rfl, trivial, rfl⟩
  cases p with
  | start =>
    obtain ⟨t, ht, _⟩ := hd.treeStored hp
    simp only [serBody, ht]
    exact hnode t []
  | node t rest => exact hnode t rest
  | sym y rest =>
    cases rest with
    | nil => exact ⟨hd.of_eq, rfl, rfl, rfl⟩
    | cons t ts => exact .inr ⟨hd.of_eq, rfl, rfl, _, rfl, trivial, rfl⟩

/-- Returning a tree to the open calls keeps the count of nodes (R165). -/
theorem returnNode_size (t : HuffTree) (st : List Frame) :
    match returnNode t st with
    | .complete t' => t'.size = t.size + framesSize st
    | .more st' => framesSize st' = t.size + framesSize st := by
  induction st generalizing t with
  | nil => simp [returnNode, framesSize]
  | cons f fs ih =>
    cases f with
    | left => simp [returnNode, framesSize]; omega
    | right l =>
      have := ih (.internal 0 l t)
      simp only [returnNode]
      split <;> rename_i h <;> rw [h] at this <;> simp only [HuffTree.size, framesSize] at this ⊢ <;> omega

/-- DESERIALIZE (R165 to R168). -/
theorem desBody_keeps (k : DesPos → Phase) (p : DesPos) (s : State) (hd : DataInv s) (hp : DesOk p s) :
    (desBody k p s).Keeps s (fun s' => ∃ p', s'.phase = k p' ∧ DesOk p' s' ∧ s'.freqValid = s.freqValid)
      (fun s' => s'.treeValid = true ∧ s'.treeSrc = .read ∧ s'.freqValid = s.freqValid)
      (fun e s' => (e = .truncHeader ∨ e = .headerOverflow) ∧ s'.treeValid = false ∧ s'.codesValid = false ∧
        s'.freqValid = s.freqValid) := by
  cases p with
  | start =>
    refine .inr ⟨⟨hd.params, hd.cursor, hd.totalFits, hd.totalSum, hd.freqSentinel, ?_, ?_, ?_, ?_⟩, rfl, rfl, _, rfl,
      ⟨rfl, rfl, rfl⟩, rfl⟩
    all_goals simp
  | tag st =>
    obtain ⟨ht, hc, hn⟩ := hp
    rcases inRead_cases 1 s with ⟨_, h⟩ | ⟨_, _, h⟩ | ⟨_, hl, h⟩
    · simp [desBody, h, BodyResult.Keeps]
    · simp only [desBody, h]
      exact ⟨hd, by simp, .inl rfl, ht, hc, rfl⟩
    · have hd' := hd.advance (v := s.inPos + BitVec.ofNat 32 1) hl
      simp only [desBody, h]
      have hcount : s.nodes ≠ s.params.nodeCap →
          DataInv { s with inCur := s.inCur + 1, inPos := s.inPos + BitVec.ofNat 32 1, nodes := s.nodes + 1 } := by
        intro hcap
        refine ⟨hd'.params, hd'.cursor, hd'.totalFits, hd'.totalSum, hd'.freqSentinel, ?_, ?_, ?_, ?_⟩
        · have := hd.nodesFit; simp only; omega
        · simp [ht]
        · simp [ht]
        · simp [hc]
      split
      · exact ⟨hd', by simp, .inr rfl, ht, hc, rfl⟩
      · rename_i hcap
        split
        · exact .inr ⟨(hcount hcap).of_eq, rfl, rfl, .sym st, rfl, ⟨ht, hc, by simp [hn]⟩, rfl⟩
        · exact .inr ⟨(hcount hcap).of_eq, rfl, rfl, .tag (.left :: st), rfl,
            ⟨ht, hc, by simp [hn, framesSize]; omega⟩, rfl⟩
  | sym st =>
    obtain ⟨ht, hc, hn⟩ := hp
    rcases inRead_cases 9 s with ⟨_, h⟩ | ⟨_, _, h⟩ | ⟨_, hl, h⟩
    · simp [desBody, h, BodyResult.Keeps]
    · simp only [desBody, h]
      exact ⟨hd, by simp, .inl rfl, ht, hc, rfl⟩
    · have hd' := hd.advance (v := s.inPos + BitVec.ofNat 32 9) hl
      have hs := returnNode_size (.leaf (BitVec.ofNat 9 (bitsToNat (s.inputRest.take 9))) 0) st
      simp only [desBody, h]
      split <;> rename_i hr <;> rw [hr] at hs <;> simp only [HuffTree.size] at hs
      · exact .inr ⟨hd'.of_eq, rfl, rfl, .tag _, rfl, ⟨ht, hc, by simp only [hn]; omega⟩, rfl⟩
      · exact .inr ⟨hd'.of_eq, rfl, rfl, .store _, rfl, ⟨ht, hc, by simp only [hn]; omega⟩, rfl⟩
  | store t =>
    obtain ⟨ht, hc, hn⟩ := hp
    refine ⟨⟨hd.params, hd.cursor, hd.totalFits, hd.totalSum, hd.freqSentinel, hd.nodesFit, ?_, ?_, ?_⟩,
      rfl, rfl, rfl, rfl, rfl⟩
    · intro _; exact ⟨t, rfl, hn⟩
    · simp
    · simp [hc]

/-- CHECK_MAGIC (R200, R201). -/
theorem checkMagicBody_keeps (s : State) (hd : DataInv s) :
    (checkMagicBody s).Keeps s (fun _ => False)
      (fun s' => s'.freqValid = s.freqValid ∧ s'.treeValid = s.treeValid ∧ s'.codesValid = s.codesValid)
      (fun e s' => (e = .truncHeader ∨ e = .badMagic) ∧
        s'.freqValid = s.freqValid ∧ s'.treeValid = s.treeValid ∧ s'.codesValid = s.codesValid) := by
  rcases inRead_cases 32 s with ⟨_, h⟩ | ⟨_, _, h⟩ | ⟨_, hl, h⟩
  · simp [checkMagicBody, h, BodyResult.Keeps]
  · simp only [checkMagicBody, h]
    exact ⟨hd, by simp, .inl rfl, rfl, rfl, rfl⟩
  · have hd' := hd.advance (v := s.inPos + BitVec.ofNat 32 32) hl
    simp only [checkMagicBody, h]
    split
    · exact ⟨hd', rfl, rfl, rfl, rfl, rfl⟩
    · exact ⟨hd', by simp, .inr rfl, rfl, rfl, rfl⟩

/-- Under a valid code table every code has its length (R49). -/
theorem DataInv.len_eq {s : State} (hd : DataInv s) (hc : s.codesValid = true) (y : Fin 257) :
    s.len[y].toNat = s.code[y].length := by
  obtain ⟨ht, hs, t, htree, hlen, hcode⟩ := hd.codesMade hc
  obtain ⟨t', htree', hcomb⟩ := hd.builtTree ht hs
  rw [htree] at htree'
  cases htree'
  rw [hlen, hcode]
  exact codeTable_len_eq t (built_symbols_nodup hcomb) (built_fits hcomb) y

/-- ENCODE (R182 to R184) changes only the input position and the output. -/
theorem encBody_keeps (k : EncPos → Phase) (p : EncPos) (s : State) (hd : DataInv s) (hp : EncOk p s) :
    (encBody k p s).Keeps s (fun s' => ∃ p', s'.phase = k p' ∧ EncOk p' s')
      (fun s' => s'.codesValid = true) (fun e s' => e = .noCode ∧ s'.codesValid = true) := by
  have hemit : ∀ (y : Fin 257) (i : Nat) (s' : State), DataInv s' → s'.done = s.done → s'.errCode = s.errCode →
      s'.codesValid = true → (emitFrom k y i s').Keeps s (fun s' => ∃ p', s'.phase = k p' ∧ EncOk p' s')
      (fun s' => s'.codesValid = true) (fun e s' => e = .noCode ∧ s'.codesValid = true) := by
    intro y i s' hd' h1 h2 hc
    unfold emitFrom
    split
    · rename_i hi
      exact .inr ⟨hd'.of_eq, h1, h2, .emit y i, rfl, hc, hi⟩
    · split
      · exact ⟨hd', h1, h2, hc⟩
      · exact .inr ⟨hd'.of_eq, h1, h2, .read, rfl, hc⟩
  cases p with
  | reset => exact .inr ⟨hd.rewind.of_eq, rfl, rfl, .read, rfl, hp⟩
  | read =>
    rcases inRead_cases 8 s with ⟨_, h⟩ | ⟨_, _, h⟩ | ⟨_, hl, h⟩
    · simp [encBody, h, BodyResult.Keeps]
    · simp only [encBody, h]
      exact hemit _ _ s hd rfl rfl hp
    · have hd' := hd.advance (v := s.inPos + BitVec.ofNat 32 8) hl
      simp only [encBody, h]
      split
      · exact ⟨hd', by simp, rfl, hp⟩
      · exact hemit _ _ _ hd' rfl rfl hp
  | emit y i =>
    obtain ⟨hc, hi⟩ := hp
    have hlen := hd.len_eq hc y
    have hb : s.code[y][i]? = some s.code[y][i] := List.getElem?_eq_getElem (by omega)
    simp only [encBody, hb]
    exact hemit _ _ _ hd.of_eq rfl rfl hc

/-- DECODE (R202 to R205) changes only the input position and the output. -/
theorem decBody_keeps (k : DecPos → Phase) (p : DecPos) (s : State) (hd : DataInv s) (hp : DecOk p s) :
    (decBody k p s).Keeps s
      (fun s' => ∃ p', s'.phase = k p' ∧ DecOk p' s' ∧ s'.freqValid = s.freqValid ∧ s'.treeSrc = s.treeSrc)
      (fun s' => s'.treeValid = true ∧ s'.freqValid = s.freqValid ∧ s'.treeSrc = s.treeSrc)
      (fun e s' => e = .truncPayload ∧ s'.treeValid = true ∧ s'.freqValid = s.freqValid ∧ s'.treeSrc = s.treeSrc) := by
  have hland : ∀ (root t : HuffTree) (s' : State), s.tree = some root → t.Within root → s'.tree = s.tree →
      DataInv s' → s'.done = s.done → s'.errCode = s.errCode → s'.treeValid = true → s'.freqValid = s.freqValid →
      s'.treeSrc = s.treeSrc → (landOn k t s').Keeps s
      (fun s' => ∃ p', s'.phase = k p' ∧ DecOk p' s' ∧ s'.freqValid = s.freqValid ∧ s'.treeSrc = s.treeSrc)
      (fun s' => s'.treeValid = true ∧ s'.freqValid = s.freqValid ∧ s'.treeSrc = s.treeSrc)
      (fun e s' => e = .truncPayload ∧ s'.treeValid = true ∧ s'.freqValid = s.freqValid ∧ s'.treeSrc = s.treeSrc) := by
    intro root t s' hroot hw ht hd' h1 h2 hv hf hsrc
    cases t with
    | leaf y w =>
      simp only [landOn]
      split
      · exact ⟨hd', h1, h2, hv, hf, hsrc⟩
      · rename_i hy
        exact .inr ⟨hd'.of_eq, h1, h2, .out y, rfl, ⟨hv, hy⟩, hf, hsrc⟩
    | internal w l r =>
      exact .inr ⟨hd'.of_eq, h1, h2, .descending l r, rfl, ⟨hv, root, w, ht.trans hroot, hw⟩, hf, hsrc⟩
  cases p with
  | atRoot =>
    obtain ⟨root, hroot, _⟩ := hd.treeStored hp
    rcases inRead_cases 1 s with ⟨_, h⟩ | ⟨_, _, h⟩ | ⟨_, hl, h⟩
    · simp [decBody, hroot, h, BodyResult.Keeps]
    · simp only [decBody, hroot, h]
      exact ⟨hd, by simp, rfl, hp, rfl, rfl⟩
    · have hd' := hd.advance (v := s.inPos + BitVec.ofNat 32 1) hl
      simp only [decBody, hroot, h]
      refine hland root _ _ hroot ?_ hroot.symm (hd'.of_eq (h9 := hroot.symm)) rfl rfl hp rfl rfl
      cases root with
      | leaf y w => exact HuffTree.within_refl _
      | internal w l r =>
        simp only [fromRoot]
        have := HuffTree.within_child (HuffTree.within_refl (.internal w l r))
        split
        · exact this.1
        · exact this.2
  | descending l r =>
    obtain ⟨hv, root, w, hroot, hw⟩ := hp
    rcases inRead_cases 1 s with ⟨_, h⟩ | ⟨_, _, h⟩ | ⟨_, hl, h⟩
    · simp [decBody, h, BodyResult.Keeps]
    · simp only [decBody, h]
      exact ⟨hd, by simp, rfl, hv, rfl, rfl⟩
    · have hd' := hd.advance (v := s.inPos + BitVec.ofNat 32 1) hl
      simp only [decBody, h]
      refine hland root _ _ hroot ?_ rfl hd' rfl rfl hv rfl rfl
      split
      · exact (HuffTree.within_child hw).1
      · exact (HuffTree.within_child hw).2
  | out y => exact .inr ⟨hd.of_eq, rfl, rfl, .atRoot, rfl, hp.1, rfl, rfl⟩

end Sys2Proof.Machine
end

