-- ==== Sys2Proof/Laws/Codes.lean ====
section
/-!
SUPPORT. What the code table of a tree holds, and what a built tree and its codes are like (R140 to R153).
-/
namespace Sys2Proof.Machine

/-- The entry of each symbol is the code of its leaf, or empty (R150). -/
theorem codeTable_codeOf (t : HuffTree) (h : t.TableSymbols) (y : Fin 257) : (codeTable t).code[y] = t.codeOf y ∧ (codeTable t).len[y] = BitVec.ofNat 9 (t.codeOf y).length := by
  unfold HuffTree.codeOf
  split
  · rename_i p hp
    have h1 := List.mem_of_find?_eq_some hp
    have h2 := List.find?_some hp
    simp at h2
    have := codeTable_of_mem t h.1 (y := p.1) (p := p.2) h1 y h2
    exact ⟨this.2, this.1⟩
  · rename_i hp
    rw [List.find?_eq_none] at hp
    have := codeTable_of_not_mem t y (by
      intro a ha hay
      rw [← HuffTree.codes_symbols] at ha
      obtain ⟨p, hp', rfl⟩ := List.mem_map.1 ha
      exact hp p hp' (by simpa using hay))
    exact ⟨this.2, by rw [this.1]; rfl⟩

/-- At most 257 leaves (R145). -/
theorem HuffTree.TableSymbols.leaves_le (t : HuffTree) (h : t.TableSymbols) : t.leaves.length ≤ 257 := by
  have : ((t.leaves.map Prod.fst).map BitVec.toNat).Nodup := h.1.map (fun a b => BitVec.eq_of_toNat_eq)
  have h2 : ((t.leaves.map Prod.fst).map BitVec.toNat) ⊆ List.range 257 := by
    intro n hn
    simp at hn
    obtain ⟨a, ⟨b, hab⟩, rfl⟩ := hn
    have := h.2 _ hab
    simp at this ⊢; omega
  have := (List.Nodup.subperm this h2).length_le
  simpa using this

/-- Such a tree fits the code table (R49). -/
theorem HuffTree.TableSymbols.fits (t : HuffTree) (h : t.TableSymbols) : t.fitsTable 0 = true := by
  rw [HuffTree.fitsTable_iff]
  intro p hp
  have h1 := HuffTree.path_length_lt t p hp
  have h2 := HuffTree.TableSymbols.leaves_le t h
  have h3 : p.1 ∈ t.leaves.map Prod.fst := by rw [← HuffTree.paths_symbols]; exact List.mem_map_of_mem hp
  obtain ⟨q, hq, e⟩ := List.mem_map.1 h3
  have := h.2 q hq
  rw [e] at this
  omega

/-- The code table written out entry by entry (R150). -/
theorem codeTable_ofFn (t : HuffTree) (h : t.TableSymbols) : (codeTable t).len = Vector.ofFn (fun y => BitVec.ofNat 9 (t.codeOf y).length) ∧ (codeTable t).code = Vector.ofFn fun y => t.codeOf y := by
  constructor <;> apply Vector.ext <;> intro i hi <;> simp only [Vector.getElem_ofFn]
  · have := (codeTable_codeOf t h ⟨i, hi⟩).2; exact this
  · have := (codeTable_codeOf t h ⟨i, hi⟩).1; exact this

/-- One entry per nonzero count (R140). -/
theorem leafQueue_length (f : Vector Nat 257) : (leafQueue f).length = (leafEntries f).length := (leafQueue_perm f).length_eq

/-- BUILD makes a tree only of a FREQ with a nonzero entry (R140). -/
theorem buildTree_nonzero {f : Vector Nat 257} {t} (ht : buildTree f = some t) : ∃ y : Fin 257, f[y] ≠ 0 := by
  by_contra hc
  push Not at hc
  have e : f = Vector.replicate 257 0 := by
    apply Vector.ext; intro i hi; simpa using hc ⟨i, hi⟩
  rw [e] at ht
  revert ht
  have : buildTree (Vector.replicate 257 0) = none := by decide +kernel
  rw [this]; simp

/-- The tree BUILD makes is the one its loop makes (R140). -/
theorem buildTree_some {f : Vector Nat 257} {t} (ht : buildTree f = some t) : Combines 0 (leafEntries f) t := by
  obtain ⟨y, hy⟩ := buildTree_nonzero ht
  obtain ⟨t', ht', hc⟩ := buildTree_combines f y hy
  rw [ht] at ht'; cases ht'; exact hc

/-- Zero counts add nothing. -/
theorem sum_filter_nonzero (l : List (Fin 257)) (f : Vector Nat 257) : ((l.filter fun y => decide (f[y] ≠ 0)).map fun y => f[y]).sum = (l.map fun y => f[y]).sum := by
  induction l with
  | nil => rfl
  | cons x xs ih =>
    by_cases h : f[x] = 0
    · simp [-Fin.getElem_fin, h] at ih ⊢; exact ih
    · simp [-Fin.getElem_fin, h] at ih ⊢; omega

/-- The sum of all counts. -/
theorem toList_sum (f : Vector Nat 257) : f.toList.sum = ((List.finRange 257).map fun y => f[y]).sum := by
  congr 1
  apply List.ext_getElem <;> simp

/-- The weights in the first queue sum to all counts (R143). -/
theorem queueWeight_leafEntries (f : Vector Nat 257) : queueWeight (leafEntries f) = f.toList.sum := by
  rw [toList_sum, ← sum_filter_nonzero]
  unfold queueWeight leafEntries
  rw [List.map_map]
  rfl

/-- A leaf has no children to sum. -/
theorem leafEntries_weighted (f : Vector Nat 257) : ∀ e ∈ leafEntries f, e.node.Weighted := by
  intro e he
  unfold leafEntries at he
  simp at he
  obtain ⟨y, _, rfl⟩ := he
  trivial

/-- No node weighs more than the root (R143). -/
theorem HuffTree.Weighted.weight_le {n t : HuffTree} (hw : t.Weighted) (h : n.Within t) : n.weight ≤ t.weight := by
  induction t with
  | leaf y w => simp [HuffTree.Within] at h; subst h; exact le_refl _
  | internal w l r ihl ihr =>
    obtain ⟨h1, h2, h3⟩ := hw
    rcases h with h | h | h
    · subst h; exact le_refl _
    · have := ihl h2 h; simp only [HuffTree.weight] at *; omega
    · have := ihr h3 h; simp only [HuffTree.weight] at *; omega

/-- All counts are those of the bytes and that of the sentinel (R133). -/
theorem toList_sum_split (f : Vector Nat 257) : f.toList.sum = byteSum f + f[sentinelEntry] := by
  unfold byteSum
  conv_lhs => rw [← List.take_append_drop 256 f.toList]
  rw [List.sum_append]
  congr 1
  have : f.toList.drop 256 = [f[sentinelEntry]] := by
    rw [List.drop_eq_getElem_cons (by simp)]
    simp [sentinelEntry]
  rw [this]; simp

/-- A symbol has a code exactly if it has a leaf (R150). -/
theorem HuffTree.mem_codes_iff (t : HuffTree) (y : Sym) : (∃ c, (y, c) ∈ t.codes) ↔ ∃ w, (y, w) ∈ t.leaves := by
  have := HuffTree.codes_symbols t
  constructor
  · rintro ⟨c, h⟩
    have : y ∈ t.leaves.map Prod.fst := by rw [← this]; exact List.mem_map.2 ⟨_, h, rfl⟩
    obtain ⟨p, hp, rfl⟩ := List.mem_map.1 this
    exact ⟨p.2, hp⟩
  · rintro ⟨c, h⟩
    have : y ∈ t.codes.map Prod.fst := by rw [this]; exact List.mem_map.2 ⟨_, h, rfl⟩
    obtain ⟨p, hp, rfl⟩ := List.mem_map.1 this
    exact ⟨p.2, hp⟩

/-- No code is longer than max(1, L - 1) (R115). -/
theorem HuffTree.codes_length (t : HuffTree) (p) (h : p ∈ t.codes) : p.2.length ≤ max 1 (t.leaves.length - 1) := by
  cases t with
  | leaf y w => simp [HuffTree.codes] at h; simp [h]
  | internal w l r =>
    have := HuffTree.path_length_lt _ p h
    omega

/-- What the code table of a built tree holds for each symbol (R150, R153). -/
theorem built_code (f : Vector Nat 257) (t : HuffTree) (hc : Combines 0 (leafEntries f) t) (y : Fin 257) :
    (f[y] = 0 ∧ (codeTable t).len[y] = 0#9 ∧ (codeTable t).code[y] = []) ∨
    (f[y] ≠ 0 ∧ (codeTable t).len[y].toNat = (codeTable t).code[y].length ∧ (codeTable t).len[y] ≠ 0#9 ∧ (BitVec.ofNat 9 y.val, (codeTable t).code[y]) ∈ t.codes) := by
  have hn := built_symbols_nodup hc
  have hy : (BitVec.ofNat 9 y.val).toNat = y.val := by simp; omega
  by_cases h : f[y] = 0
  · left
    refine ⟨h, codeTable_of_not_mem t y ?_⟩
    intro a ha hay
    obtain ⟨p, hp, rfl⟩ := List.mem_map.1 ha
    obtain ⟨x, hx, h1, h2⟩ := (built_mem_leaves hc p.1 p.2).1 hp
    have : x = y := Fin.ext (by omega)
    subst this; omega
  · right
    obtain ⟨c, hcm⟩ := (HuffTree.mem_codes_iff t (BitVec.ofNat 9 y.val)).2 ⟨f[y], (built_mem_leaves hc _ _).2 ⟨y, hy.symm, rfl, h⟩⟩
    have h1 := codeTable_of_mem t hn hcm y hy
    have h2 := HuffTree.codes_pos t _ hcm
    have h3 := (HuffTree.fitsTable_code t (built_fits hc) _ hcm).2
    simp only at h2 h3
    refine ⟨h, codeTable_len_eq t hn (built_fits hc) y, ?_, h1.2 ▸ hcm⟩
    rw [h1.1]
    intro he
    have := congrArg BitVec.toNat he
    simp at this; omega

/-- The sentinel is counted once (R133). -/
theorem freqOf_sentinel (xs : List Byte) : (freqOf xs)[sentinelEntry] = 1 := by simp [freqOf, sentinelEntry]

/-- A byte of the input has a nonzero count (R133). -/
theorem freqOf_byte (xs : List Byte) (b : Byte) (h : b ∈ xs) : (freqOf xs)[byteEntry b] ≠ 0 := by
  intro h0
  have e : (freqOf xs)[byteEntry b] = if (byteEntry b).val = 256 then 1 else xs.countP fun c => decide (c.toNat = (byteEntry b).val) := by
    simp [freqOf]
  have hb : (byteEntry b).val ≠ 256 := by
    have := b.isLt
    show b.toNat ≠ 256
    omega
  rw [e, if_neg hb, List.countP_eq_zero] at h0
  exact h0 b h (by simp [byteEntry])

/-- A built tree has one leaf per table symbol (R145). -/
theorem built_tableSymbols {f : Vector Nat 257} {t} (hc : Combines 0 (leafEntries f) t) : t.TableSymbols := by
  refine ⟨built_symbols_nodup hc, ?_⟩
  intro p hp
  obtain ⟨x, hx, _⟩ := (built_mem_leaves hc p.1 p.2).1 hp
  omega

/-- The codes do not depend on the weights (R169). -/
theorem HuffTree.codes_eraseWeights (t : HuffTree) : t.eraseWeights.codes = t.codes := by
  cases t with
  | leaf y w => rfl
  | internal w l r => exact HuffTree.paths_eraseWeights (.internal w l r)

/-- Every byte of the input and the sentinel have a code (R109, R153). -/
theorem payload_codes (xs : List Byte) (t : HuffTree) (hc : Combines 0 (leafEntries (freqOf xs)) t) :
    (∀ b ∈ xs, (b.setWidth 9, (codeTable t).code[byteEntry b]) ∈ t.codes) ∧ (256#9, (codeTable t).code[sentinelEntry]) ∈ t.codes := by
  constructor
  · intro b hb
    rcases built_code _ _ hc (byteEntry b) with h | h
    · exact absurd h.1 (freqOf_byte xs b hb)
    · have : BitVec.ofNat 9 (byteEntry b).val = b.setWidth 9 := by
        apply BitVec.eq_of_toNat_eq; simp [byteEntry]
      rw [← this]; exact h.2.2.2
  · rcases built_code _ _ hc sentinelEntry with h | h
    · rw [freqOf_sentinel] at h; omega
    · exact h.2.2.2

end Sys2Proof.Machine
end

