-- ==== Sys2Proof/Laws/Runs.lean ====
section
/-!
SUPPORT. Steps and runs: whose turn it is, and how runs compose (R11, R88).
-/
namespace Sys2Proof.Machine

/-- With a turn pending, that turn is taken. -/
theorem step_cons (s : State) (t : Turn) (ts : List Turn) (h : s.agenda = t :: ts) :
    step s = takeTurn t { s with agenda := ts } := by
  simp [step, nextTurn, h]

/-- With no turn pending, the core takes its turn. -/
theorem step_nil (s : State) (h : s.agenda = []) : step s = coreTurn s := by
  simp [step, nextTurn, h, takeTurn]

/-- In a quiet state a running command's `exec` is the step. -/
theorem Quiet.step {s t : State} {i : Instr} (hq : Quiet s) (hr : s.phase.running = some i) (h : exec i s = .next t) :
    step s = .next t := by
  rw [step_nil s hq.1, coreTurn, hr]; exact h

theorem RunsIn.zero (s : State) : RunsIn 0 s s := rfl

theorem run_cons (M : Host.Core) (k : Nat) (s u : M.State) (h : M.step s = .next u) :
    M.run (k + 1) s = M.run k u := by
  rw [Host.Core.run, h]

theorem run_uncons (M : Host.Core) (k : Nat) (s t : M.State) (h : M.run (k + 1) s = .next t) :
    ∃ u, M.step s = .next u ∧ M.run k u = .next t := by
  rw [Host.Core.run] at h
  cases hs : M.step s with
  | next u => rw [hs] at h; exact ⟨u, rfl, h⟩
  | fault r => rw [hs] at h; cases h
  | refused r => rw [hs] at h; cases h

/-- One step and then a run. -/
theorem RunsIn.cons {k : Nat} {s u t : State} (h : Machine.step s = .next u) (hr : RunsIn k u t) : RunsIn (k + 1) s t :=
  (run_cons Sys2Proof.core k s u h).trans hr

theorem RunsIn.one {s t : State} (h : Machine.step s = .next t) : RunsIn 1 s t := .cons h (.zero t)

/-- The first step of a run. -/
theorem RunsIn.uncons {k : Nat} {s t : State} (h : RunsIn (k + 1) s t) :
    ∃ u, Machine.step s = .next u ∧ RunsIn k u t :=
  run_uncons Sys2Proof.core k s t h

theorem RunsIn.trans {a b : Nat} {s u t : State} (h : RunsIn a s u) (h' : RunsIn b u t) : RunsIn (a + b) s t := by
  induction a generalizing s with
  | zero => cases h; simpa using h'
  | succ a ih =>
    obtain ⟨v, hv, hr⟩ := h.uncons
    rw [Nat.add_right_comm]
    exact .cons hv (ih hr)

theorem RunsTo.refl (s : State) : RunsTo s s := ⟨0, .zero s⟩

theorem RunsTo.cons {s u t : State} (h : Machine.step s = .next u) (hr : RunsTo u t) : RunsTo s t := by
  obtain ⟨k, hk⟩ := hr
  exact ⟨k + 1, .cons h hk⟩

theorem RunsTo.trans {s u t : State} (h : RunsTo s u) (h' : RunsTo u t) : RunsTo s t := by
  obtain ⟨a, ha⟩ := h
  obtain ⟨b, hb⟩ := h'
  exact ⟨a + b, ha.trans hb⟩

/-! ### What the input stream still holds -/

/-- Moving the cursor past the bits that come next. -/
theorem State.inputRest_drop {bits a rest : Bits} {c n : Nat} (h : bits.drop c = a ++ rest) (hn : a.length = n) :
    bits.drop (c + n) = rest := by
  rw [← List.drop_drop, h, ← hn, List.drop_left]

/-- IN_POS and OUT_LEN advance additively (R36, R37). -/
theorem ofNat_add_ofNat (p : Word) (a b : Nat) :
    p + BitVec.ofNat 32 a + BitVec.ofNat 32 b = p + BitVec.ofNat 32 (a + b) := by
  rw [BitVec.add_assoc, ← BitVec.ofNat_add]

end Sys2Proof.Machine
end

