-- ==== Sys2Proof/Laws/BodyRuns.lean ====
section
/-!
SUPPORT. The runs of the bodies that loop: COUNT, SERIALIZE, DESERIALIZE, ENCODE and DECODE, each up to its last step, as
a command and inside a composite command.
-/
namespace Sys2Proof.Machine

/-! ### A body's step that goes on is the step of the command that runs it -/

theorem Quiet.stepAt {s t : State} {i : Instr} {p : Phase} (hq : Quiet s) (hp : s.phase = p) (hr : p.running = some i)
    (h : exec i s = .next t) : Machine.step s = .next t :=
  hq.step (by rw [hp, hr]) h

theorem RunsCount.cont {i : Instr} {k : CountPos → Phase} (h : RunsCount i k) {s t : State} {p : CountPos}
    (hq : Quiet s) (hp : s.phase = k p) (hb : countBody k p s = .cont t) : Machine.step s = .next t := by
  rcases h with ⟨rfl, rfl⟩ | ⟨rfl, rfl⟩ <;> refine hq.stepAt hp rfl ?_ <;>
    simp [exec, execCount, execCompress, compressStep, hp, hb]

theorem RunsSerialize.cont {i : Instr} {k : SerPos → Phase} (h : RunsSerialize i k) {s t : State} {p : SerPos}
    (hq : Quiet s) (hp : s.phase = k p) (hb : serBody k p s = .cont t) : Machine.step s = .next t := by
  rcases h with ⟨rfl, rfl⟩ | ⟨rfl, rfl⟩ <;> refine hq.stepAt hp rfl ?_ <;>
    simp [exec, execSerialize, execCompress, compressStep, hp, hb]

theorem RunsDeserialize.cont {i : Instr} {k : DesPos → Phase} (h : RunsDeserialize i k) {s t : State} {p : DesPos}
    (hq : Quiet s) (hp : s.phase = k p) (hb : desBody k p s = .cont t) : Machine.step s = .next t := by
  rcases h with ⟨rfl, rfl⟩ | ⟨rfl, rfl⟩ <;> refine hq.stepAt hp rfl ?_ <;>
    simp [exec, execDeserialize, execDecompress, decompressStep, hp, hb]

theorem RunsEncode.cont {i : Instr} {k : EncPos → Phase} (h : RunsEncode i k) {s t : State} {p : EncPos}
    (hq : Quiet s) (hp : s.phase = k p) (hb : encBody k p s = .cont t) : Machine.step s = .next t := by
  rcases h with ⟨rfl, rfl⟩ | ⟨rfl, rfl⟩ <;> refine hq.stepAt hp rfl ?_ <;>
    simp [exec, execEncode, execCompress, compressStep, hp, hb]

theorem RunsDecode.cont {i : Instr} {k : DecPos → Phase} (h : RunsDecode i k) {s t : State} {p : DecPos}
    (hq : Quiet s) (hp : s.phase = k p) (hb : decBody k p s = .cont t) : Machine.step s = .next t := by
  rcases h with ⟨rfl, rfl⟩ | ⟨rfl, rfl⟩ <;> refine hq.stepAt hp rfl ?_ <;>
    simp [exec, execDecode, execDecompress, decompressStep, hp, hb]

/-! ### COUNT (R130, R133) -/

/-- FREQ after counting the words `xs`. -/
def tally (f : Vector Nat 257) : List Byte → Vector Nat 257
  | [] => f
  | b :: bs => tally (f.set (byteEntry b) (f[byteEntry b] + 1)) bs

theorem tally_get (xs : List Byte) (f : Vector Nat 257) (y : Fin 257) :
    (tally f xs)[y] = f[y] + xs.countP (fun b => decide (b.toNat = y.val)) := by
  induction xs generalizing f with
  | nil => simp [tally]
  | cons b bs ih =>
    rw [tally, ih, List.countP_cons]
    by_cases h : b.toNat = y.val
    · have : byteEntry b = y := Fin.ext h
      subst this
      simp [byteEntry]; omega
    · have : (byteEntry b).val ≠ y.val := h
      simp [this, h]

/-- Counting from an empty table and then setting the sentinel's count gives the table of the input (R133). -/
theorem tally_freqOf (xs : List Byte) : (tally (Vector.replicate 257 0) xs).set sentinelEntry 1 = freqOf xs := by
  apply Vector.ext
  intro i hi
  by_cases h : i = 256
  · subst h; simp [freqOf, sentinelEntry]
  · have h1 := tally_get xs (Vector.replicate 257 0) ⟨i, hi⟩
    have : sentinelEntry.val ≠ i := by simp [sentinelEntry]; omega
    rw [Vector.getElem_set_ne (h := this)]
    simp at h1
    simp [freqOf, h, h1]

theorem countBody_word (k : CountPos → Phase) {s : State} (ha : s.inAnswers = true) (b : Byte) {rest : Bits}
    (hb : s.inputRest = bitsOf 8 b.toNat ++ rest) (hn : s.total ≠ 2 ^ s.params.countW - 2) :
    countBody k .loop s = .cont
      { s with
        inCur := s.inCur + 8, inPos := s.inPos + 8#32
        freq := s.freq.set (byteEntry b) (s.freq[byteEntry b] + 1), total := s.total + 1, phase := k .loop } := by
  have hr := inRead_bitsOf ha b.toNat hb (by omega)
  simp [countBody, hr, hn, countWord]

/-- COUNT's loop over whole words followed by fewer than eight bits. -/
theorem count_run {i : Instr} {k : CountPos → Phase} (hk : RunsCount i k) (xs : List Byte) :
    ∀ (s : State) (tail : Bits), Quiet s → s.phase = k .loop → s.inputRest = unpackBytes xs ++ tail → tail.length < 8 →
    s.total + xs.length ≤ 2 ^ s.params.countW - 2 →
    RunsIn (xs.length + 1) s
      { s with
        freq := tally s.freq xs, total := s.total + xs.length, inCur := s.inCur + 8 * xs.length
        inPos := s.inPos + BitVec.ofNat 32 (8 * xs.length), phase := k .finish } := by
  induction xs with
  | nil =>
    intro s tail hq hp hb ht hn
    have h : countBody k .loop s = .cont { s with phase := k .finish } := by
      simp [countBody, inRead_eos_of_rest hq.2 (show s.inputRest.length < 8 by rw [hb]; simpa using ht)]
    simpa [tally] using RunsIn.one (hk.cont hq hp h)
  | cons b bs ih =>
    intro s tail hq hp hb ht hn
    simp only [List.length_cons] at hn
    rw [unpackBytes_cons, List.append_assoc] at hb
    have h := countBody_word k hq.2 b hb (by omega)
    have h2 := ih
      { s with
        inCur := s.inCur + 8, inPos := s.inPos + 8#32
        freq := s.freq.set (byteEntry b) (s.freq[byteEntry b] + 1), total := s.total + 1, phase := k .loop }
      tail hq rfl (State.inputRest_drop hb (by simp)) ht (by simp only; omega)
    have h3 := RunsIn.cons (hk.cont hq hp h) h2
    have e1 : s.inPos + 8#32 + BitVec.ofNat 32 (8 * bs.length) = s.inPos + BitVec.ofNat 32 (8 * (bs.length + 1)) := by
      rw [ofNat_add_ofNat]; congr 2; omega
    have e2 : s.inCur + 8 + 8 * bs.length = s.inCur + 8 * (bs.length + 1) := by omega
    have e3 : s.total + 1 + bs.length = s.total + (bs.length + 1) := by omega
    simp only [e1, e2, e3] at h3
    exact h3

/-! ### SERIALIZE (R160, R161) -/

/-- Writing a subtree, up to the symbol of its last leaf. -/
theorem ser_run {i : Instr} {k : SerPos → Phase} (hk : RunsSerialize i k) (t : HuffTree) :
    ∀ (s : State) (rest : List HuffTree), Quiet s →
    (s.phase = k (.node t rest) ∨ (rest = [] ∧ s.phase = k .start ∧ s.tree = some t)) →
    ∃ (y : Sym) (pre : Bits), t.header = pre ++ bitsOf 9 y.toNat ∧
      RunsIn (t.size + t.leaves.length - 1) s
        { s with
          outCur := s.outCur ++ pre, outLen := s.outLen + BitVec.ofNat 32 pre.length, phase := k (.sym y rest) } := by
  have first : ∀ (t : HuffTree) (s u : State) (rest : List HuffTree), Quiet s →
      (s.phase = k (.node t rest) ∨ (rest = [] ∧ s.phase = k .start ∧ s.tree = some t)) →
      serNode k t rest s = .cont u → step s = .next u := by
    intro t s u rest hq hp h
    rcases hp with hp | ⟨rfl, hp, ht⟩
    · exact hk.cont hq hp h
    · exact hk.cont hq hp (by simp only [serBody, ht]; exact h)
  induction t with
  | leaf y w =>
    intro s rest hq hp
    exact ⟨y, [true], rfl, .one (first _ s _ rest hq hp rfl)⟩
  | internal w l r ihl ihr =>
    intro s rest hq hp
    have h0 := first _ s _ rest hq hp rfl
    obtain ⟨y1, p1, e1, r1⟩ := ihl
      { s with outCur := s.outCur ++ [false], outLen := s.outLen + 1#32, phase := k (.node l (r :: rest)) }
      (r :: rest) hq (.inl rfl)
    have h1 : serBody k (.sym y1 (r :: rest))
        { s with
          outCur := s.outCur ++ [false] ++ p1, outLen := s.outLen + 1#32 + BitVec.ofNat 32 p1.length
          phase := k (.sym y1 (r :: rest)) } = .cont
        { s with
          outCur := s.outCur ++ [false] ++ p1 ++ bitsOf 9 y1.toNat
          outLen := s.outLen + 1#32 + BitVec.ofNat 32 p1.length + 9#32, phase := k (.node r rest) } := by
      have : y1.toNat % 4294967296 = y1.toNat := Nat.mod_eq_of_lt (by omega)
      simp [serBody, outWrite, this]
    obtain ⟨y2, p2, e2, r2⟩ := ihr
      { s with
        outCur := s.outCur ++ [false] ++ p1 ++ bitsOf 9 y1.toNat
        outLen := s.outLen + 1#32 + BitVec.ofNat 32 p1.length + 9#32, phase := k (.node r rest) } rest hq (.inl rfl)
    refine ⟨y2, false :: (p1 ++ bitsOf 9 y1.toNat ++ p2), by simp [HuffTree.header, e1, e2], ?_⟩
    have hl := l.leaves_pos
    have hr := r.leaves_pos
    have e : (HuffTree.internal w l r).size + (HuffTree.internal w l r).leaves.length - 1 =
        ((l.size + l.leaves.length - 1) + ((r.size + r.leaves.length - 1) + 1)) + 1 := by
      simp only [HuffTree.size, HuffTree.leaves, List.length_append]; omega
    rw [e]
    have hR := RunsIn.cons h0 (r1.trans (.cons (hk.cont hq rfl h1) r2))
    have e3 : s.outLen + 1#32 + BitVec.ofNat 32 p1.length + 9#32 + BitVec.ofNat 32 p2.length =
        s.outLen + BitVec.ofNat 32 (false :: (p1 ++ bitsOf 9 y1.toNat ++ p2)).length := by
      rw [ofNat_add_ofNat, ofNat_add_ofNat, ofNat_add_ofNat]
      congr 2; simp; omega
    have e4 : s.outCur ++ [false] ++ p1 ++ bitsOf 9 y1.toNat ++ p2 =
        s.outCur ++ (false :: (p1 ++ bitsOf 9 y1.toNat ++ p2)) := by simp
    simp only [e3] at hR
    rw [← e4]
    exact hR

/-! ### DESERIALIZE (R165, R169) -/

theorem desBody_tag (k : DesPos → Phase) {s : State} (ha : s.inAnswers = true) (st : List Frame) (b : Bool) {rest : Bits}
    (hn : s.nodes ≠ s.params.nodeCap) (hb : s.inputRest = b :: rest) :
    desBody k (.tag st) s = .cont
      { s with
        inCur := s.inCur + 1, inPos := s.inPos + 1#32, nodes := s.nodes + 1
        phase := k (if b then .sym st else .tag (.left :: st)) } := by
  have hr := inRead_one ha hb
  cases b <;> simp [desBody, hr, hn]

theorem desBody_sym (k : DesPos → Phase) {s : State} (ha : s.inAnswers = true) (st st' : List Frame) (y : Sym) {rest : Bits}
    (hb : s.inputRest = bitsOf 9 y.toNat ++ rest) (h : returnNode (.leaf y 0) st = .more st') :
    desBody k (.sym st) s = .cont { s with inCur := s.inCur + 9, inPos := s.inPos + 9#32, phase := k (.tag st') } := by
  have hr := inRead_bitsOf ha y.toNat hb (by omega)
  simp [desBody, hr, h]

/-- Reading the header of a subtree, up to the symbol of its last leaf; returning that leaf returns the subtree. -/
theorem des_run {i : Instr} {k : DesPos → Phase} (hk : RunsDeserialize i k) (t : HuffTree) :
    ∀ (s : State) (st : List Frame) (rest : Bits), Quiet s → s.phase = k (.tag st) → s.inputRest = t.header ++ rest →
    s.nodes + t.size ≤ s.params.nodeCap →
    ∃ (y : Sym) (c : Nat) (st' : List Frame), c + 9 = t.header.length ∧
      returnNode (.leaf y 0) st' = returnNode t.eraseWeights st ∧
      s.inBits.drop (s.inCur + c) = bitsOf 9 y.toNat ++ rest ∧
      RunsIn (t.size + t.leaves.length - 1) s
        { s with
          inCur := s.inCur + c, inPos := s.inPos + BitVec.ofNat 32 c, nodes := s.nodes + t.size
          phase := k (.sym st') } := by
  induction t with
  | leaf y w =>
    intro s st rest hq hp hb hn
    simp only [HuffTree.size] at hn
    have hb' : s.inputRest = true :: (bitsOf 9 y.toNat ++ rest) := hb
    exact ⟨y, 1, st, rfl, rfl, State.inputRest_drop (a := [true]) hb' rfl,
      .one (hk.cont hq hp (desBody_tag k hq.2 st true (by omega) hb'))⟩
  | internal w l r ihl ihr =>
    intro s st rest hq hp hb hn
    simp only [HuffTree.size] at hn
    have hb' : s.inputRest = false :: (l.header ++ (r.header ++ rest)) := by rw [hb]; simp [HuffTree.header]
    have h0 := hk.cont hq hp (desBody_tag k hq.2 st false (by have := l.size_pos; omega) hb')
    obtain ⟨y1, c1, st1, hc1, hr1, hd1, run1⟩ := ihl
      { s with inCur := s.inCur + 1, inPos := s.inPos + 1#32, nodes := s.nodes + 1, phase := k (.tag (.left :: st)) }
      (.left :: st) (r.header ++ rest) hq rfl (State.inputRest_drop (a := [false]) hb' rfl) (by simp only; omega)
    have hret : returnNode (.leaf y1 0) st1 = .more (.right l.eraseWeights :: st) := by rw [hr1]; rfl
    have hsym := desBody_sym k
      (s := { s with
        inCur := s.inCur + 1 + c1, inPos := s.inPos + 1#32 + BitVec.ofNat 32 c1, nodes := s.nodes + 1 + l.size
        phase := k (.sym st1) }) hq.2 st1 _ y1 hd1 hret
    have hb2 : s.inBits.drop (s.inCur + 1 + c1 + 9) = r.header ++ rest := State.inputRest_drop hd1 (by simp)
    obtain ⟨y2, c2, st2, hc2, hr2, hd2, run2⟩ := ihr
      { s with
        inCur := s.inCur + 1 + c1 + 9, inPos := s.inPos + 1#32 + BitVec.ofNat 32 c1 + 9#32
        nodes := s.nodes + 1 + l.size, phase := k (.tag (.right l.eraseWeights :: st)) }
      (.right l.eraseWeights :: st) rest hq rfl hb2 (by simp only; omega)
    simp only at hd2
    refine ⟨y2, 1 + c1 + 9 + c2, st2, ?_, hr2, ?_, ?_⟩
    · simp only [HuffTree.header, List.length_cons, List.length_append]; omega
    · rw [← hd2]; congr 1; omega
    · have hl := l.leaves_pos
      have hr := r.leaves_pos
      have e : (HuffTree.internal w l r).size + (HuffTree.internal w l r).leaves.length - 1 =
          ((l.size + l.leaves.length - 1) + ((r.size + r.leaves.length - 1) + 1)) + 1 := by
        simp only [HuffTree.size, HuffTree.leaves, List.length_append]; omega
      rw [e]
      have hR := RunsIn.cons h0 (run1.trans (.cons (hk.cont hq rfl hsym) run2))
      have e3 : s.inPos + 1#32 + BitVec.ofNat 32 c1 + 9#32 + BitVec.ofNat 32 c2 =
          s.inPos + BitVec.ofNat 32 (1 + c1 + 9 + c2) := by
        rw [ofNat_add_ofNat, ofNat_add_ofNat, ofNat_add_ofNat]; congr 2; omega
      have e4 : s.inCur + 1 + c1 + 9 + c2 = s.inCur + (1 + c1 + 9 + c2) := by omega
      have e5 : s.nodes + 1 + l.size + r.size = s.nodes + (1 + l.size + r.size) := by omega
      simp only [e3, e4, e5] at hR
      exact hR

/-- DESERIALIZE from its start, up to the symbol of the last leaf. -/
theorem des_from_start {i : Instr} {k : DesPos → Phase} (hk : RunsDeserialize i k) (t : HuffTree) (s : State) (rest : Bits)
    (hq : Quiet s) (hp : s.phase = k .start) (hb : s.inputRest = t.header ++ rest) (hn : t.size ≤ s.params.nodeCap) :
    ∃ (y : Sym) (c : Nat) (st' : List Frame), c + 9 = t.header.length ∧
      returnNode (.leaf y 0) st' = .complete t.eraseWeights ∧ s.inBits.drop (s.inCur + c) = bitsOf 9 y.toNat ++ rest ∧
      RunsIn (t.size + t.leaves.length) s
        { s with
          inCur := s.inCur + c, inPos := s.inPos + BitVec.ofNat 32 c, nodes := t.size
          treeValid := false, codesValid := false, phase := k (.sym st') } := by
  obtain ⟨y, c, st', h1, h2, h3, h4⟩ := des_run hk t
    { s with treeValid := false, codesValid := false, nodes := 0, phase := k (.tag []) } [] rest hq rfl hb
    (by simp only; omega)
  refine ⟨y, c, st', h1, h2, h3, ?_⟩
  have hl := t.leaves_pos
  have e : t.size + t.leaves.length = (t.size + t.leaves.length - 1) + 1 := by omega
  rw [e]
  simp only [Nat.zero_add] at h4
  exact .cons (hk.cont hq hp rfl) h4

/-- Reading a whole header from the start of DESERIALIZE, up to its last assignments (R165, R167, R169). -/
theorem des_to_store {i : Instr} {k : DesPos → Phase} (hk : RunsDeserialize i k) (t : HuffTree) (s : State) (rest : Bits)
    (hq : Quiet s) (hp : s.phase = k .start) (hb : s.inputRest = t.header ++ rest) (hn : t.size ≤ s.params.nodeCap) :
    RunsIn (t.size + t.leaves.length + 1) s
      { s with
        inCur := s.inCur + t.header.length, inPos := s.inPos + BitVec.ofNat 32 t.header.length, nodes := t.size
        treeValid := false, codesValid := false, phase := k (.store t.eraseWeights) } := by
  obtain ⟨y, c, st, h1, h2, h3, h4⟩ := des_from_start hk t s rest hq hp hb hn
  have h : desBody k (.sym st)
      { s with
        inCur := s.inCur + c, inPos := s.inPos + BitVec.ofNat 32 c, nodes := t.size
        treeValid := false, codesValid := false, phase := k (.sym st) } = .cont
      { s with
        inCur := s.inCur + c + 9, inPos := s.inPos + BitVec.ofNat 32 c + 9#32, nodes := t.size
        treeValid := false, codesValid := false, phase := k (.store t.eraseWeights) } := by
    simp only [desBody]
    rw [inRead_bitsOf (n := 9) (by exact hq.2) y.toNat (by exact h3) (by omega)]
    simp [h2]
  have h5 := h4.trans (.one (hk.cont hq rfl h))
  have e1 : s.inCur + c + 9 = s.inCur + t.header.length := by omega
  have e2 : s.inPos + BitVec.ofNat 32 c + 9#32 = s.inPos + BitVec.ofNat 32 t.header.length := by
    rw [ofNat_add_ofNat, h1]
  simp only [e1, e2] at h5
  exact h5

/-! ### ENCODE (R182, R183) -/

theorem length_pos_of_len {s : State} {y : Fin 257} (hl : s.len[y].toNat = s.code[y].length) (h0 : s.len[y] ≠ 0#9) :
    0 < s.code[y].length := by
  rw [← hl]
  by_contra hc
  exact h0 (BitVec.eq_of_toNat_eq (by simpa [-Fin.getElem_fin] using hc))

theorem encBody_bit (k : EncPos → Phase) {s : State} (y : Fin 257) (j : Nat) (b : Bool) (hb : s.code[y][j]? = some b) :
    encBody k (.emit y j) s =
      emitFrom k y (j + 1) { s with outCur := s.outCur ++ [b], outLen := s.outLen + 1#32 } := by
  cases b <;> simp [-Fin.getElem_fin, encBody, hb, outWrite]

/-- Writing code bits `j` to `j + n - 1`, the code having at least one more. -/
theorem emit_run {i : Instr} {k : EncPos → Phase} (hk : RunsEncode i k) (y : Fin 257) (n : Nat) :
    ∀ (s : State) (j : Nat), Quiet s → s.phase = k (.emit y j) → s.len[y].toNat = s.code[y].length →
    j + n + 1 = s.code[y].length →
    RunsIn n s
      { s with
        outCur := s.outCur ++ (s.code[y].drop j).take n, outLen := s.outLen + BitVec.ofNat 32 n
        phase := k (.emit y (j + n)) } := by
  induction n with
  | zero =>
    intro s j hq hp hl hn
    simp [← hp]; exact .zero s
  | succ n ih =>
    intro s j hq hp hl hn
    have hb : s.code[y][j]? = some s.code[y][j] := List.getElem?_eq_getElem (by omega)
    have h : encBody k (.emit y j) s = .cont
        { s with outCur := s.outCur ++ [s.code[y][j]], outLen := s.outLen + 1#32, phase := k (.emit y (j + 1)) } := by
      rw [encBody_bit k y j _ hb]
      exact if_pos (show j + 1 < s.len[y].toNat by omega)
    have h2 := ih
      { s with outCur := s.outCur ++ [s.code[y][j]], outLen := s.outLen + 1#32, phase := k (.emit y (j + 1)) }
      (j + 1) hq rfl hl (by simp only; omega)
    have h3 := RunsIn.cons (hk.cont hq hp h) h2
    have e1 : s.outLen + 1#32 + BitVec.ofNat 32 n = s.outLen + BitVec.ofNat 32 (n + 1) := by
      rw [ofNat_add_ofNat]; congr 2; omega
    have e2 : s.outCur ++ [s.code[y][j]] ++ (s.code[y].drop (j + 1)).take n =
        s.outCur ++ (s.code[y].drop j).take (n + 1) := by
      conv_rhs => rw [List.drop_eq_getElem_cons (by omega), List.take_succ_cons]
      simp
    have e3 : j + 1 + n = j + (n + 1) := by omega
    simp only [e1, e2, e3] at h3
    exact h3

/-- `EmitCode(y)` up to its last bit (R182). -/
theorem emit_all {i : Instr} {k : EncPos → Phase} (hk : RunsEncode i k) (y : Fin 257) (s : State) (hq : Quiet s)
    (hp : s.phase = k (.emit y 0)) (hl : s.len[y].toNat = s.code[y].length) (h0 : s.len[y] ≠ 0#9) :
    ∃ (n : Nat) (pre : Bits) (b : Bool), s.code[y] = pre ++ [b] ∧ pre.length = n ∧ s.code[y][n]? = some b ∧
      s.len[y].toNat ≤ n + 1 ∧
      RunsIn n s
        { s with outCur := s.outCur ++ pre, outLen := s.outLen + BitVec.ofNat 32 n, phase := k (.emit y n) } := by
  have hpos := length_pos_of_len hl h0
  have hne : s.code[y] ≠ [] := by intro h; rw [h] at hpos; simp at hpos
  have h := emit_run hk y (s.code[y].length - 1) s 0 hq hp hl (by omega)
  have e : (s.code[y].drop 0).take (s.code[y].length - 1) = s.code[y].dropLast := by
    rw [List.drop_zero, List.dropLast_eq_take]
  simp only [e, Nat.zero_add] at h
  refine ⟨s.code[y].length - 1, s.code[y].dropLast, s.code[y].getLast hne,
    (List.dropLast_append_getLast hne).symm, by simp, ?_, by omega, h⟩
  rw [List.getElem?_eq_getElem (by omega), List.getLast_eq_getElem]

theorem byteEntry_ne_sentinel (b : Byte) : byteEntry b ≠ sentinelEntry := by
  intro h
  have := congrArg Fin.val h
  simp only [byteEntry, sentinelEntry] at this
  omega

/-- ENCODE's loop, up to the last bit of the sentinel's code. -/
theorem enc_run {i : Instr} {k : EncPos → Phase} (hk : RunsEncode i k) (xs : List Byte) :
    ∀ (s : State) (tail : Bits), Quiet s → s.phase = k .read → s.inputRest = unpackBytes xs ++ tail → tail.length < 8 →
    (∀ y : Fin 257, s.len[y].toNat = s.code[y].length) → (∀ b ∈ xs, s.len[byteEntry b] ≠ 0#9) →
    s.len[sentinelEntry] ≠ 0#9 →
    ∃ (n : Nat) (pre : Bits) (b : Bool), payloadBits s.code xs = pre ++ [b] ∧
      s.code[sentinelEntry][n]? = some b ∧ s.len[sentinelEntry].toNat ≤ n + 1 ∧
      RunsTo s
        { s with
          inCur := s.inCur + 8 * xs.length, inPos := s.inPos + BitVec.ofNat 32 (8 * xs.length)
          outCur := s.outCur ++ pre, outLen := s.outLen + BitVec.ofNat 32 pre.length
          phase := k (.emit sentinelEntry n) } := by
  induction xs with
  | nil =>
    intro s tail hq hp hb ht hlen hx hs
    have h : encBody k .read s = .cont { s with phase := k (.emit sentinelEntry 0) } := by
      have hr := inRead_eos_of_rest hq.2 (show s.inputRest.length < 8 by rw [hb]; simpa using ht)
      simp only [encBody, hr]
      exact if_pos (hlen _ ▸ length_pos_of_len (hlen _) hs)
    obtain ⟨n, pre, b, h1, h2, h3, h4, h5⟩ :=
      emit_all hk sentinelEntry { s with phase := k (.emit sentinelEntry 0) } hq rfl (hlen _) hs
    refine ⟨n, pre, b, by simpa [payloadBits] using h1, h3, h4, ?_⟩
    have := RunsTo.cons (hk.cont hq hp h) ⟨n, h5⟩
    simpa [h2] using this
  | cons x xs ih =>
    intro s tail hq hp hb ht hlen hx hs
    rw [unpackBytes_cons, List.append_assoc] at hb
    have hx0 := hx x (by simp)
    have h : encBody k .read s = .cont
        { s with inCur := s.inCur + 8, inPos := s.inPos + 8#32, phase := k (.emit (byteEntry x) 0) } := by
      have hr := inRead_bitsOf hq.2 x.toNat hb (by omega)
      simp only [encBody, hr, BitVec.ofNat_toNat, BitVec.setWidth_eq, if_neg hx0]
      exact if_pos (hlen _ ▸ length_pos_of_len (hlen _) hx0)
    obtain ⟨m, pre1, b1, h1, h2, h3, h4, h5⟩ := emit_all hk (byteEntry x)
      { s with inCur := s.inCur + 8, inPos := s.inPos + 8#32, phase := k (.emit (byteEntry x) 0) } hq rfl (hlen _) hx0
    have h6 : encBody k (.emit (byteEntry x) m)
        { s with
          inCur := s.inCur + 8, inPos := s.inPos + 8#32, outCur := s.outCur ++ pre1
          outLen := s.outLen + BitVec.ofNat 32 m, phase := k (.emit (byteEntry x) m) } = .cont
        { s with
          inCur := s.inCur + 8, inPos := s.inPos + 8#32, outCur := s.outCur ++ pre1 ++ [b1]
          outLen := s.outLen + BitVec.ofNat 32 m + 1#32, phase := k .read } := by
      refine (encBody_bit k _ m b1 (by exact h3)).trans ?_
      exact (if_neg (Nat.not_lt.2 h4)).trans (if_neg (byteEntry_ne_sentinel x))
    obtain ⟨n, pre, b, g1, g2, g3, g4⟩ := ih
      { s with
        inCur := s.inCur + 8, inPos := s.inPos + 8#32, outCur := s.outCur ++ pre1 ++ [b1]
        outLen := s.outLen + BitVec.ofNat 32 m + 1#32, phase := k .read }
      tail hq rfl (State.inputRest_drop hb (by simp)) ht hlen (fun b hb => hx b (by simp [hb])) hs
    refine ⟨n, s.code[byteEntry x] ++ pre, b, ?_, g2, g3, ?_⟩
    · simp only [payloadBits, List.flatMap_cons, List.append_assoc] at g1 ⊢; rw [g1]
    · have hR := RunsTo.cons (hk.cont hq hp h) (RunsTo.trans ⟨m, h5⟩ (RunsTo.cons (hk.cont hq rfl h6) g4))
      have h1 : s.code[byteEntry x] = pre1 ++ [b1] := h1
      have e1 : s.outLen + BitVec.ofNat 32 m + 1#32 + BitVec.ofNat 32 pre.length =
          s.outLen + BitVec.ofNat 32 (s.code[byteEntry x] ++ pre).length := by
        rw [ofNat_add_ofNat, ofNat_add_ofNat, h1]; congr 2; simp [h2]; omega
      have e2 : s.outCur ++ pre1 ++ [b1] ++ pre = s.outCur ++ (s.code[byteEntry x] ++ pre) := by rw [h1]; simp
      have e3 : s.inPos + 8#32 + BitVec.ofNat 32 (8 * xs.length) =
          s.inPos + BitVec.ofNat 32 (8 * (x :: xs).length) := by
        rw [ofNat_add_ofNat]; congr 2; simp; omega
      have e4 : s.inCur + 8 + 8 * xs.length = s.inCur + 8 * (x :: xs).length := by simp; omega
      simp only [e1, e2, e3, e4] at hR
      exact hR

/-! ### DECODE (R202) -/

/-- A bit read at an internal node, as the root or below it. -/
theorem decBody_node (k : DecPos → Phase) {s : State} (ha : s.inAnswers = true) (p : DecPos) (b : Bool) {rest : Bits} (w : Nat)
    (l r : HuffTree) (hb : s.inputRest = b :: rest)
    (hp : (p = .atRoot ∧ s.tree = some (.internal w l r)) ∨ p = .descending l r) :
    decBody k p s = landOn k (if b then r else l) { s with inCur := s.inCur + 1, inPos := s.inPos + 1#32 } := by
  have hr := inRead_one ha hb
  rcases hp with ⟨rfl, ht⟩ | rfl <;> cases b <;> simp [decBody, fromRoot, *]

/-- A bit read at a root that is a leaf (R203). -/
theorem decBody_rootLeaf (k : DecPos → Phase) {s : State} (ha : s.inAnswers = true) (b : Bool) {rest : Bits} (y : Sym)
    (w : Nat) (hb : s.inputRest = b :: rest) (ht : s.tree = some (.leaf y w)) :
    decBody k .atRoot s = landOn k (.leaf y w) { s with inCur := s.inCur + 1, inPos := s.inPos + 1#32 } := by
  have hr := inRead_one ha hb
  simp [decBody, hr, fromRoot, ht]

/-- Following a leaf's path from an internal node, up to its last bit. -/
theorem dec_walk {i : Instr} {k : DecPos → Phase} (hk : RunsDecode i k) (t : HuffTree) :
    ∀ (w : Nat) (l r : HuffTree) (p : DecPos) (s : State) (y : Sym) (path rest : Bits),
    t = .internal w l r → (y, path) ∈ t.paths → Quiet s → s.phase = k p →
    ((p = .atRoot ∧ s.tree = some (.internal w l r)) ∨ p = .descending l r) → s.inputRest = path ++ rest →
    ∃ (pre : Bits) (b : Bool) (p' : DecPos) (w' : Nat) (l' r' : HuffTree) (v : Nat), path = pre ++ [b] ∧
      (if b then r' else l') = .leaf y v ∧
      ((p' = .atRoot ∧ s.tree = some (.internal w' l' r')) ∨ p' = .descending l' r') ∧
      RunsIn pre.length s
        { s with
          inCur := s.inCur + pre.length, inPos := s.inPos + BitVec.ofNat 32 pre.length, phase := k p' } := by
  have down : ∀ (c : HuffTree),
      (∀ (w : Nat) (l r : HuffTree) (p : DecPos) (s : State) (y : Sym) (path rest : Bits),
        c = .internal w l r → (y, path) ∈ c.paths → Quiet s → s.phase = k p →
        ((p = .atRoot ∧ s.tree = some (.internal w l r)) ∨ p = .descending l r) → s.inputRest = path ++ rest →
        ∃ (pre : Bits) (b : Bool) (p' : DecPos) (w' : Nat) (l' r' : HuffTree) (v : Nat), path = pre ++ [b] ∧
          (if b then r' else l') = .leaf y v ∧
          ((p' = .atRoot ∧ s.tree = some (.internal w' l' r')) ∨ p' = .descending l' r') ∧
          RunsIn pre.length s
            { s with
              inCur := s.inCur + pre.length, inPos := s.inPos + BitVec.ofNat 32 pre.length, phase := k p' }) →
      ∀ (w : Nat) (l r : HuffTree) (p : DecPos) (s : State) (y : Sym) (b : Bool) (q rest : Bits),
        (if b then r else l) = c → (y, q) ∈ c.paths → Quiet s → s.phase = k p →
        ((p = .atRoot ∧ s.tree = some (.internal w l r)) ∨ p = .descending l r) → s.inputRest = b :: (q ++ rest) →
        ∃ (pre : Bits) (b' : Bool) (p' : DecPos) (w' : Nat) (l' r' : HuffTree) (v : Nat), b :: q = pre ++ [b'] ∧
          (if b' then r' else l') = .leaf y v ∧
          ((p' = .atRoot ∧ s.tree = some (.internal w' l' r')) ∨ p' = .descending l' r') ∧
          RunsIn pre.length s
            { s with
              inCur := s.inCur + pre.length, inPos := s.inPos + BitVec.ofNat 32 pre.length, phase := k p' } := by
    intro c ih w l r p s y b q rest hc hm hq hp hpos hb
    cases c with
    | leaf y' v =>
      simp only [HuffTree.paths, List.mem_singleton, Prod.mk.injEq] at hm
      obtain ⟨rfl, rfl⟩ := hm
      refine ⟨[], b, p, w, l, r, v, rfl, hc, hpos, ?_⟩
      simp [← hp]; exact .zero s
    | internal v l' r' =>
      have h : decBody k p s = .cont
          { s with inCur := s.inCur + 1, inPos := s.inPos + 1#32, phase := k (.descending l' r') } := by
        rw [decBody_node k hq.2 p b w l r hb hpos, hc]; rfl
      obtain ⟨pre, b', p', w', l2, r2, v2, e1, e2, e3, e4⟩ := ih v l' r' (.descending l' r')
        { s with inCur := s.inCur + 1, inPos := s.inPos + 1#32, phase := k (.descending l' r') } y q rest rfl hm hq rfl
        (.inr rfl) (State.inputRest_drop (a := [b]) hb rfl)
      refine ⟨b :: pre, b', p', w', l2, r2, v2, by rw [e1]; rfl, e2, e3, ?_⟩
      have h5 := RunsIn.cons (hk.cont hq hp h) e4
      have e1 : s.inCur + 1 + pre.length = s.inCur + (b :: pre).length := by simp; omega
      have e2 : s.inPos + 1#32 + BitVec.ofNat 32 pre.length = s.inPos + BitVec.ofNat 32 (b :: pre).length := by
        rw [ofNat_add_ofNat]; congr 2; simp; omega
      simp only [e1, e2] at h5
      exact h5
  induction t with
  | leaf y w => intro w l r p s y path rest h; cases h
  | internal w0 l0 r0 ihl ihr =>
    intro w l r p s y path rest ht hm hq hp hpos hb
    cases ht
    simp only [HuffTree.paths, List.mem_append, List.mem_map] at hm
    rcases hm with ⟨⟨y', q⟩, hm, he⟩ | ⟨⟨y', q⟩, hm, he⟩
    · simp only [Prod.mk.injEq] at he
      obtain ⟨rfl, rfl⟩ := he
      exact down l0 ihl w0 l0 r0 p s y' false q rest rfl hm hq hp hpos hb
    · simp only [Prod.mk.injEq] at he
      obtain ⟨rfl, rfl⟩ := he
      exact down r0 ihr w0 l0 r0 p s y' true q rest rfl hm hq hp hpos hb

/-- From the root along a code, up to its last bit; that bit reaches the leaf (R202, R203). -/
theorem dec_code {i : Instr} {k : DecPos → Phase} (hk : RunsDecode i k) (t : HuffTree) (s : State) (y : Sym)
    (code rest : Bits) (hq : Quiet s) (hp : s.phase = k .atRoot) (ht : s.tree = some t) (hm : (y, code) ∈ t.codes)
    (hb : s.inputRest = code ++ rest) :
    ∃ (pre : Bits) (b : Bool) (p' : DecPos) (w' : Nat) (l' r' : HuffTree) (v : Nat), code = pre ++ [b] ∧
      ((p' = .atRoot ∧ s.tree = some (.internal w' l' r') ∧ (if b then r' else l') = .leaf y v) ∨
        (p' = .descending l' r' ∧ (if b then r' else l') = .leaf y v) ∨
        (p' = .atRoot ∧ s.tree = some (.leaf y v))) ∧
      RunsIn pre.length s
        { s with
          inCur := s.inCur + pre.length, inPos := s.inPos + BitVec.ofNat 32 pre.length, phase := k p' } := by
  cases t with
  | leaf y' w =>
    simp only [HuffTree.codes, List.mem_singleton, Prod.mk.injEq] at hm
    obtain ⟨rfl, rfl⟩ := hm
    refine ⟨[], false, .atRoot, 0, .leaf 0 0, .leaf 0 0, w, rfl, .inr (.inr ⟨rfl, ht⟩), ?_⟩
    simp [← hp]; exact .zero s
  | internal w l r =>
    obtain ⟨pre, b, p', w', l', r', v, e1, e2, e3, e4⟩ :=
      dec_walk hk _ w l r .atRoot s y code rest rfl hm hq hp (.inl ⟨rfl, ht⟩) hb
    refine ⟨pre, b, p', w', l', r', v, e1, ?_, e4⟩
    rcases e3 with ⟨h1, h2⟩ | h
    · exact .inl ⟨h1, h2, e2⟩
    · exact .inr (.inl ⟨h, e2⟩)

/-- A code other than the sentinel's, and the write of its symbol. -/
theorem dec_sym {i : Instr} {k : DecPos → Phase} (hk : RunsDecode i k) (t : HuffTree) (s : State) (y : Sym)
    (code rest : Bits) (hq : Quiet s) (hp : s.phase = k .atRoot) (ht : s.tree = some t) (hm : (y, code) ∈ t.codes)
    (hb : s.inputRest = code ++ rest) (hy : y ≠ 256#9) :
    RunsIn (code.length + 1) s
      { s with
        inCur := s.inCur + code.length, inPos := s.inPos + BitVec.ofNat 32 code.length
        outCur := s.outCur ++ bitsOf 8 (y.toNat % 256), outLen := s.outLen + 8#32, phase := k .atRoot } := by
  obtain ⟨pre, b, p', w', l', r', v, e1, e2, e3⟩ := dec_code hk t s y code rest hq hp ht hm hb
  have hb2 : s.inBits.drop (s.inCur + pre.length) = b :: rest :=
    State.inputRest_drop (a := pre) (by rw [State.inputRest] at hb; rw [hb, e1]; simp) rfl
  have hland : ∀ u : State, landOn k (.leaf y v) u = .cont { u with phase := k (.out y) } := by
    intro u; simp [landOn, hy]
  have hstep : decBody k p'
      { s with inCur := s.inCur + pre.length, inPos := s.inPos + BitVec.ofNat 32 pre.length, phase := k p' } = .cont
      { s with
        inCur := s.inCur + pre.length + 1, inPos := s.inPos + BitVec.ofNat 32 pre.length + 1#32
        phase := k (.out y) } := by
    rcases e2 with ⟨h0, h1, h2⟩ | ⟨h0, h2⟩ | ⟨rfl, h1⟩
    · refine (decBody_node k (by exact hq.2) p' b w' l' r' (by exact hb2) (by exact .inl ⟨h0, h1⟩)).trans ?_
      rw [h2, hland]
    · refine (decBody_node k (by exact hq.2) p' b w' l' r' (by exact hb2) (by exact .inr h0)).trans ?_
      rw [h2, hland]
    · refine (decBody_rootLeaf k (by exact hq.2) b y v (by exact hb2) (by exact h1)).trans ?_
      rw [hland]
  have hout : decBody k (.out y)
      { s with
        inCur := s.inCur + pre.length + 1, inPos := s.inPos + BitVec.ofNat 32 pre.length + 1#32
        phase := k (.out y) } = .cont
      { s with
        inCur := s.inCur + pre.length + 1, inPos := s.inPos + BitVec.ofNat 32 pre.length + 1#32
        outCur := s.outCur ++ bitsOf 8 (y.toNat % 256), outLen := s.outLen + 8#32, phase := k .atRoot } := by
    have : bitsOf 8 (y.toNat % 4294967296) = bitsOf 8 (y.toNat % 256) := bitsOf_congr (by omega)
    simp [decBody, outWrite, this]
  have hR := e3.trans (.cons (hk.cont hq rfl hstep) (.one (hk.cont hq rfl hout)))
  have e4 : s.inCur + pre.length + 1 = s.inCur + code.length := by rw [e1]; simp; omega
  have e5 : s.inPos + BitVec.ofNat 32 pre.length + 1#32 = s.inPos + BitVec.ofNat 32 code.length := by
    rw [ofNat_add_ofNat, e1]; congr 2; simp
  have e6 : pre.length + (0 + 1 + 1) = code.length + 1 := by rw [e1]; simp
  simp only [e4, e5, e6] at hR
  exact hR

/-- DECODE of the codes of a sequence of bytes, back at the root after the last. -/
theorem dec_run {i : Instr} {k : DecPos → Phase} (hk : RunsDecode i k) (t : HuffTree) (code : Byte → Bits)
    (xs : List Byte) : ∀ (s : State) (rest : Bits), Quiet s → s.phase = k .atRoot → s.tree = some t →
    (∀ b ∈ xs, (b.setWidth 9, code b) ∈ t.codes) → s.inputRest = xs.flatMap code ++ rest →
    RunsTo s
      { s with
        inCur := s.inCur + (xs.flatMap code).length, inPos := s.inPos + BitVec.ofNat 32 (xs.flatMap code).length
        outCur := s.outCur ++ unpackBytes xs, outLen := s.outLen + BitVec.ofNat 32 (8 * xs.length)
        phase := k .atRoot } := by
  induction xs with
  | nil => intro s rest hq hp ht hx hb; simp [← hp]; exact .refl s
  | cons x xs ih =>
    intro s rest hq hp ht hx hb
    rw [List.flatMap_cons, List.append_assoc] at hb
    have hne : x.setWidth 9 ≠ 256#9 := by
      intro h; have := congrArg BitVec.toNat h; simp at this; have := x.isLt; omega
    have h := dec_sym hk t s (x.setWidth 9) (code x) _ hq hp ht (hx x (by simp)) hb hne
    have h2 := ih
      { s with
        inCur := s.inCur + (code x).length, inPos := s.inPos + BitVec.ofNat 32 (code x).length
        outCur := s.outCur ++ bitsOf 8 ((x.setWidth 9).toNat % 256), outLen := s.outLen + 8#32, phase := k .atRoot }
      rest hq rfl ht (fun b hb => hx b (by simp [hb])) (State.inputRest_drop hb rfl)
    have hR := RunsTo.trans ⟨_, h⟩ h2
    have e1 : s.inCur + (code x).length + (xs.flatMap code).length =
        s.inCur + ((x :: xs).flatMap code).length := by simp; omega
    have e2 : s.inPos + BitVec.ofNat 32 (code x).length + BitVec.ofNat 32 (xs.flatMap code).length =
        s.inPos + BitVec.ofNat 32 ((x :: xs).flatMap code).length := by
      rw [ofNat_add_ofNat]; congr 2; simp
    have e3 : s.outLen + 8#32 + BitVec.ofNat 32 (8 * xs.length) =
        s.outLen + BitVec.ofNat 32 (8 * (x :: xs).length) := by
      rw [ofNat_add_ofNat]; congr 2; simp; omega
    have e4 : (x.setWidth 9).toNat % 256 = x.toNat := by
      have := x.isLt; simp; omega
    have e5 : s.outCur ++ bitsOf 8 x.toNat ++ unpackBytes xs = s.outCur ++ unpackBytes (x :: xs) := by simp
    simp only [e1, e2, e3, e4, e5] at hR
    exact hR

end Sys2Proof.Machine
end

