-- ==== Sys2Proof/Laws/Frames.lean ====
section
/-!
SUPPORT. The frame of each command's body: which fields of the state a step of it may change, whatever its result.
-/
namespace Sys2Proof.Machine

/-- `P` holds of the state a body's step leads to, if it leads to one. -/
def BodyResult.All (P : State → Prop) : BodyResult → Prop
  | .cont s => P s
  | .done s => P s
  | .last s => P s
  | .raise _ s => P s
  | .fault _ => True

/-- A successful read changes the cursor and IN_POS only (R71). -/
theorem inRead_frame {n : Nat} {s s' : State} {v : BitVec n} (h : inRead n s = .value v s') :
    s' = { s with inCur := s.inCur + n, inPos := s.inPos + BitVec.ofNat 32 n } := by
  rcases inRead_cases n s with ⟨_, e⟩ | ⟨_, _, e⟩ | ⟨_, _, e⟩ <;> rw [e] at h <;> cases h
  rfl

/-- COUNT changes the three flags, FREQ, TOTAL and the input position (R130). -/
theorem countBody_frame (k : CountPos → Phase) (p : CountPos) (s : State) :
    (countBody k p s).All fun t => ∃ a b c f n q r ph, t =
      { s with
        freqValid := a, treeValid := b, codesValid := c, freq := f, total := n, inCur := q, inPos := r
        phase := ph } := by
  cases p with
  | clear => exact ⟨_, _, _, _, _, _, _, _, rfl⟩
  | loop =>
    simp only [countBody]
    split
    · exact ⟨_, _, _, _, _, _, _, _, rfl⟩
    · exact ⟨_, _, _, _, _, _, _, _, rfl⟩
    · rename_i r s' h
      cases inRead_frame h
      split <;> exact ⟨_, _, _, _, _, _, _, _, rfl⟩
  | finish => exact ⟨_, _, _, _, _, _, _, _, rfl⟩

/-- BUILD changes the tree store, NODES, TREE_SRC and the flags of the tree and the code table (R140). -/
theorem buildBody_frame (s : State) :
    (buildBody s).All fun t => ∃ a b c f n,
      t = { s with treeValid := a, codesValid := b, treeSrc := c, tree := f, nodes := n } := by
  unfold buildBody
  split
  · trivial
  · exact ⟨_, _, _, _, _, rfl⟩

/-- GENCODES changes the code table and its flag (R150). -/
theorem gencodesBody_frame (s : State) :
    (gencodesBody s).All fun t => ∃ a b c, t = { s with codesValid := a, len := b, code := c } := by
  unfold gencodesBody
  split
  · trivial
  · split
    · exact ⟨_, _, _, rfl⟩
    · trivial

/-- SERIALIZE changes the output only (R160). -/
theorem serBody_frame (k : SerPos → Phase) (p : SerPos) (s : State) :
    (serBody k p s).All fun t => ∃ a b ph, t = { s with outCur := a, outLen := b, phase := ph } := by
  have hn : ∀ t rest, (serNode k t rest s).All fun t => ∃ a b ph, t = { s with outCur := a, outLen := b, phase := ph } := by
    intro t rest
    cases t <;> exact ⟨_, _, _, rfl⟩
  cases p with
  | start =>
    simp only [serBody]
    split
    · trivial
    · exact hn _ _
  | node t rest => exact hn _ _
  | sym y rest => cases rest <;> exact ⟨_, _, _, rfl⟩

/-- DESERIALIZE changes the tree store, NODES, TREE_SRC, the flags of the tree and the code table, and the input position
(R165). -/
theorem desBody_frame (k : DesPos → Phase) (p : DesPos) (s : State) :
    (desBody k p s).All fun t => ∃ a b c f n q r ph, t =
      { s with
        treeValid := a, codesValid := b, treeSrc := c, tree := f, nodes := n, inCur := q, inPos := r, phase := ph } := by
  cases p with
  | start => exact ⟨_, _, _, _, _, _, _, _, rfl⟩
  | tag st =>
    simp only [desBody]
    split
    · exact ⟨_, _, _, _, _, _, _, _, rfl⟩
    · exact ⟨_, _, _, _, _, _, _, _, rfl⟩
    · rename_i r s' h
      cases inRead_frame h
      split
      · exact ⟨_, _, _, _, _, _, _, _, rfl⟩
      · split <;> exact ⟨_, _, _, _, _, _, _, _, rfl⟩
  | sym st =>
    simp only [desBody]
    split
    · exact ⟨_, _, _, _, _, _, _, _, rfl⟩
    · exact ⟨_, _, _, _, _, _, _, _, rfl⟩
    · rename_i r s' h
      cases inRead_frame h
      split <;> exact ⟨_, _, _, _, _, _, _, _, rfl⟩
  | store t => exact ⟨_, _, _, _, _, _, _, _, rfl⟩

/-- CHECK_MAGIC changes the input position only (R200). -/
theorem checkMagicBody_frame (s : State) :
    (checkMagicBody s).All fun t => ∃ q r, t = { s with inCur := q, inPos := r } := by
  unfold checkMagicBody
  split
  · exact ⟨_, _, rfl⟩
  · exact ⟨_, _, rfl⟩
  · rename_i v s' h
    cases inRead_frame h
    split <;> exact ⟨_, _, rfl⟩

/-- ENCODE changes the input position and the output (R182, R183). -/
theorem encBody_frame (k : EncPos → Phase) (p : EncPos) (s : State) :
    (encBody k p s).All fun t => ∃ q r a b ph, t =
      { s with inCur := q, inPos := r, outCur := a, outLen := b, phase := ph } := by
  have he : ∀ (y : Fin 257) (i : Nat) (u : State), (∃ q r a b ph, u =
      { s with inCur := q, inPos := r, outCur := a, outLen := b, phase := ph }) →
      (emitFrom k y i u).All fun t => ∃ q r a b ph, t =
      { s with inCur := q, inPos := r, outCur := a, outLen := b, phase := ph } := by
    rintro y i u ⟨q, r, a, b, ph, rfl⟩
    unfold emitFrom
    split
    · exact ⟨_, _, _, _, _, rfl⟩
    · split <;> exact ⟨_, _, _, _, _, rfl⟩
  cases p with
  | reset => exact ⟨_, _, _, _, _, rfl⟩
  | read =>
    simp only [encBody]
    split
    · exact ⟨_, _, _, _, _, rfl⟩
    · exact he _ _ _ ⟨_, _, _, _, _, rfl⟩
    · rename_i v s' h
      cases inRead_frame h
      split
      · exact ⟨_, _, _, _, _, rfl⟩
      · exact he _ _ _ ⟨_, _, _, _, _, rfl⟩
  | emit y i =>
    simp only [encBody]
    split
    · trivial
    · exact he _ _ _ ⟨_, _, _, _, _, rfl⟩

/-- DECODE changes the input position and the output (R202). -/
theorem decBody_frame (k : DecPos → Phase) (p : DecPos) (s : State) :
    (decBody k p s).All fun t => ∃ q r a b ph, t =
      { s with inCur := q, inPos := r, outCur := a, outLen := b, phase := ph } := by
  have hl : ∀ (t : HuffTree) (q : Nat) (r : Word),
      (landOn k t { s with inCur := q, inPos := r }).All fun t => ∃ q r a b ph, t =
      { s with inCur := q, inPos := r, outCur := a, outLen := b, phase := ph } := by
    intro t q r
    unfold landOn
    split
    · split <;> exact ⟨_, _, _, _, _, rfl⟩
    · exact ⟨_, _, _, _, _, rfl⟩
  cases p with
  | atRoot =>
    simp only [decBody]
    split
    · trivial
    · split
      · exact ⟨_, _, _, _, _, rfl⟩
      · exact ⟨_, _, _, _, _, rfl⟩
      · rename_i v s' h
        cases inRead_frame h
        exact hl _ _ _
  | descending l r =>
    simp only [decBody]
    split
    · exact ⟨_, _, _, _, _, rfl⟩
    · exact ⟨_, _, _, _, _, rfl⟩
    · rename_i v s' h
      cases inRead_frame h
      exact hl _ _ _
  | out y => exact ⟨_, _, _, _, _, rfl⟩

/-- The state a unit command's step leads to is the body's, but for the phase, DONE, ERRCODE and ERR_POS (R233, R242). -/
theorem unitStep_frame {P : State → Prop} {i : Instr} {r : BodyResult} {t : State} (h : unitStep i r = .next t) (hr : r.All P) :
    ∃ u, P u ∧ ∃ ph d e q, t = { u with phase := ph, done := d, errCode := e, errPos := q } := by
  cases r with
  | cont u => cases h; exact ⟨_, hr, _, _, _, _, rfl⟩
  | done u => cases h; exact ⟨_, hr, _, _, _, _, rfl⟩
  | last u => cases h; exact ⟨_, hr, _, _, _, _, rfl⟩
  | raise e u => cases h; exact ⟨_, hr, _, _, _, _, rfl⟩
  | fault f => cases h

/-- The same of a body's step inside a composite command, which leaves DONE alone (R233). -/
theorem compositeStep_frame {P : State → Prop} {r : BodyResult} {after closing : Phase} {t : State}
    (h : compositeStep after closing r = .next t) (hr : r.All P) :
    ∃ u, P u ∧ ∃ ph e q, t = { u with phase := ph, errCode := e, errPos := q } := by
  cases r with
  | cont u => cases h; exact ⟨_, hr, _, _, _, rfl⟩
  | done u => cases h; exact ⟨_, hr, _, _, _, rfl⟩
  | last u => cases h; exact ⟨_, hr, _, _, _, rfl⟩
  | raise e u => cases h; exact ⟨_, hr, _, _, _, rfl⟩
  | fault f => cases h

end Sys2Proof.Machine
end

