-- ==== Sys2Proof/Laws/PerInstr.lean ====
section
/-!
SUPPORT. What holds of every command as syntax, one lemma per command (R100, R101, R102).
-/
namespace Sys2Proof.Laws.WordLaw

/-- A command is well formed, and its word is a legal one: RSVD is 0 and OPCODE is assigned. -/
def Statement (i : Instr) : Prop :=
  i.wf = true ∧ rsvdField (encode i) = 0#24 ∧ assignedOpcode (opcodeField (encode i)).toNat = true ∧
    commandWordWf (encode i) = true

theorem count : Statement .count := by unfold Statement; decide
theorem build : Statement .build := by unfold Statement; decide
theorem gencodes : Statement .gencodes := by unfold Statement; decide
theorem serialize : Statement .serialize := by unfold Statement; decide
theorem deserialize : Statement .deserialize := by unfold Statement; decide
theorem writeMagic : Statement .writeMagic := by unfold Statement; decide
theorem encode : Statement .encode := by unfold Statement; decide
theorem checkMagic : Statement .checkMagic := by unfold Statement; decide
theorem decode : Statement .decode := by unfold Statement; decide
theorem rewind : Statement .rewind := by unfold Statement; decide
theorem close : Statement .close := by unfold Statement; decide
theorem compress : Statement .compress := by unfold Statement; decide
theorem decompress : Statement .decompress := by unfold Statement; decide

end Sys2Proof.Laws.WordLaw
end

