-- ==== Sys2Proof/Laws/Registers.lean ====
section
/-!
SUPPORT. The fields of the registers assembled from their parts (R24, R34, R40, R44).
-/
namespace Sys2Proof.Machine

theorem toNat_append' {n m k : Nat} (h : n + m = k) (x : BitVec n) (y : BitVec m) :
    ((x ++ y).cast h).toNat = x.toNat * 2 ^ m + y.toNat := by
  rw [BitVec.toNat_cast, BitVec.toNat_append, ← Nat.shiftLeft_add_eq_or_of_lt y.isLt, Nat.shiftLeft_eq]

/-- STATUS as a number (R24). -/
theorem statusWord_toNat (s : State) :
    s.statusWord.toNat = s.busy.toNat + 2 * s.done.toNat + 4 * s.err.toNat + 8 * s.cmdDropped.toNat +
      16 * s.errCode.code.toNat + 256 * s.freqValid.toNat + 512 * s.treeValid.toNat +
      1024 * s.treeSrc.bit.toNat + 2048 * s.codesValid.toNat := by
  have h (c d e f g h i b : Bool) (k : BitVec 4) :
      (0#20 ++ BitVec.ofBool c ++ BitVec.ofBool d ++ BitVec.ofBool e ++ BitVec.ofBool f ++ k ++ BitVec.ofBool g
        ++ BitVec.ofBool h ++ BitVec.ofBool i ++ BitVec.ofBool b : BitVec 32).toNat =
      b.toNat + 2 * i.toNat + 4 * h.toNat + 8 * g.toNat + 16 * k.toNat + 256 * f.toNat + 512 * e.toNat +
        1024 * d.toNat + 2048 * c.toNat := by
    have e1 := toNat_append' (n := 31) (m := 1) rfl (0#20 ++ BitVec.ofBool c ++ BitVec.ofBool d ++ BitVec.ofBool e
        ++ BitVec.ofBool f ++ k ++ BitVec.ofBool g ++ BitVec.ofBool h ++ BitVec.ofBool i) (BitVec.ofBool b)
    have e2 := toNat_append' (n := 30) (m := 1) rfl (0#20 ++ BitVec.ofBool c ++ BitVec.ofBool d ++ BitVec.ofBool e
        ++ BitVec.ofBool f ++ k ++ BitVec.ofBool g ++ BitVec.ofBool h) (BitVec.ofBool i)
    have e3 := toNat_append' (n := 29) (m := 1) rfl (0#20 ++ BitVec.ofBool c ++ BitVec.ofBool d ++ BitVec.ofBool e
        ++ BitVec.ofBool f ++ k ++ BitVec.ofBool g) (BitVec.ofBool h)
    have e4 := toNat_append' (n := 28) (m := 1) rfl (0#20 ++ BitVec.ofBool c ++ BitVec.ofBool d ++ BitVec.ofBool e
        ++ BitVec.ofBool f ++ k) (BitVec.ofBool g)
    have e5 := toNat_append' (n := 24) (m := 4) rfl (0#20 ++ BitVec.ofBool c ++ BitVec.ofBool d ++ BitVec.ofBool e
        ++ BitVec.ofBool f) k
    have e6 := toNat_append' (n := 23) (m := 1) rfl (0#20 ++ BitVec.ofBool c ++ BitVec.ofBool d ++ BitVec.ofBool e)
      (BitVec.ofBool f)
    have e7 := toNat_append' (n := 22) (m := 1) rfl (0#20 ++ BitVec.ofBool c ++ BitVec.ofBool d) (BitVec.ofBool e)
    have e8 := toNat_append' (n := 21) (m := 1) rfl (0#20 ++ BitVec.ofBool c) (BitVec.ofBool d)
    have e9 := toNat_append' (n := 20) (m := 1) rfl 0#20 (BitVec.ofBool c)
    simp only [BitVec.cast_eq, BitVec.toNat_ofBool] at e1 e2 e3 e4 e5 e6 e7 e8 e9
    have e0 : (0#20).toNat = 0 := rfl
    rw [e1, e2, e3, e4, e5, e6, e7, e8, e9, e0]
    ring
  exact h ..

theorem ctrlWord_toNat (s : State) : s.ctrlWord.toNat = s.ie.toNat := by
  unfold State.ctrlWord; cases s.ie <;> decide

/-- IDX as a number (R40). -/
theorem idxRegister_toNat (s : State) :
    s.idxRegister.toNat = s.idxSym.toNat + 65536 * s.idxWord.toNat := by
  have h (a : BitVec 9) (b : BitVec 3) :
      (0#13 ++ b ++ 0#7 ++ a : BitVec 32).toNat = a.toNat + 65536 * b.toNat := by
    have e1 := toNat_append' (n := 23) (m := 9) rfl (0#13 ++ b ++ 0#7) a
    have e2 := toNat_append' (n := 16) (m := 7) rfl (0#13 ++ b) 0#7
    have e3 := toNat_append' (n := 13) (m := 3) rfl 0#13 b
    simp only [BitVec.cast_eq] at e1 e2 e3
    have e0 : (0#13).toNat = 0 := rfl
    have e4 : (0#7).toNat = 0 := rfl
    rw [e1, e2, e3, e0, e4]
    ring
  exact h ..

/-- PARAMS as a number (R44). -/
theorem paramsWord_toNat (s : State) (h : s.params.wf = true) :
    s.paramsWord.toNat = s.params.nodeCap + 65536 * s.params.countW := by
  have hp : 2 ≤ s.params.countW ∧ s.params.countW ≤ 32 ∧ s.params.nodeCap ≤ 65535 := by
    simp only [Params.wf, Bool.and_eq_true, decide_eq_true_eq] at h; omega
  have e (a : BitVec 16) (b : BitVec 6) : (0#10 ++ b ++ a : BitVec 32).toNat = a.toNat + 65536 * b.toNat := by
    have e1 := toNat_append' (n := 16) (m := 16) rfl (0#10 ++ b) a
    have e2 := toNat_append' (n := 10) (m := 6) rfl 0#10 b
    simp only [BitVec.cast_eq] at e1 e2
    have e0 : (0#10).toNat = 0 := rfl
    rw [e1, e2, e0]
    ring
  refine (e ..).trans ?_
  rw [BitVec.toNat_ofNat, BitVec.toNat_ofNat, Nat.mod_eq_of_lt (by omega), Nat.mod_eq_of_lt (by omega)]

/-- A bit of a word as a digit of its number. -/
theorem getLsbD_eq_div (w : Word) (i : Nat) : w.getLsbD i = decide (w.toNat / 2 ^ i % 2 = 1) := by
  rw [BitVec.getLsbD, Nat.testBit_eq_decide_div_mod_eq]

theorem getElem_eq_div (w : Word) (i : Nat) (h : i < 32) : w[i] = decide (w.toNat / 2 ^ i % 2 = 1) := by
  rw [← BitVec.getLsbD_eq_getElem h, getLsbD_eq_div]

end Sys2Proof.Machine
end

