-- ==== Sys2Proof/Laws/Steps.lean ====
section
/-!
SUPPORT. From a body's step to the step of the command that runs it: the invariant, the error a step may record, and
progress towards the command's end (R232, R233, R242, R271).
-/
namespace Sys2Proof.Machine

theorem running_of_ne_idle {s : State} (h : s.phase ≠ .idle) : ∃ i, s.phase.running = some i := by
  cases hp : s.phase.running with
  | none => exact absurd ((running_eq_none_iff _).1 hp) h
  | some i => exact ⟨i, rfl⟩

/-- The agenda is no concern of the invariant. -/
theorem Inv.withAgenda {s : State} (hi : Inv s) (ts : List Turn) : Inv { s with agenda := ts } :=
  ⟨hi.data.of_eq, hi.busyDone, hi.busyError, hi.phaseOk⟩

/-- Before its close a running command has no error and DONE = 0. -/
theorem Inv.running {s : State} (hi : Inv s) (hb : s.phase ≠ .idle) (hc : s.phase ≠ .compress .close)
    (hd : s.phase ≠ .decompress .close) (he : ∀ i, s.phase ≠ .ended i) : s.done = false ∧ s.errCode = .none := by
  have hbb : s.busy = true := (busy_eq_true_iff s).2 hb
  refine ⟨hi.busyDone hbb, ?_⟩
  by_contra h
  rcases hi.busyError hbb h with h | h | h | h
  · exact hc h
  · exact hd h
  · exact he _ h
  · exact he _ h

/-! ### The invariant -/

theorem unitStep_inv {i : Instr} {s : State} {r : BodyResult} {C D : State → Prop} {R : ErrCode → State → Prop} (hi : Inv s)
    (hr : r.Keeps s C D R) (hd : s.done = false) (he : s.errCode = .none) (hC : ∀ s', C s' → PhaseOk s') :
    ∃ t, unitStep i r = .next t ∧ Inv t := by
  cases r with
  | cont u =>
    refine ⟨u, rfl, ?_⟩
    rcases hr with rfl | ⟨h1, h2, h3, h4⟩
    · exact hi
    · exact ⟨h1, fun _ => h2.trans hd, fun _ h => absurd (h3.trans he) h, hC u h4⟩
  | done u => exact ⟨_, rfl, hr.1.of_eq, fun h => (by cases h), fun h => (by cases h), trivial⟩
  | last u =>
    exact ⟨_, rfl, hr.1.of_eq, fun _ => hr.2.1.trans hd, fun _ h => absurd (hr.2.2.1.trans he) h, trivial⟩
  | raise e u => exact ⟨_, rfl, hr.1.of_eq, fun h => (by cases h), fun h => (by cases h), trivial⟩
  | fault f => cases hr

theorem compositeStep_inv {s : State} {r : BodyResult} {C D : State → Prop} {R : ErrCode → State → Prop}
    {after closing : Phase} (hi : Inv s) (hr : r.Keeps s C D R) (hd : s.done = false) (he : s.errCode = .none)
    (hC : ∀ s', C s' → PhaseOk s') (hD : ∀ s', DataInv s' → D s' → PhaseOk { s' with phase := after })
    (hR : ∀ e s', R e s' → PhaseOk { recordError e s' with phase := closing })
    (hcl : closing = .compress .close ∨ closing = .decompress .close)
    (hrd : ∀ e s', r = .raise e s' → s'.done = s.done) :
    ∃ t, compositeStep after closing r = .next t ∧ Inv t := by
  cases r with
  | cont u =>
    refine ⟨u, rfl, ?_⟩
    rcases hr with rfl | ⟨h1, h2, h3, h4⟩
    · exact hi
    · exact ⟨h1, fun _ => h2.trans hd, fun _ h => absurd (h3.trans he) h, hC u h4⟩
  | done u =>
    exact ⟨_, rfl, hr.1.of_eq, fun _ => hr.2.1.trans hd, fun _ h => absurd (hr.2.2.1.trans he) h, hD u hr.1 hr.2.2.2⟩
  | last u =>
    exact ⟨_, rfl, hr.1.of_eq, fun _ => hr.2.1.trans hd, fun _ h => absurd (hr.2.2.1.trans he) h, hD u hr.1 hr.2.2.2⟩
  | raise e u => exact ⟨_, rfl, hr.1.of_eq, fun _ => (hrd e u rfl).trans hd, fun _ _ => hcl.imp_right .inl, hR e u hr.2.2⟩
  | fault f => cases hr

theorem BodyResult.All.of_raise {P : State → Prop} {r : BodyResult} (h : r.All P) {e : ErrCode} {s' : State}
    (hr : r = .raise e s') : P s' := by
  subst hr; exact h

/-! ### The error a step may record (R233) -/

theorem unitStep_error {i : Instr} {s t : State} {r : BodyResult} {C D : State → Prop} {R : ErrCode → State → Prop}
    (h : unitStep i r = .next t) (hr : r.Keeps s C D R) (he : s.errCode = .none) :
    t.errCode = .none ∨ ∃ e u, r = .raise e u ∧ R e u ∧ t = finish (recordError e u) := by
  cases r with
  | cont u =>
    cases h
    rcases hr with rfl | hr
    · exact .inl he
    · exact .inl (hr.2.2.1.trans he)
  | done u => cases h; exact .inl (hr.2.2.1.trans he)
  | last u => cases h; exact .inl (hr.2.2.1.trans he)
  | raise e u => cases h; exact .inr ⟨e, u, rfl, hr.2.2, rfl⟩
  | fault f => cases h

theorem compositeStep_error {s t : State} {r : BodyResult} {C D : State → Prop} {R : ErrCode → State → Prop}
    {after closing : Phase} (h : compositeStep after closing r = .next t) (hr : r.Keeps s C D R)
    (he : s.errCode = .none) :
    t.errCode = .none ∨ ∃ e u, r = .raise e u ∧ R e u ∧ t = { recordError e u with phase := closing } := by
  cases r with
  | cont u =>
    cases h
    rcases hr with rfl | hr
    · exact .inl he
    · exact .inl (hr.2.2.1.trans he)
  | done u => cases h; exact .inl (hr.2.2.1.trans he)
  | last u => cases h; exact .inl (hr.2.2.1.trans he)
  | raise e u => cases h; exact .inr ⟨e, u, rfl, hr.2.2, rfl⟩
  | fault f => cases h

/-! ### Progress (R271): a number that each step of a looping body makes smaller -/

/-- The bits not read yet. -/
def State.bitsLeft (s : State) : Nat := s.inBits.length - s.inCur

def sizes : List HuffTree → Nat
  | [] => 0
  | t :: ts => t.size + sizes ts

def countLeft (p : CountPos) (s : State) : Nat :=
  match p with
  | .clear => s.bitsLeft + 3
  | .loop => s.bitsLeft + 2
  | .finish => 1

def serLeft (p : SerPos) (s : State) : Nat :=
  match p with
  | .start =>
    match s.tree with
    | some t => 2 * t.size + 1
    | none => 0
  | .node t rest => 2 * (t.size + sizes rest)
  | .sym _ rest => 2 * sizes rest + 1

def desLeft (p : DesPos) (s : State) : Nat :=
  match p with
  | .start => s.bitsLeft + 2
  | .tag _ => s.bitsLeft + 1
  | .sym _ => s.bitsLeft + 1
  | .store _ => 0

def encLeft (p : EncPos) (s : State) : Nat :=
  match p with
  | .reset => 600 * (s.inBits.length + 1) + 1
  | .read => 600 * (s.bitsLeft + 1)
  | .emit y i => if y = sentinelEntry then 512 - i else 600 * (s.bitsLeft + 1) + (512 - i)

def decLeft (p : DecPos) (s : State) : Nat :=
  match p with
  | .atRoot => 2 * s.bitsLeft
  | .descending _ _ => 2 * s.bitsLeft
  | .out _ => 2 * s.bitsLeft + 1

/-- A step that goes on is at a position of the same body with less left. -/
def BodyResult.Shrinks {α : Type} (k : α → Phase) (m : α → State → Nat) (p : α) (s : State) : BodyResult → Prop
  | .cont u => ∃ p', u.phase = k p' ∧ m p' u < m p s
  | .done _ => True
  | .last _ => True
  | .raise _ _ => True
  | .fault _ => True

theorem countBody_shrinks (k : CountPos → Phase) (p : CountPos) (s : State) (ha : s.inAnswers = true) : (countBody k p s).Shrinks k countLeft p s := by
  cases p with
  | clear => exact ⟨.loop, rfl, by simp [countLeft, State.bitsLeft]⟩
  | loop =>
    rcases inRead_cases 8 s with ⟨h, _⟩ | ⟨_, _, h⟩ | ⟨_, hl, h⟩
    · rw [ha] at h; cases h
    · simp only [countBody, h]; exact ⟨.finish, rfl, by simp [countLeft, State.bitsLeft]⟩
    · simp only [countBody, h]
      split
      · trivial
      · exact ⟨.loop, rfl, by simp [countLeft, State.bitsLeft, countWord]; omega⟩
  | finish => trivial

theorem serBody_shrinks (k : SerPos → Phase) (p : SerPos) (s : State) : (serBody k p s).Shrinks k serLeft p s := by
  cases p with
  | start =>
    simp only [serBody]
    split
    · trivial
    · rename_i t ht
      cases t with
      | leaf y w => exact ⟨.sym y [], rfl, by simp [serLeft, ht, sizes, HuffTree.size]⟩
      | internal w l r => exact ⟨.node l [r], rfl, by simp [serLeft, ht, sizes, HuffTree.size]⟩
  | node t rest =>
    cases t with
    | leaf y w => exact ⟨.sym y rest, rfl, by simp [serLeft, HuffTree.size]; omega⟩
    | internal w l r => exact ⟨.node l (r :: rest), rfl, by simp [serLeft, sizes, HuffTree.size]; omega⟩
  | sym y rest =>
    cases rest with
    | nil => trivial
    | cons t ts => exact ⟨.node t ts, rfl, by simp [serLeft, sizes]⟩

theorem desBody_shrinks (k : DesPos → Phase) (p : DesPos) (s : State) (ha : s.inAnswers = true) : (desBody k p s).Shrinks k desLeft p s := by
  cases p with
  | start => exact ⟨.tag [], rfl, by simp [desLeft, State.bitsLeft]⟩
  | tag st =>
    rcases inRead_cases 1 s with ⟨h, _⟩ | ⟨_, _, h⟩ | ⟨_, hl, h⟩
    · rw [ha] at h; cases h
    · simp only [desBody, h]; trivial
    · simp only [desBody, h]
      split
      · trivial
      · split
        · exact ⟨.sym st, rfl, by simp [desLeft, State.bitsLeft]; omega⟩
        · exact ⟨.tag (.left :: st), rfl, by simp [desLeft, State.bitsLeft]; omega⟩
  | sym st =>
    rcases inRead_cases 9 s with ⟨h, _⟩ | ⟨_, _, h⟩ | ⟨_, hl, h⟩
    · rw [ha] at h; cases h
    · simp only [desBody, h]; trivial
    · simp only [desBody, h]
      split
      · exact ⟨.tag _, rfl, by simp [desLeft, State.bitsLeft]; omega⟩
      · exact ⟨.store _, rfl, by simp [desLeft]⟩
  | store t => trivial

theorem encBody_shrinks (k : EncPos → Phase) (p : EncPos) (s : State) (ha : s.inAnswers = true) (hok : EncOk p s) : (encBody k p s).Shrinks k encLeft p s := by
  cases p with
  | reset => exact ⟨.read, rfl, by simp [encLeft, State.bitsLeft, inReset]⟩
  | read =>
    rcases inRead_cases 8 s with ⟨h, _⟩ | ⟨_, _, h⟩ | ⟨_, hl, h⟩
    · rw [ha] at h; cases h
    · simp only [encBody, h, emitFrom]
      split
      · exact ⟨.emit sentinelEntry 0, rfl, by simp [encLeft]; omega⟩
      · trivial
    · simp only [encBody, h, emitFrom]
      have hne : ∀ r : Byte, byteEntry r ≠ sentinelEntry := by
        intro r he; have := congrArg Fin.val he; simp [byteEntry, sentinelEntry] at this; have := r.isLt; omega
      split
      · trivial
      · split
        · exact ⟨.emit (byteEntry _) 0, rfl, by simp [encLeft, State.bitsLeft, hne]; omega⟩
        · simp only [hne, if_false]
          exact ⟨.read, rfl, by simp [encLeft, State.bitsLeft]; omega⟩
  | emit y i =>
    simp only [encBody]
    split
    · trivial
    · unfold emitFrom
      split
      · rename_i b hb hi
        have hl := s.len[y].isLt
        simp only [outWrite_len] at hi
        refine ⟨.emit y (i+1), rfl, ?_⟩
        by_cases hy : y = sentinelEntry <;> simp [encLeft, State.bitsLeft, outWrite, hy] <;> (try subst hy) <;> omega
      · split
        · trivial
        · rename_i hy
          have hl := s.len[y].isLt
          have hi := hok.2
          refine ⟨.read, rfl, ?_⟩
          simp [encLeft, State.bitsLeft, outWrite, hy]; omega

theorem decBody_shrinks (k : DecPos → Phase) (p : DecPos) (s : State) (ha : s.inAnswers = true) : (decBody k p s).Shrinks k decLeft p s := by
  have hland : ∀ t, s.inCur + 1 ≤ s.inBits.length → ∀ m, m = 2 * s.bitsLeft → (landOn k t { s with inCur := s.inCur + 1, inPos := s.inPos + BitVec.ofNat 32 1 }).Shrinks k decLeft p s ∨ m ≠ decLeft p s := by
    intro t hl m hm
    by_cases h : m = decLeft p s
    · left
      subst hm
      unfold landOn
      split
      · split
        · trivial
        · exact ⟨.out _, rfl, by rw [← h]; simp [decLeft, State.bitsLeft]; omega⟩
      · exact ⟨.descending _ _, rfl, by rw [← h]; simp [decLeft, State.bitsLeft]; omega⟩
    · exact .inr h
  cases p with
  | atRoot =>
    simp only [decBody]
    split
    · trivial
    · rename_i root _
      rcases inRead_cases 1 s with ⟨h, _⟩ | ⟨_, _, h⟩ | ⟨_, hl, h⟩
      · rw [ha] at h; cases h
      · simp only [h]; trivial
      · simp only [h]
        rcases hland (fromRoot root (BitVec.ofNat 1 (bitsToNat (s.inputRest.take 1)))) hl _ rfl with h | h
        · exact h
        · exact absurd rfl h
  | descending l r =>
    simp only [decBody]
    rcases inRead_cases 1 s with ⟨h, _⟩ | ⟨_, _, h⟩ | ⟨_, hl, h⟩
    · rw [ha] at h; cases h
    · simp only [h]; trivial
    · simp only [h]
      rcases hland (if BitVec.ofNat 1 (bitsToNat (s.inputRest.take 1)) = 0#1 then l else r) hl _ rfl with h | h
      · exact h
      · exact absurd rfl h
  | out y => exact ⟨.atRoot, rfl, by simp [decLeft, State.bitsLeft, outWrite]⟩

end Sys2Proof.Machine
end

