-- ==== Sys2Proof/Tests/Slice0.lean ====
section
/-!
SUPPORT. Tests against the vectors of spec/95_test_vectors.md and words written out from spec/30_encoding.md, and one
witness for each statement that has hypotheses. Every expected value is the spec's.
-/
namespace Sys2Proof.Tests
open Sys2Proof Sys2Proof.Machine

set_option Elab.async false

/-! ## Helpers -/

/-- What `f` says of the next state, if there is one. -/
def after {α : Type} (o : Host.Outcome State Fault Refusal) (f : State → α) : Option α :=
  match o with
  | .next t => some (f t)
  | .fault _ => none
  | .refused _ => none

/-- The refusal, if that is the outcome. -/
def refusal (o : Host.Outcome State Fault Refusal) : Option Refusal :=
  match o with
  | .next _ => none
  | .fault _ => none
  | .refused r => some r

/-- The state after reset at phase `p`. -/
def atPhase (p : Phase) : State := { State.reset with phase := p }

/-- The same with the unread input `bits`. -/
def reading (p : Phase) (bits : Bits) : State := { atPhase p with inBits := bits }

/-- The state after reset with one turn pending. -/
def turned (t : Turn) (p : Phase) : State := { atPhase p with agenda := [t] }

def bytesOf (l : List Nat) : Bits := unpackBytes (l.map (BitVec.ofNat 8))

/-- The input of vector V-C1, "AAAAAAAAB". -/
def input1 : List Byte := [0x41#8, 0x41#8, 0x41#8, 0x41#8, 0x41#8, 0x41#8, 0x41#8, 0x41#8, 0x42#8]

/-- The tree of vector V-B1. -/
def tree1 : HuffTree := .internal 10 (.internal 2 (.leaf 0x42#9 1) (.leaf 0x100#9 1)) (.leaf 0x41#9 8)

/-- A tree with one leaf, the sentinel's (V-B2). -/
def tree2 : HuffTree := .leaf 0x100#9 1

/-- After COUNT, BUILD and GENCODES of the input "A" (V-B11). -/
def tree3 : HuffTree := .internal 2 (.leaf 0x41#9 1) (.leaf 0x100#9 1)

def coded : State :=
  { State.reset with
    freq := freqOf [0x41#8], total := 1, freqValid := true, tree := some tree3, nodes := 3, treeValid := true
    treeSrc := .built, len := (codeTable tree3).len, code := (codeTable tree3).code, codesValid := true }

/-- The bits of V-E1's artifact up to the last bit of the sentinel's code (76 bits). -/
def artifact1 : Bits := (bytesOf [0xFA, 0xCE, 0x82, 0x01, 0x24, 0x2C, 0x02, 0x41, 0xFF, 0x10]).take 76

/-! ## WellFormed: each check refuses an ill-formed term -/

theorem test_params_default : Params.default.wf = true := by decide
theorem test_params_magic_zero : ({ Params.default with magic := 0#32 } : Params).wf = false := by decide
theorem test_params_countW_low : ({ Params.default with countW := 1 } : Params).wf = false := by decide
theorem test_params_countW_high : ({ Params.default with countW := 33 } : Params).wf = false := by decide
theorem test_params_nodeCap_low : ({ Params.default with nodeCap := 512 } : Params).wf = false := by decide
theorem test_params_nodeCap_high : ({ Params.default with nodeCap := 65536 } : Params).wf = false := by decide
theorem test_params_edges : ({ magic := 1#32, countW := 2, nodeCap := 513 } : Params).wf = true ∧
    ({ magic := 1#32, countW := 32, nodeCap := 65535 } : Params).wf = true := by decide
theorem test_access_width : accessWf 0x04 2 = false := by decide
theorem test_access_misaligned : accessWf 0x06 4 = false := by decide
theorem test_access_outside : accessWf 0x40 4 = false := by decide
theorem test_access_edges : accessWf 0x00 4 = true ∧ accessWf 0x3C 4 = true := by decide
theorem test_word_reserved_opcode : commandWordWf 0x0000000C#32 = false := by decide
theorem test_word_rsvd : commandWordWf 0x00000101#32 = false := by decide
theorem test_instr_wf : Instr.count.wf = true ∧ commandWordWf (encode .count) = true := by decide

/-! ## Decode: each row's word written out bit by bit from R102 -/

theorem test_decode_count : decode 0b00000000000000000000000000000001#32 = .ok .count := by decide
theorem test_decode_build : decode 0b00000000000000000000000000000010#32 = .ok .build := by decide
theorem test_decode_gencodes : decode 0b00000000000000000000000000000011#32 = .ok .gencodes := by decide
theorem test_decode_serialize : decode 0b00000000000000000000000000000100#32 = .ok .serialize := by decide
theorem test_decode_deserialize : decode 0b00000000000000000000000000000101#32 = .ok .deserialize := by decide
theorem test_decode_writeMagic : decode 0b00000000000000000000000000000110#32 = .ok .writeMagic := by decide
theorem test_decode_encode : decode 0b00000000000000000000000000000111#32 = .ok .encode := by decide
theorem test_decode_checkMagic : decode 0b00000000000000000000000000001000#32 = .ok .checkMagic := by decide
theorem test_decode_decode : decode 0b00000000000000000000000000001001#32 = .ok .decode := by decide
theorem test_decode_rewind : decode 0b00000000000000000000000000001010#32 = .ok .rewind := by decide
theorem test_decode_close : decode 0b00000000000000000000000000001011#32 = .ok .close := by decide
theorem test_decode_compress : decode 0b00000000000000000000000000010000#32 = .ok .compress := by decide
theorem test_decode_decompress : decode 0b00000000000000000000000000010001#32 = .ok .decompress := by decide
theorem test_decode_reserved : decode 0x00000000#32 = .error .reservedOpcode ∧
    decode 0x0000000F#32 = .error .reservedOpcode ∧ decode 0x000000FF#32 = .error .reservedOpcode ∧
    decode 0x80000001#32 = .error .reservedField := by decide
theorem test_decodeTableWord : decodeTableWord 32 0x10 = some .compress ∧ decodeTableWord 8 0x10 = some .compress ∧
    decodeTableWord 32 0x100 = none := by decide

/-! ## One step each, from the vectors of spec/95_test_vectors.md -/

/-- V-C3: the byte is counted, then the four trailing bits are not read. -/
theorem test_count_word :
    after (exec .count (reading (.count .loop) (bytesOf [0x41] ++ [true, true, true, true])))
      (fun t => (t.freq[byteEntry 0x41#8], t.freq[byteEntry 0x42#8], t.total, t.inPos)) = some (1, 0, 1, 8#32) ∧
    after (exec .count (reading (.count .loop) [true, true, true, true])) (fun t => (t.phase, t.inPos)) =
      some (.count .finish, 0#32) := by
  decide +kernel

/-- V-C6: with COUNT_W = 4 the 15th byte overflows. -/
theorem test_count_overflow :
    after (exec .count
      { reading (.count .loop) (bytesOf (List.replicate 15 0)) with
        params := { Params.default with countW := 4 }, total := 14, inCur := 112, inPos := 112#32 })
      (fun t => (t.statusWord, t.total, t.inPos, t.errPos)) = some (0x76#32, 14, 120#32, 120#32) := by
  decide +kernel

/-- V-B1. -/
theorem test_build_tree :
    after (exec .build { atPhase .build with freq := freqOf input1, freqValid := true })
      (fun t => (t.tree, t.nodes, t.statusWord)) = some (some tree1, 5, 0x302#32) := by
  decide +kernel

/-- V-B4: at equal weight leaves come before internal nodes. -/
theorem test_build_ties :
    (buildTree (freqOf [0x41#8, 0x42#8, 0x43#8])).map HuffTree.eraseWeights =
      some (.internal 0 (.internal 0 (.leaf 0x41#9 0) (.leaf 0x42#9 0))
        (.internal 0 (.leaf 0x43#9 0) (.leaf 0x100#9 0))) := by
  decide +kernel

/-- V-G1. -/
theorem test_gencodes_codes :
    after (exec .gencodes { atPhase .gencodes with tree := some tree1 })
      (fun t => (t.code[byteEntry 0x41#8], t.code[byteEntry 0x42#8], t.code[sentinelEntry], t.len[byteEntry 0x43#8])) =
      some ([true], [false, false], [false, true], 0#9) := by
  decide +kernel

/-- V-G2: the single-leaf code. -/
theorem test_gencodes_single :
    after (exec .gencodes { atPhase .gencodes with tree := some tree2 })
      (fun t => (t.code[sentinelEntry], t.len[sentinelEntry], t.codesValid)) = some ([false], 1#9, true) := by
  decide +kernel

/-- V-H1: the root's tag, then the last leaf's symbol 0x41. -/
theorem test_serialize_fields :
    after (exec .serialize { atPhase (.serialize .start) with tree := some tree1 }) (fun t => (t.outCur, t.outLen)) =
      some ([false], 1#32) ∧
    after (exec .serialize (atPhase (.serialize (.sym 0x41#9 [])))) (fun t => (t.outCur, t.phase)) =
      some ([false, false, true, false, false, false, false, false, true], .ended .serialize) := by
  decide +kernel

/-- V-H1: all 32 bits, `0 0 1 001000010 1 100000000 1 001000001`. -/
theorem test_header_bits : tree1.header = bytesOf [0x24, 0x2C, 0x02, 0x41] := by decide

/-- V-H11: the end of the stream inside the symbol. -/
theorem test_deserialize_truncated :
    after (exec .deserialize
      { reading (.deserialize (.sym [.left, .left])) (bytesOf [0xFA, 0xCE, 0x82, 0x01, 0x24]) with
        inCur := 35, inPos := 35#32, nodes := 3 })
      (fun t => (t.statusWord, t.errPos, t.nodes)) = some (0x26#32, 35#32, 3) := by
  decide +kernel

/-- V-H12: the 514th tag bit with NODE_CAP = 513 is consumed and overflows. -/
theorem test_deserialize_overflow :
    after (exec .deserialize
      { reading (.deserialize (.tag [])) (List.replicate 600 false) with
        params := { Params.default with nodeCap := 513 }, inCur := 513, inPos := 545#32, nodes := 513 })
      (fun t => (t.errCode, t.errPos, t.nodes)) = some (.headerOverflow, 546#32, 513) := by
  decide +kernel

/-- The tree of V-H1 read back: its last symbol closes the root, and the last assignments set the flags. -/
theorem test_deserialize_last :
    after (exec .deserialize
      { reading (.deserialize (.sym [.right (.internal 0 (.leaf 0x42#9 0) (.leaf 0x100#9 0))])) (bitsOf 9 0x41) with
        nodes := 5 }) (fun t => (t.phase, t.treeValid)) =
      some (.deserialize (.store (.internal 0 (.internal 0 (.leaf 0x42#9 0) (.leaf 0x100#9 0)) (.leaf 0x41#9 0))), false) ∧
    after (exec .deserialize (atPhase (.deserialize (.store tree2)))) (fun t => (t.tree, t.statusWord)) =
      some (some tree2, 0x602#32) := by
  decide +kernel

/-- V-E10. -/
theorem test_writeMagic_bits :
    after (exec .writeMagic (atPhase .writeMagic)) (fun t => (t.outCur, t.outLen)) =
      some (bytesOf [0xFA, 0xCE, 0x82, 0x01], 32#32) := by
  decide +kernel

/-- V-E12: a byte that has no code. -/
theorem test_encode_noCode :
    after (exec .encode { coded with phase := .encode .read, inBits := bytesOf [0x42], outLen := 32#32 })
      (fun t => (t.statusWord, t.errPos, t.outLen)) = some (0xB86#32, 8#32, 32#32) := by
  decide +kernel

/-- V-E1, V-G1: the second bit of the code of 0x42 is 0, and the next byte is read. -/
theorem test_encode_bit :
    after (exec .encode
      { atPhase (.encode (.emit (byteEntry 0x42#8) 1)) with
        len := (codeTable tree1).len, code := (codeTable tree1).code })
      (fun t => (t.outCur, t.phase)) = some ([false], .encode .read) := by
  decide +kernel

/-- V-D1: a zero magic. -/
theorem test_checkMagic_bad :
    after (exec .checkMagic (reading .checkMagic (bytesOf [0, 0, 0, 0, 0x24]))) (fun t => (t.statusWord, t.errPos)) =
      some (0x16#32, 32#32) := by
  decide +kernel

/-- V-D13: fewer than 32 bits. -/
theorem test_checkMagic_short :
    after (exec .checkMagic (reading .checkMagic (bytesOf [0, 0, 0]))) (fun t => (t.errCode, t.errPos)) =
      some (.truncHeader, 0#32) := by
  decide +kernel

/-- V-D7: a single-leaf root accepts the bit 1. -/
theorem test_decode_single :
    after (exec .decode { reading (.decode .atRoot) [true] with tree := some tree2 })
      (fun t => (t.phase, t.errCode, t.inPos, t.outLen)) = some (.ended .decode, .none, 1#32, 0#32) := by
  decide +kernel

/-- V-H13: symbol 0x141 is written as its low eight bits, 0x41. -/
theorem test_decode_out :
    after (exec .decode (atPhase (.decode (.out 0x141#9)))) (fun t => (t.outCur, t.phase)) =
      some (bytesOf [0x41], .decode .atRoot) := by
  decide +kernel

/-- V-P1. -/
theorem test_rewind :
    after (exec .rewind { reading .rewind (bytesOf [0x41]) with inCur := 8, inPos := 72#32 })
      (fun t => (t.inCur, t.inPos)) = some (0, 0#32) := by
  decide +kernel

/-- V-P2, V-E1: 76 bits are padded by four. -/
theorem test_close_pads :
    after (exec .close { atPhase .close with outCur := artifact1, outLen := 76#32 }) (fun t => (t.delivered, t.outLen)) =
      some ([[0xFA#8, 0xCE#8, 0x82#8, 0x01#8, 0x24#8, 0x2C#8, 0x02#8, 0x41#8, 0xFF#8, 0x10#8]], 0#32) := by
  decide +kernel

/-- V-P3: closing an empty output delivers zero bytes. -/
theorem test_close_empty :
    after (exec .close (atPhase .close)) (fun t => (t.delivered, t.phase)) = some ([[]], .ended .close) ∧
    after (exec .close (atPhase (.ended .close))) State.statusWord = some 0x02#32 := by
  decide +kernel

/-- V-E13: COMPRESS closes after an error, delivering the magic. -/
theorem test_compress_close :
    after (exec .compress
      { atPhase (.compress .close) with errCode := .countOverflow, outCur := bytesOf [0xFA, 0xCE, 0x82, 0x01] })
      (fun t => (t.delivered, t.phase)) = some ([[0xFA#8, 0xCE#8, 0x82#8, 0x01#8]], .ended .compress) ∧
    after (exec .compress { atPhase (.ended .compress) with errCode := .countOverflow }) State.statusWord =
      some 0x76#32 := by
  decide +kernel

/-- V-P9: COMPRESS is accepted; BUSY is set and nothing is written yet. -/
theorem test_compress_accept :
    after (step (State.reset.withFetchWord 32 0x10)) (fun t => (t.statusWord, t.cmd, t.phase)) =
      some (0x01#32, 0x10#32, .compress .clear) := by
  decide +kernel

/-- V-D1: DECOMPRESS of a zero magic goes on to the close with BUSY = 1 and the code recorded. -/
theorem test_decompress_bad :
    after (exec .decompress (reading (.decompress .check) (bytesOf [0, 0, 0, 0])))
      (fun t => (t.phase, t.errCode, t.errPos, t.busy)) = some (.decompress .close, .badMagic, 32#32, true) := by
  decide +kernel

/-- V-D4: the close of DECOMPRESS delivers the empty artifact, and its completion leaves the vector's STATUS. -/
theorem test_decompress_close :
    after (exec .decompress
      { atPhase (.decompress .close) with errCode := .truncPayload, treeValid := true, treeSrc := .read })
      (fun t => (t.delivered, t.phase)) = some ([[]], .ended .decompress) ∧
    after (exec .decompress
      { atPhase (.ended .decompress) with errCode := .truncPayload, treeValid := true, treeSrc := .read })
      State.statusWord = some 0x636#32 := by
  decide +kernel

/-! ## The host's side -/

/-- V-B10: BUILD after reset. -/
theorem test_build_sequence :
    after (step (State.reset.withFetchWord 32 2)) (fun t => (t.statusWord, t.errPos, t.cmd)) =
      some (0x56#32, 0#32, 2#32) := by
  decide +kernel

/-- V-P4, V-P6. -/
theorem test_illegal_command :
    after (step (turned (.write 0 4 0x0C#32) .idle)) (fun t => (t.statusWord, t.cmd)) = some (0x46#32, 0x0C#32) ∧
    after (step (turned (.write 0 4 0x102#32) .idle)) (fun t => t.statusWord) = some 0x46#32 := by
  decide +kernel

/-- V-P11: dropped while BUSY. -/
theorem test_dropped :
    after (step (turned (.write 0 4 0x11#32) (.compress .clear))) (fun t => (t.cmdDropped, t.phase)) =
      some (true, .compress .clear) := by
  decide +kernel

/-- V-P7, V-P8. -/
theorem test_write_status :
    after (step { turned (.write 4 4 0x02#32) .idle with done := true, errCode := .illegalCmd }) State.statusWord =
      some 0x44#32 ∧
    after (step { turned (.write 4 4 0xFFFFFFF5#32) .idle with done := true, cmdDropped := true }) State.statusWord =
      some 0x0A#32 := by
  decide +kernel

/-- V-P13, V-P16. -/
theorem test_read_constants :
    after (step (turned (.read 0x30 4) .idle)) State.hostData = some (some 0xFACE8201#32) ∧
    after (step (turned (.read 0x34 4) .idle)) State.hostData = some (some 0x002003FF#32) ∧
    after (step (turned (.read 0x38 4) .idle)) State.hostData = some (some 0#32) := by
  decide +kernel

/-- V-P14. -/
theorem test_write_idx :
    after (step (turned (.write 0x20 4 0xFFFFFFFF#32) .idle)) (fun t => t.readReg 0x20) = some 0x000701FF#32 := by
  decide +kernel

/-- The window reads after V-E1. -/
theorem test_windows :
    (fun s : State => (s.readReg 0x24, s.readReg 0x28, s.readReg 0x2C))
      { State.reset with
        freq := freqOf input1, freqValid := true, len := (codeTable tree1).len, code := (codeTable tree1).code
        codesValid := true, idxSym := 0x100#9 } = (1#32, 2#32, 0x40000000#32) := by
  decide +kernel

/-- R79: a byte access, a misaligned one, one past the window. -/
theorem test_refused_access :
    refusal (step (turned (.read 0 1) .idle)) = some (.hostAccess 0 1) ∧
    refusal (step (turned (.write 2 4 0#32) .idle)) = some (.hostAccess 2 4) ∧
    refusal (step (turned (.read 0x40 4) .idle)) = some (.hostAccess 0x40 4) ∧
    refusal (step (turned (.attachIn []) .build)) = some .attachWhileBusy := by
  decide +kernel

/-! ## Witnesses: for each statement with hypotheses, states and operands that meet them, clause by clause -/

theorem reset_dataInv : DataInv State.reset :=
  ⟨by decide, by decide, by decide, byteSum_replicate, fun h => (by cases h), by decide, fun h => (by cases h),
    fun h => (by cases h), fun h => (by cases h)⟩

theorem coded_dataInv : DataInv coded :=
  ⟨by decide, by decide, by decide, by decide +kernel, fun _ => by decide +kernel, by decide, fun _ => ⟨tree3, rfl, rfl⟩,
    fun _ _ => ⟨rfl, by decide +kernel⟩, fun _ => ⟨rfl, rfl, tree3, rfl, rfl, rfl⟩⟩

/-- `coded` running ENCODE at its read, with input `bits`. -/
def encoding (bits : Bits) : State := { coded with phase := .encode .read, inBits := bits }

theorem encoding_inv (bits : Bits) : Inv (encoding bits) := by
  obtain ⟨h1, _, h3, h4, h5, h6, h7, h8, h9⟩ := coded_dataInv
  exact ⟨⟨h1, Nat.zero_le _, h3, h4, h5, h6, h7, h8, h9⟩, fun _ => rfl, fun _ h => absurd rfl h, rfl⟩

theorem witness_DecodeAndEncodeAgree : decode 0x11#32 = .ok .decompress := by decide

theorem witness_StepRunsTheCommand :
    ((turned (.write 0 4 0x01#32) .idle).agenda = [.write 0 4 0x01#32] ∧ (turned (.write 0 4 0x01#32) .idle).phase = .idle ∧
      decode 0x01#32 = .ok .count) ∧
    ((turned .core .build).agenda = [.core] ∧ (turned .core .build).phase.running = some .build) ∧
    ((atPhase .build).agenda = [] ∧ (atPhase .build).phase.running = some .build) ∧
    ((turned .core .idle).agenda = [.core] ∧ (turned .core .idle).phase = .idle) ∧
    (State.reset.agenda = [] ∧ State.reset.phase = .idle) :=
  ⟨⟨rfl, rfl, rfl⟩, ⟨rfl, rfl⟩, ⟨rfl, rfl⟩, ⟨rfl, rfl⟩, rfl, rfl⟩

theorem witness_PlacedWordRunsNext : 0x11 < 2 ^ 32 ∧ decode (BitVec.ofNat 32 0x11) = .ok .decompress :=
  ⟨by norm_num, rfl⟩

theorem witness_AcceptedCommandStarts (i : Instr) : coded.phase = .idle ∧ Precondition i coded := by
  cases i <;> exact ⟨rfl, by first | exact trivial | rfl | exact ⟨rfl, rfl⟩⟩

theorem witness_SequenceRefusalChangesNothingElse :
    State.reset.phase = .idle ∧ ¬ Precondition .build State.reset ∧ ¬ Precondition .gencodes State.reset ∧
    ¬ Precondition .serialize State.reset ∧ ¬ Precondition .encode State.reset ∧ ¬ Precondition .decode State.reset ∧
    ¬ Precondition .gencodes { coded with treeSrc := .read } := by
  simp [Precondition, State.reset, State.resetWith]

theorem witness_IllegalWordRefused (w : Word) (hw : w ∈ [0x100#32, 0x00#32, 0x0C#32, 0x0F#32, 0x12#32, 0xFFFFFFFF#32]) :
    (turned (.write 0 4 w) .idle).agenda = [.write 0 4 w] ∧ (turned (.write 0 4 w) .idle).phase = .idle ∧
    (w.toNat / 256 ≠ 0 ∨
      ¬ ((1 ≤ w.toNat % 256 ∧ w.toNat % 256 ≤ 0x0B) ∨ w.toNat % 256 = 0x10 ∨ w.toNat % 256 = 0x11)) := by
  refine ⟨rfl, rfl, ?_⟩
  simp only [List.mem_cons, List.not_mem_nil, or_false] at hw
  rcases hw with rfl | rfl | rfl | rfl | rfl | rfl <;> decide

theorem witness_BusyCommandWriteDropped :
    (turned (.write 0 4 0x11#32) (.compress .clear)).agenda = [.write 0 4 0x11#32] ∧
    (turned (.write 0 4 0x11#32) (.compress .clear)).phase ≠ .idle := by decide

theorem witness_HostWriteTakesItsFields (off : Nat) (h : off ∈ [0x04, 0x08, 0x0C, 0x20, 0x3C]) :
    (turned (.write off 4 0xFFFFFFFF#32) .idle).agenda = [.write off 4 0xFFFFFFFF#32] ∧ off % 4 = 0 ∧ off < 0x40 ∧ off ≠ 0 := by
  refine ⟨rfl, ?_⟩
  revert off
  decide

theorem witness_HostReadReturnsTheRegister (off : Nat) (h : off ∈ [0x00, 0x34, 0x3C]) :
    (turned (.read off 4) .idle).agenda = [.read off 4] ∧ off % 4 = 0 ∧ off < 0x40 := by
  refine ⟨rfl, ?_⟩
  revert off
  decide

theorem witness_RegisterFieldsInPlace : State.reset.params.wf = true ∧
    (State.resetWith { magic := 1#32, countW := 2, nodeCap := 65535 }).params.wf = true := by decide

theorem witness_TableWindowsAreGated (y : Fin 257) :
    ({ coded with idxSym := BitVec.ofNat 9 y.val } : State).idxSym.toNat = y.val ∧ coded.phase = .idle ∧
    coded.freqValid = true ∧ coded.codesValid = true ∧
    256 < ({ coded with idxSym := 257#9 } : State).idxSym.toNat ∧ (atPhase .build).phase ≠ .idle ∧
    State.reset.freqValid = false ∧ State.reset.codesValid = false := by
  refine ⟨?_, rfl, rfl, rfl, by decide, by decide, rfl, rfl⟩
  have : (BitVec.ofNat 9 y.val).toNat = y.val := by simp; omega
  exact this

theorem witness_CodeWordShowsTheCodeBits :
    ({ coded with idxSym := 256#9, idxWord := 7#3 } : State).idxSym.toNat = (sentinelEntry : Fin 257).val ∧
    coded.phase = .idle ∧ coded.codesValid = true ∧ 0 < 32 ∧ 31 < 32 ∧
    256 < ({ coded with idxSym := 257#9 } : State).idxSym.toNat ∧ (atPhase .build).phase ≠ .idle ∧
    State.reset.codesValid = false := by
  refine ⟨rfl, rfl, rfl, by decide, by decide, by decide, by decide, rfl⟩

theorem witness_AccessOutsideInterfaceRefused (off bytes : Nat)
    (h : (off, bytes) ∈ [(0, 1), (0, 8), (2, 4), (0x3F, 4), (0x40, 4)]) :
    (bytes ≠ 4 ∨ off % 4 ≠ 0 ∨ 0x40 ≤ off) ∧ (turned (.read off bytes) .idle).agenda = [.read off bytes] ∧
    (turned (.write off bytes 0#32) .idle).agenda = [.write off bytes 0#32] := by
  refine ⟨?_, rfl, rfl⟩
  simp only [List.mem_cons, Prod.mk.injEq, List.not_mem_nil, or_false] at h
  omega

theorem witness_StreamsAttachOnlyWhileIdle :
    ((turned (.attachIn [true]) .idle).agenda = [.attachIn [true]] ∧ (turned (.attachIn [true]) .idle).phase = .idle) ∧
    ((turned (.attachOut []) .idle).agenda = [.attachOut []] ∧ (turned (.attachOut []) .idle).phase = .idle) ∧
    ((turned (.attachOut []) .close).agenda = [.attachOut []] ∧ (turned (.attachOut []) .close).phase ≠ .idle) := by
  decide

theorem witness_ResetClearsRegistersKeepsPorts : (turned .reset (.compress .close)).agenda = [.reset] := rfl

/-! Every edge of IRQ, each from a state with the invariant. -/

def irqState (t : Turn) (p : Phase) (done ie : Bool) : State := { turned t p with done := done, ie := ie }

theorem irqState_inv_idle (t : Turn) (done ie : Bool) : Inv (irqState t .idle done ie) :=
  ⟨reset_dataInv.of_eq, fun h => (by cases h), fun _ h => absurd rfl h, trivial⟩

theorem witness_InterruptEdges_rise :
    Inv (irqState .core (.ended .rewind) false true) ∧
    after (step (irqState .core (.ended .rewind) false true)) State.irq = some true ∧
    after (step (irqState (.write 0 4 2#32) .idle false true)) State.irq = some true ∧
    after (step (irqState (.write 8 4 1#32) .idle true false)) State.irq = some true :=
  ⟨⟨reset_dataInv.of_eq, fun _ => rfl, fun _ h => absurd rfl h, trivial⟩, by decide +kernel, by decide +kernel,
    by decide +kernel⟩

theorem witness_InterruptEdges_fall (t : Turn)
    (h : t ∈ [.write 4 4 2#32, .write 8 4 0#32, .write 0 4 1#32, .reset]) :
    Inv (irqState t .idle true true) ∧ (irqState t .idle true true).irq = true ∧
    after (step (irqState t .idle true true)) State.irq = some false := by
  refine ⟨irqState_inv_idle t true true, rfl, ?_⟩
  revert t
  decide +kernel

/-- An input stream that does not answer. -/
def waiting (p : Phase) : State := { atPhase p with inAnswers := false, tree := some tree1 }

theorem witness_UnansweredReadBlocksTheCore (p : Phase) : (waiting p).inAnswers = false ∧ (waiting p).agenda = [] ∧
    RunsCount .count .count ∧ RunsCount .compress (fun p => .compress (.count p)) ∧
    RunsDeserialize .deserialize .deserialize ∧ RunsDeserialize .decompress (fun p => .decompress (.deserialize p)) ∧
    RunsEncode .encode .encode ∧ RunsEncode .compress (fun p => .compress (.encode p)) ∧
    RunsDecode .decode .decode ∧ RunsDecode .decompress (fun p => .decompress (.decode p)) ∧
    (waiting (.decode .atRoot)).tree.isSome = true ∧ (waiting .checkMagic).phase.running = some .checkMagic ∧
    (waiting (.count .loop)).phase.running = some .count :=
  ⟨rfl, rfl, .inl ⟨rfl, rfl⟩, .inr ⟨rfl, rfl⟩, .inl ⟨rfl, rfl⟩, .inr ⟨rfl, rfl⟩, .inl ⟨rfl, rfl⟩, .inr ⟨rfl, rfl⟩,
    .inl ⟨rfl, rfl⟩, .inr ⟨rfl, rfl⟩, rfl, rfl, rfl⟩

theorem witness_CountStepByStep :
    RunsCount .count .count ∧ (atPhase (.count .clear)).phase = .count .clear ∧
    ((reading (.count .loop) (bytesOf [255])).phase = .count .loop ∧
      (reading (.count .loop) (bytesOf [255])).inAnswers = true ∧
      (reading (.count .loop) (bytesOf [255])).inputRest = bitsOf 8 (255#8).toNat ++ [] ∧
      State.reset.total ≠ 2 ^ State.reset.params.countW - 2) ∧
    (reading (.count .loop) (List.replicate 7 true)).inputRest.length < 8 ∧
    (atPhase (.count .finish)).phase = .count .finish := by
  exact ⟨.inl ⟨rfl, rfl⟩, rfl, ⟨rfl, rfl, by decide, by decide⟩, by decide, rfl⟩

theorem witness_CountOverflowIsNotCounted (p : Phase) :
    ({ reading p (bytesOf [7]) with params := { Params.default with countW := 2 }, total := 2 } : State).inputRest =
      bitsOf 8 (7#8).toNat ++ [] ∧
    ({ reading p (bytesOf [7]) with params := { Params.default with countW := 2 }, total := 2 } : State).total =
      2 ^ 2 - 2 ∧ (reading p (bytesOf [7])).inAnswers = true ∧ (reading p (bytesOf [7])).phase = p :=
  ⟨by show bytesOf [7] = _; decide, rfl, rfl, rfl⟩

theorem witness_CountTalliesTheInput :
    Quiet (reading (.count .clear) (unpackBytes [0#8, 255#8] ++ List.replicate 7 true)) ∧
    (reading (.count .clear) (unpackBytes [0#8, 255#8] ++ List.replicate 7 true)).inputRest =
      unpackBytes [0#8, 255#8] ++ List.replicate 7 true ∧ (List.replicate 7 true).length < 8 ∧
    [0#8, 255#8].length ≤ 2 ^ 2 - 2 :=
  ⟨⟨rfl, rfl⟩, rfl, by decide, by decide⟩

theorem witness_BuildMakesTheTreeOfTheRule :
    ({ atPhase .build with freq := freqOf [] } : State).phase = .build ∧
    ({ atPhase .build with freq := freqOf [] } : State).freq[sentinelEntry] ≠ 0 := by decide +kernel

theorem witness_BuiltTreeShape : buildTree (freqOf input1) = some tree1 ∧ buildTree (freqOf []) = some tree2 := by
  decide +kernel

theorem witness_BuiltWeightsFit : DataInv coded ∧ coded.treeValid = true ∧ coded.treeSrc = .built ∧
    coded.tree = some tree3 := ⟨coded_dataInv, rfl, rfl, rfl⟩

theorem witness_GencodesRecordsEveryPath :
    ({ atPhase .gencodes with tree := some tree1 } : State).phase = .gencodes ∧
    ({ atPhase .gencodes with tree := some tree1 } : State).tree = some tree1 ∧ tree1.TableSymbols ∧
    tree2.TableSymbols :=
  ⟨rfl, rfl, ⟨by decide, by decide⟩, ⟨by decide, by decide⟩⟩

theorem witness_CodesArePrefixFree : DataInv coded ∧ coded.codesValid = true ∧
    byteEntry 0x41#8 ≠ sentinelEntry ∧ coded.len[byteEntry 0x41#8] ≠ 0#9 ∧ coded.len[sentinelEntry] ≠ 0#9 :=
  ⟨coded_dataInv, rfl, by decide, by decide +kernel, by decide +kernel⟩

theorem witness_EveryCountedSymbolHasACode : DataInv coded ∧ coded.codesValid = true := ⟨coded_dataInv, rfl⟩

theorem witness_CodeLengthsAreBounded : DataInv coded ∧ coded.codesValid = true ∧ coded.tree = some tree3 :=
  ⟨coded_dataInv, rfl, rfl⟩

theorem witness_SerializeWritesOneFieldPerStep :
    RunsSerialize .serialize .serialize ∧ RunsSerialize .compress (fun p => .compress (.serialize p)) ∧
    (atPhase (.serialize (.node tree1 []))).phase = .serialize (.node tree1 []) ∧
    ({ atPhase (.serialize .start) with tree := some tree2 } : State).tree = some (.leaf 0x100#9 1) ∧
    (atPhase (.serialize (.sym 0x1FF#9 [tree1]))).phase = .serialize (.sym 0x1FF#9 [tree1]) ∧
    (atPhase (.serialize (.sym 0#9 []))).phase = .serialize (.sym 0#9 []) :=
  ⟨.inl ⟨rfl, rfl⟩, .inr ⟨rfl, rfl⟩, rfl, rfl, rfl, rfl⟩

theorem witness_SerializeWritesTheHeader :
    Quiet { atPhase (.serialize .start) with tree := some tree1 } ∧
    ({ atPhase (.serialize .start) with tree := some tree1 } : State).phase = .serialize .start ∧
    ({ atPhase (.serialize .start) with tree := some tree1 } : State).tree = some tree1 := ⟨⟨rfl, rfl⟩, rfl, rfl⟩

theorem witness_DeserializeReadsOneFieldPerStep :
    RunsDeserialize .deserialize .deserialize ∧ RunsDeserialize .decompress (fun p => .decompress (.deserialize p)) ∧
    (atPhase (.deserialize .start)).phase = .deserialize .start ∧
    ({ reading (.deserialize (.tag [])) [true] with nodes := 1022 } : State).nodes ≠ State.reset.params.nodeCap ∧
    (reading (.deserialize (.tag [])) [true]).inputRest = true :: [] ∧
    (reading (.deserialize (.tag [])) [false, true]).inputRest = false :: [true] ∧
    ((reading (.deserialize (.sym [.right tree1, .left])) (bitsOf 9 511)).phase =
        .deserialize (.sym ([tree1].map .right ++ .left :: [])) ∧
      (reading (.deserialize (.sym [.right tree1, .left])) (bitsOf 9 511)).inputRest = bitsOf 9 (511#9).toNat ++ []) ∧
    ((reading (.deserialize (.sym [.right tree1])) (bitsOf 9 0)).phase = .deserialize (.sym ([tree1].map .right)) ∧
      (reading (.deserialize (.sym [.right tree1])) (bitsOf 9 0)).inputRest = bitsOf 9 (0#9).toNat ++ []) ∧
    (atPhase (.deserialize (.store tree1))).phase = .deserialize (.store tree1) ∧ State.reset.inAnswers = true := by
  exact ⟨.inl ⟨rfl, rfl⟩, .inr ⟨rfl, rfl⟩, rfl, by decide, rfl, rfl, ⟨rfl, by decide⟩, ⟨rfl, by decide⟩, rfl, rfl⟩

theorem witness_DeserializeErrorsInOrder :
    (reading (.deserialize (.tag [])) []).inputRest = [] ∧
    (reading (.decompress (.deserialize (.sym []))) (List.replicate 8 true)).inputRest.length < 9 ∧
    (({ reading (.deserialize (.tag [])) [true] with nodes := 1023 } : State).inputRest ≠ [] ∧
      ({ reading (.deserialize (.tag [])) [true] with nodes := 1023 } : State).nodes =
        State.reset.params.nodeCap) ∧ State.reset.inAnswers = true := by
  exact ⟨rfl, by decide, ⟨by decide, rfl⟩, rfl⟩

theorem witness_DeserializeReadsTheHeader :
    Quiet (reading (.deserialize .start) (tree1.header ++ [true])) ∧
    (reading (.deserialize .start) (tree1.header ++ [true])).inputRest = tree1.header ++ [true] ∧
    tree1.size ≤ State.reset.params.nodeCap := ⟨⟨rfl, rfl⟩, rfl, by decide⟩

theorem witness_WriteMagicAppendsTheMagic :
    (atPhase .writeMagic).phase = .writeMagic ∧ (atPhase (.compress .magic)).phase = .compress .magic := ⟨rfl, rfl⟩

theorem witness_CheckMagicAcceptsTheMagic (p : Phase) :
    (reading p (bytesOf [0xFA, 0xCE, 0x82, 0x01])).inAnswers = true ∧
    (reading p (bytesOf [0xFA, 0xCE, 0x82, 0x01])).inputRest = bitsOf 32 Params.default.magic.toNat ++ [] ∧
    (reading p (bytesOf [0xFA, 0xCE, 0x82, 0x01])).phase = p :=
  ⟨rfl, by show bytesOf [0xFA, 0xCE, 0x82, 0x01] = _; decide, rfl⟩

theorem witness_CheckMagicErrors :
    (reading .checkMagic (bytesOf [0xFA, 0xCE, 0x82, 0x00])).inputRest = bitsOf 32 (0xFACE8200#32).toNat ++ [] ∧
    0xFACE8200#32 ≠ Params.default.magic ∧ (reading .checkMagic (List.replicate 31 true)).inputRest.length < 32 ∧
    (reading .checkMagic []).phase = .checkMagic ∧ State.reset.inAnswers = true ∧
    (reading (.decompress .check) (List.replicate 31 true)).phase = .decompress .check ∧
    (reading (.decompress .check) (List.replicate 31 true)).inputRest.length < 32 := by
  exact ⟨by decide, by decide, by decide, rfl, rfl, rfl, by decide⟩

theorem witness_RewindReturnsToTheStart : (atPhase .rewind).phase = .rewind := rfl

theorem witness_CloseDeliversThePaddedArtifact : ({ atPhase .close with outCur := [true] } : State).phase = .close := rfl

theorem witness_EncodeStepByStep :
    RunsEncode .encode .encode ∧ RunsEncode .compress (fun p => .compress (.encode p)) ∧
    (atPhase (.encode .reset)).phase = .encode .reset ∧
    ((encoding (bytesOf [0x41])).inputRest =
        bitsOf 8 (0x41#8).toNat ++ [] ∧ coded.len[byteEntry 0x41#8] ≠ 0#9) ∧
    (({ coded with phase := .encode .read, inBits := List.replicate 7 true } : State).inputRest.length < 8 ∧
      coded.len[sentinelEntry] ≠ 0#9) ∧
    ((codeTable tree1).code[sentinelEntry][0]? = some false ∧ 0 + 1 < (codeTable tree1).len[sentinelEntry].toNat) ∧
    (coded.code[byteEntry 0x41#8][0]? = some false ∧ coded.len[byteEntry 0x41#8].toNat ≤ 0 + 1 ∧
      byteEntry 0x41#8 ≠ sentinelEntry) ∧
    (coded.code[sentinelEntry][0]? = some true ∧ coded.len[sentinelEntry].toNat ≤ 0 + 1) := by
  refine ⟨.inl ⟨rfl, rfl⟩, .inr ⟨rfl, rfl⟩, rfl, ⟨by decide +kernel, by decide +kernel⟩,
    ⟨by decide +kernel, by decide +kernel⟩, ⟨by decide +kernel, by decide +kernel⟩,
    ⟨by decide +kernel, by decide +kernel, by decide⟩, by decide +kernel, by decide +kernel⟩

theorem witness_EncodeWithoutACodeRaisesNoCode (p : Phase) :
    ({ coded with phase := p, inBits := bytesOf [0x42] } : State).inAnswers = true ∧
    ({ coded with phase := p, inBits := bytesOf [0x42] } : State).inputRest = bitsOf 8 (0x42#8).toNat ++ [] ∧
    coded.len[byteEntry 0x42#8] = 0#9 :=
  ⟨rfl, by show bytesOf [0x42] = _; decide, by decide +kernel⟩

theorem witness_EncodeWritesThePayload :
    Quiet { coded with phase := .encode .reset, inBits := unpackBytes [0x41#8] ++ List.replicate 7 true } ∧
    (List.replicate 7 true).length < 8 ∧ (∀ y : Fin 257, coded.len[y].toNat = coded.code[y].length) ∧
    (∀ b ∈ [0x41#8], coded.len[byteEntry b] ≠ 0#9) ∧ coded.len[sentinelEntry] ≠ 0#9 :=
  ⟨⟨rfl, rfl⟩, by decide, fun y => coded_dataInv.len_eq rfl y, by decide +kernel, by decide +kernel⟩

theorem witness_DecodeStepByStep :
    RunsDecode .decode .decode ∧ RunsDecode .decompress (fun p => .decompress (.decode p)) ∧
    (({ reading (.decode .atRoot) [false] with tree := some tree1 } : State).inputRest = false :: [] ∧
      ({ reading (.decode .atRoot) [false] with tree := some tree1 } : State).tree =
        some (.internal 10 (.internal 2 (.leaf 0x42#9 1) (.leaf 0x100#9 1)) (.leaf 0x41#9 8))) ∧
    (reading (.decode (.descending (.leaf 0x42#9 1) (.leaf 0x100#9 1))) [false]).phase =
      .decode (.descending (.leaf 0x42#9 1) (.leaf 0x100#9 1)) ∧
    0x41#9 ≠ 256#9 ∧ 0x1FF#9 ≠ 256#9 ∧
    ({ reading (.decode .atRoot) [true] with tree := some (.leaf 0x5A#9 0) } : State).tree = some (.leaf 0x5A#9 0) ∧
    (atPhase (.decode (.out 0x1FF#9))).phase = .decode (.out 0x1FF#9) ∧ State.reset.inAnswers = true :=
  ⟨.inl ⟨rfl, rfl⟩, .inr ⟨rfl, rfl⟩, ⟨rfl, rfl⟩, rfl, by decide, by decide, rfl, rfl, rfl⟩

theorem witness_SentinelLeafCompletesDecode :
    (({ reading (.decode .atRoot) [true] with tree := some tree3 } : State).tree =
        some (.internal 2 (.leaf 0x41#9 1) (.leaf 0x100#9 1)) ∧
      (if true then (HuffTree.leaf 0x100#9 1) else .leaf 0x41#9 1) = .leaf 256#9 1) ∧
    (reading (.decompress (.decode (.descending tree2 tree1))) [false]).phase =
      .decompress (.decode (.descending tree2 tree1)) ∧
    (if false then tree1 else tree2) = .leaf 256#9 1 ∧
    ({ reading (.decode .atRoot) [false] with tree := some tree2 } : State).tree = some (.leaf 256#9 1) ∧
    (reading (.decode .atRoot) [false]).inputRest = false :: [] ∧ State.reset.inAnswers = true := by
  exact ⟨⟨rfl, rfl⟩, rfl, rfl, rfl, rfl, rfl⟩

theorem witness_DecodeTruncationRaises :
    (reading (.decode .atRoot) []).inputRest = [] ∧
    ({ reading (.decode .atRoot) [] with tree := some tree1 } : State).tree = some tree1 ∧
    (reading (.decompress (.decode (.descending tree1 tree2))) []).phase =
      .decompress (.decode (.descending tree1 tree2)) ∧ State.reset.inAnswers = true := ⟨rfl, rfl, rfl, rfl⟩

theorem witness_DecodeWritesTheBytes :
    Quiet { reading (.decode .atRoot) ([false] ++ [true] ++ [true, true]) with tree := some tree3 } ∧
    (∀ b ∈ [0x41#8], (b.setWidth 9, [false]) ∈ tree3.codes) ∧ (256#9, [true]) ∈ tree3.codes ∧
    ({ reading (.decode .atRoot) ([false] ++ [true] ++ [true, true]) with tree := some tree3 } : State).inputRest =
      [0x41#8].flatMap (fun _ => [false]) ++ [true] ++ [true, true] :=
  ⟨⟨rfl, rfl⟩, by decide, by decide, rfl⟩

theorem witness_CompressRunsItsBodiesInOrder :
    (atPhase (.compress (.count .finish))).phase = .compress (.count .finish) ∧
    (({ atPhase (.compress .build) with freq := freqOf input1 } : State).phase = .compress .build ∧
      buildTree (freqOf input1) = some tree1) ∧
    (({ atPhase (.compress .gencodes) with tree := some tree1 } : State).tree = some tree1 ∧ tree1.TableSymbols) ∧
    (coded.code[sentinelEntry][0]? = some true ∧ coded.len[sentinelEntry].toNat ≤ 0 + 1) :=
  ⟨rfl, ⟨rfl, by decide +kernel⟩, ⟨rfl, by decide, by decide⟩, by decide +kernel, by decide +kernel⟩

theorem witness_CompressDeliversTheArtifact :
    Quiet (reading (.compress .clear) (unpackBytes input1 ++ [true])) ∧ State.reset.params.wf = true ∧
    State.reset.errCode = .none ∧ [true].length < 8 ∧ input1.length ≤ 2 ^ State.reset.params.countW - 2 ∧
    State.reset.outCur = [] ∧ [0#8, 1#8].length ≤ 2 ^ 2 - 2 :=
  ⟨⟨rfl, rfl⟩, by decide, rfl, by decide, by decide, rfl, by decide⟩

theorem witness_ArtifactLength : buildTree (freqOf input1) = some tree1 := by decide +kernel

theorem witness_DecompressRunsItsBodiesInOrder :
    (Quiet (reading (.decompress (.deserialize .start)) (tree1.header ++ [true])) ∧
      (reading (.decompress (.deserialize .start)) (tree1.header ++ [true])).inputRest = tree1.header ++ [true] ∧
      tree1.size ≤ State.reset.params.nodeCap) ∧
    (atPhase (.decompress (.deserialize (.store tree1)))).phase = .decompress (.deserialize (.store tree1)) ∧
    (atPhase (.decompress .close)).phase = .decompress .close := ⟨⟨⟨rfl, rfl⟩, rfl, by decide⟩, rfl, rfl⟩

theorem witness_DecompressUndoesCompress (a : List Byte) (rest : Bits) :
    (Quiet (reading (.compress .clear) (unpackBytes input1)) ∧ State.reset.params.wf = true ∧
      State.reset.errCode = .none ∧ input1.length ≤ 2 ^ State.reset.params.countW - 2 ∧ State.reset.outCur = []) ∧
    Quiet (reading (.decompress .clear) (unpackBytes a ++ rest)) ∧
    (reading (.decompress .clear) (unpackBytes a ++ rest)).params =
      (reading (.compress .clear) (unpackBytes input1)).params :=
  ⟨⟨⟨rfl, rfl⟩, by decide, rfl, by decide, rfl⟩, ⟨rfl, rfl⟩, rfl⟩

theorem witness_ForeignMagicIsRejected :
    Quiet (reading (.decompress .clear) (bitsOf 32 (0#32).toNat ++ [true])) ∧ 0#32 ≠ Params.default.magic :=
  ⟨⟨rfl, rfl⟩, by decide⟩

theorem witness_TruncationIsDetected (n : Nat) (h : n ∈ [0, 31, 32, 63, 64, 75]) :
    Quiet (reading (.decompress .clear) ((artifactBits Params.default tree1 input1).take n)) ∧
    Params.default.wf = true ∧ buildTree (freqOf input1) = some tree1 ∧
    n < (artifactBits Params.default tree1 input1).length := by
  refine ⟨⟨rfl, rfl⟩, by decide, by decide +kernel, ?_⟩
  have : (artifactBits Params.default tree1 input1).length = 76 := by decide +kernel
  rw [this]
  revert n
  decide

theorem witness_EachCommandKeepsTheRest (i : Instr) :
    after (exec i (atPhase (firstPhase .rewind))) (fun _ => true) = some true := by
  revert i
  have h : ∀ i ∈ [Instr.count, .build, .gencodes, .serialize, .deserialize, .writeMagic, .encode, .checkMagic, .decode,
      .rewind, .close, .compress, .decompress],
      after (exec i (atPhase (firstPhase .rewind))) (fun _ => true) = some true := by decide +kernel
  intro i
  cases i <;> exact h _ (by decide)

/-! Every error of a running command, each from a state with the invariant. -/

theorem witness_FlagsAfterAnError :
    Inv (encoding (bytesOf [0x42])) ∧
    (encoding (bytesOf [0x42])).phase.running = some .encode ∧
    after (exec .encode (encoding (bytesOf [0x42]))) State.errCode = some .noCode ∧
    coded.errCode = .none :=
  ⟨encoding_inv _, rfl, by decide +kernel, rfl⟩

theorem witness_FlagsAfterAnError_reads (p : Phase) (e : ErrCode)
    (h : (p, e) ∈ [(.checkMagic, .truncHeader), (.deserialize (.sym []), .truncHeader),
      (.decompress .check, .truncHeader)]) :
    Inv { reading p [] with nodes := 1 } ∧ ∃ i, p.running = some i ∧
      after (exec i { reading p [] with nodes := 1 }) State.errCode = some e := by
  have hd : DataInv { reading p [] with nodes := 1 } :=
    ⟨reset_dataInv.params, Nat.zero_le 0, reset_dataInv.totalFits, byteSum_replicate, fun h => (by cases h),
      (by decide : 1 ≤ State.reset.params.nodeCap), fun h => (by cases h), fun h => (by cases h), fun h => (by cases h)⟩
  simp only [List.mem_cons, Prod.mk.injEq, List.not_mem_nil, or_false] at h
  rcases h with ⟨rfl, rfl⟩ | ⟨rfl, rfl⟩ | ⟨rfl, rfl⟩
  · exact ⟨⟨hd, fun _ => rfl, fun _ h => absurd rfl h, trivial⟩, .checkMagic, rfl, by decide +kernel⟩
  · exact ⟨⟨hd, fun _ => rfl, fun _ h => absurd rfl h, ⟨rfl, rfl, rfl⟩⟩, .deserialize, rfl, by decide +kernel⟩
  · exact ⟨⟨hd, fun _ => rfl, fun _ h => absurd rfl h, ⟨rfl, rfl, rfl⟩⟩, .decompress, rfl, by decide +kernel⟩

theorem witness_FlagsAfterAnError_magic :
    Inv (reading (.decompress .check) (List.replicate 32 false)) ∧
    after (exec .decompress (reading (.decompress .check) (List.replicate 32 false))) State.errCode = some .badMagic :=
  ⟨⟨⟨by decide, by decide, by decide, byteSum_replicate, fun h => (by cases h), by decide, fun h => (by cases h),
      fun h => (by cases h), fun h => (by cases h)⟩, fun _ => rfl, fun _ h => absurd rfl h, ⟨rfl, rfl, rfl⟩⟩,
    by decide +kernel⟩

theorem witness_FlagsAfterAnError_payload :
    Inv { coded with phase := .decompress (.decode .atRoot), treeSrc := .read, codesValid := false, freqValid := false } ∧
    after (exec .decompress
      { coded with phase := .decompress (.decode .atRoot), treeSrc := .read, codesValid := false, freqValid := false })
      State.errCode = some .truncPayload := by
  obtain ⟨h1, h2, h3, h4, _, h6, h7, _, _⟩ := coded_dataInv
  exact ⟨⟨⟨h1, h2, h3, h4, fun h => (by cases h), h6, h7, fun _ h => (by cases h), fun h => (by cases h)⟩, fun _ => rfl,
    fun _ h => absurd rfl h, ⟨rfl, rfl, rfl⟩⟩, by decide +kernel⟩

/-- COUNT with COUNT_W = 2 after two bytes 7, a third byte waiting. -/
def overflowing : State :=
  { reading (.count .loop) (bytesOf [7]) with
    params := { Params.default with countW := 2 }, total := 2
    freq := (Vector.replicate 257 0).set (byteEntry 7#8) 2 }

theorem witness_FlagsAfterAnError_count :
    Inv overflowing ∧ after (exec .count overflowing) State.errCode = some .countOverflow :=
  ⟨⟨⟨by decide, by decide, by decide, by decide +kernel, fun h => (by cases h), by decide, fun h => (by cases h),
      fun h => (by cases h), fun h => (by cases h)⟩, fun _ => rfl, fun _ h => absurd rfl h, ⟨rfl, rfl, rfl⟩⟩,
    by decide +kernel⟩

/-- DESERIALIZE with NODE_CAP = 513 under 513 open internal nodes, one more tag bit waiting. -/
def crowded : State :=
  { reading (.deserialize (.tag (List.replicate 513 .left))) [true] with
    params := { Params.default with nodeCap := 513 }, nodes := 513 }

theorem witness_FlagsAfterAnError_header :
    Inv crowded ∧ after (exec .deserialize crowded) State.errCode = some .headerOverflow :=
  ⟨⟨⟨by decide, by decide, by decide, byteSum_replicate, fun h => (by cases h), by decide, fun h => (by cases h),
      fun h => (by cases h), fun h => (by cases h)⟩, fun _ => rfl, fun _ h => absurd rfl h,
      ⟨rfl, rfl, by decide +kernel⟩⟩, by decide +kernel⟩

theorem witness_InvariantHoldsAtReset : Params.default.wf = true := by decide

theorem witness_EveryStepKeepsTheInvariant :
    Inv (encoding (bytesOf [0x41])) ∧
    after (step (encoding (bytesOf [0x41]))) State.phase =
      some (.encode (.emit (byteEntry 0x41#8) 0)) :=
  ⟨encoding_inv _, by decide +kernel⟩

theorem witness_NoFaultFromTheInvariant : Inv coded := 
  ⟨coded_dataInv, fun h => (by cases h), fun _ h => absurd rfl h, trivial⟩

theorem witness_EndedCommandCompletes (i : Instr) : (atPhase (.ended i)).phase = .ended i := rfl

theorem witness_EveryCommandTerminates :
    Inv (encoding (bytesOf [0x41])) ∧
    Quiet (encoding (bytesOf [0x41])) ∧
    (encoding (bytesOf [0x41])).phase ≠ .idle :=
  ⟨witness_EveryStepKeepsTheInvariant.1, ⟨rfl, rfl⟩, by decide⟩

end Sys2Proof.Tests
end

section
/-!
PROOFS. Whose step a turn is: the core's own turn, and the host's write to CMD (R232, R248).
-/
namespace Sys2Proof.Machine

/-- The core's turn while a command runs. -/
theorem coreTurn_of_running {s : State} {i : Instr} (h : s.phase.running = some i) : coreTurn s = exec i s := by
  rw [coreTurn, h]

/-- An idle core has no step (R248). -/
theorem coreTurn_of_idle {s : State} (h : s.phase = .idle) : coreTurn s = .next s := by
  rw [coreTurn, (running_eq_none_iff _).2 h]

/-- The host's write at offset 0 gives its word to CMD (R223). -/
theorem hostWrite_cmd (w : Word) (s : State) : hostWrite 0 4 w s = issueCommand w s := rfl

/-- A legal word written to CMD while idle gives its command to the core (R232). -/
theorem issueCommand_of_idle {s : State} {w : Word} {i : Instr} (hp : s.phase = .idle) (hd : decode w = .ok i) :
    issueCommand w s = exec i s := by
  simp [issueCommand, (busy_eq_false_iff s).2 hp, hd]

/-- Settles O3: the turn at the head of the agenda, or the core's turn of an empty one, by whether a command runs. -/
theorem stepRunsTheCommand : Obligations.StepRunsTheCommand := by
  refine ⟨fun s ts w i ha hp hd => ?write, fun s ts i ha hr => ?running, fun s i ha hr => ?alone,
    fun s ts ha hp => ?idle, fun s ha hp => ?idleAlone⟩
  case write =>
    calc step s = hostWrite 0 4 w { s with agenda := ts } := step_cons s _ ts ha
      _ = issueCommand w { s with agenda := ts } := hostWrite_cmd w _
      _ = exec i { s with agenda := ts } := issueCommand_of_idle hp hd
  case running => exact (step_cons s _ ts ha).trans (coreTurn_of_running hr)
  case alone => exact (step_nil s ha).trans (coreTurn_of_running hr)
  case idle => exact (step_cons s _ ts ha).trans (coreTurn_of_idle hp)
  case idleAlone => exact (step_nil s ha).trans (coreTurn_of_idle hp)

end Sys2Proof.Machine
end

section
/-!
PROOFS. What the core's turn is at each phase: the step of the running command's body, or its completion (R242).
-/
namespace Sys2Proof.Machine

theorem coreTurn_of_count {s : State} {p : CountPos} (h : s.phase = .count p) :
    coreTurn s = unitStep .count (countBody .count p s) := by
  simp [coreTurn, Phase.running, exec, execCount, h]

theorem coreTurn_of_build {s : State} (h : s.phase = .build) : coreTurn s = unitStep .build (buildBody s) := by
  simp [coreTurn, Phase.running, exec, execBuild, h]

theorem coreTurn_of_gencodes {s : State} (h : s.phase = .gencodes) :
    coreTurn s = unitStep .gencodes (gencodesBody s) := by
  simp [coreTurn, Phase.running, exec, execGencodes, h]

theorem coreTurn_of_serialize {s : State} {p : SerPos} (h : s.phase = .serialize p) :
    coreTurn s = unitStep .serialize (serBody .serialize p s) := by
  simp [coreTurn, Phase.running, exec, execSerialize, h]

theorem coreTurn_of_deserialize {s : State} {p : DesPos} (h : s.phase = .deserialize p) :
    coreTurn s = unitStep .deserialize (desBody .deserialize p s) := by
  simp [coreTurn, Phase.running, exec, execDeserialize, h]

theorem coreTurn_of_writeMagic {s : State} (h : s.phase = .writeMagic) :
    coreTurn s = unitStep .writeMagic (writeMagicBody s) := by
  simp [coreTurn, Phase.running, exec, execWriteMagic, h]

theorem coreTurn_of_encode {s : State} {p : EncPos} (h : s.phase = .encode p) :
    coreTurn s = unitStep .encode (encBody .encode p s) := by
  simp [coreTurn, Phase.running, exec, execEncode, h]

theorem coreTurn_of_checkMagic {s : State} (h : s.phase = .checkMagic) :
    coreTurn s = unitStep .checkMagic (checkMagicBody s) := by
  simp [coreTurn, Phase.running, exec, execCheckMagic, h]

theorem coreTurn_of_decode {s : State} {p : DecPos} (h : s.phase = .decode p) :
    coreTurn s = unitStep .decode (decBody .decode p s) := by
  simp [coreTurn, Phase.running, exec, execDecode, h]

theorem coreTurn_of_rewind {s : State} (h : s.phase = .rewind) : coreTurn s = unitStep .rewind (rewindBody s) := by
  simp [coreTurn, Phase.running, exec, execRewind, h]

theorem coreTurn_of_close {s : State} (h : s.phase = .close) : coreTurn s = unitStep .close (closeBody s) := by
  simp [coreTurn, Phase.running, exec, execClose, h]

theorem coreTurn_of_compress {s : State} {p : CompressPos} (h : s.phase = .compress p) :
    coreTurn s = compressStep p s := by
  simp [coreTurn, Phase.running, exec, execCompress, h]

theorem coreTurn_of_decompress {s : State} {p : DecompressPos} (h : s.phase = .decompress p) :
    coreTurn s = decompressStep p s := by
  simp [coreTurn, Phase.running, exec, execDecompress, h]

theorem coreTurn_of_ended {s : State} {i : Instr} (h : s.phase = .ended i) : coreTurn s = .next (finish s) := by
  rw [coreTurn_of_running (i := i) (by rw [h]; rfl), exec_ended h]

/-- `exec` while idle with R102's precondition is the acceptance that starts the command (R232). -/
theorem exec_of_idle_of_precondition {i : Instr} {s : State} (h : s.phase = .idle) (hp : Precondition i s) :
    exec i s = .next (accept i true (firstPhase i) s) := by
  cases i <;>
    simp_all [Precondition, firstPhase, exec, execCount, execBuild, execGencodes, execSerialize, execDeserialize,
      execWriteMagic, execEncode, execCheckMagic, execDecode, execRewind, execClose, execCompress, execDecompress]

/-- `exec` while idle without R102's precondition is the refusal of the command (R232). -/
theorem exec_of_idle_of_not_precondition {i : Instr} {s : State} (h : s.phase = .idle) (hp : ¬ Precondition i s) :
    exec i s = .next (accept i false (firstPhase i) s) := by
  cases i
  case gencodes =>
    have hg : (s.treeValid && decide (s.treeSrc = .built)) = false := by simpa [Precondition] using hp
    simp only [exec, execGencodes, h, hg, firstPhase]
  all_goals simp_all [Precondition, firstPhase, exec, execBuild, execSerialize, execEncode, execDecode]

/-- `exec` while idle is the acceptance of the command, under R102's precondition (R232). -/
theorem exec_of_idle (i : Instr) {s : State} (h : s.phase = .idle) :
    ∃ pre, exec i s = .next (accept i pre (firstPhase i) s) ∧ (pre = true ↔ Precondition i s) := by
  by_cases hp : Precondition i s
  · exact ⟨true, exec_of_idle_of_precondition h hp, by simp [hp]⟩
  · exact ⟨false, exec_of_idle_of_not_precondition h hp, by simp [hp]⟩

/-- `exec` of a command while another one runs is the dropped write (R249). -/
theorem exec_of_other {i : Instr} {s : State} (h : s.phase ≠ .idle) (hr : s.phase.running ≠ some i) :
    exec i s = .next (dropCommand s) := by
  cases i <;>
    simp only [exec, execCount, execBuild, execGencodes, execSerialize, execDeserialize, execWriteMagic,
      execEncode, execCheckMagic, execDecode, execRewind, execClose, execCompress, execDecompress] <;>
    split <;> simp_all [Phase.running]

/-- Everything `exec` can be: acceptance, the running command's step, or the dropped write (log 12). -/
theorem exec_cases (i : Instr) (s : State) :
    (s.phase = .idle ∧
      ∃ pre, exec i s = .next (accept i pre (firstPhase i) s) ∧ (pre = true ↔ Precondition i s)) ∨
    (s.phase.running = some i ∧ exec i s = coreTurn s) ∨
    (s.phase ≠ .idle ∧ s.phase.running ≠ some i ∧ exec i s = .next (dropCommand s)) := by
  by_cases h : s.phase = .idle
  · exact .inl ⟨h, exec_of_idle i h⟩
  · by_cases hr : s.phase.running = some i
    · exact .inr (.inl ⟨hr, (coreTurn_of_running hr).symm⟩)
    · exact .inr (.inr ⟨h, hr, exec_of_other h hr⟩)

end Sys2Proof.Machine
end

section
/-!
PROOFS. The invariant of the machine (Safety.lean) holds after reset and every turn of every agent keeps it.
-/
namespace Sys2Proof.Machine

/-! ### Reset (R53, R260) -/

/-- With all flags 0 and nothing counted, the invariant of the data asks only for legal parameters and a cursor inside
the stream. -/
theorem DataInv.of_cleared {s : State} (hp : s.params.wf = true) (hc : s.inCur ≤ s.inBits.length) (ht : s.total = 0)
    (hf : s.freq = Vector.replicate 257 0) (hn : s.nodes = 0) (hflags : FlagsClear s) : DataInv s := by
  obtain ⟨hfv, htv, hcv⟩ := hflags
  have h4 := Params.four_le hp
  exact ⟨hp, hc, by omega, by rw [hf, ht, byteSum_replicate], by simp [hfv], by omega, by simp [htv], by simp [htv],
    by simp [hcv]⟩

/-- An idle state needs only the invariant of the data. -/
theorem DataInv.inv_of_idle {s : State} (hd : DataInv s) (h : s.phase = .idle) : Inv s := by
  have hb : s.busy ≠ true := by rw [(busy_eq_false_iff s).2 h]; decide
  exact ⟨hd, fun h' => absurd h' hb, fun h' => absurd h' hb, by rw [PhaseOk, h]; trivial⟩

/-- Settles O56: nothing is counted, no flag is set and the core is idle. -/
theorem invariantHoldsAtReset : Obligations.InvariantHoldsAtReset := fun _ hp =>
  (DataInv.of_cleared hp (Nat.le_refl 0) rfl rfl rfl ⟨rfl, rfl, rfl⟩).inv_of_idle rfl

theorem Inv.assertReset {s : State} (hi : Inv s) : Inv s.assertReset :=
  have hd : DataInv s.assertReset :=
    .of_cleared hi.data.params hi.data.cursor rfl rfl rfl ⟨rfl, rfl, rfl⟩
  hd.inv_of_idle rfl

/-! ### Acceptance and the dropped write (R232, R249) -/

/-- The precondition of R102 is what the command's first position needs. -/
theorem phaseOk_of_precondition {i : Instr} {s : State} (h : Precondition i s) (hp : s.phase = firstPhase i) :
    PhaseOk s := by
  rw [PhaseOk, hp]
  cases i <;> exact h

theorem Inv.accept {s : State} (hi : Inv s) (hidle : s.phase = .idle) {i : Instr} {pre : Bool}
    (hpre : pre = true → Precondition i s) : Inv (accept i pre (firstPhase i) s) := by
  cases pre with
  | true =>
    rw [accept_of_pre]
    exact ⟨hi.data.of_eq, fun _ => rfl, fun _ h => absurd rfl h,
      phaseOk_of_precondition (i := i) (by cases i <;> exact hpre rfl) rfl⟩
  | false =>
    rw [accept_of_not_pre]
    exact DataInv.inv_of_idle hi.data.of_eq hidle

theorem Inv.dropCommand {s : State} (hi : Inv s) : Inv (dropCommand s) :=
  ⟨hi.data.of_eq, hi.busyDone, hi.busyError, hi.phaseOk⟩

theorem Inv.finish {s : State} (hi : Inv s) : Inv (finish s) := DataInv.inv_of_idle hi.data.of_eq rfl

/-! ### The composite commands (R186, R206) -/

theorem DataInv.invalidateFreq {s : State} (hd : DataInv s) : DataInv s.invalidateFreq :=
  ⟨hd.params, hd.cursor, hd.totalFits, hd.totalSum, by simp, hd.nodesFit, by simp, by simp, by simp⟩

/-- A running command with DONE = 0 and no error. -/
theorem DataInv.inv_of_noError {s : State} (hd : DataInv s) (hdone : s.done = false) (he : s.errCode = .none)
    (hp : PhaseOk s) : Inv s :=
  ⟨hd, fun _ => hdone, fun _ h => absurd he h, hp⟩

/-- Each position of COMPRESS leads to one that has what it needs: "each body's precondition hold[s] at that point by
the preceding bodies" (R186). -/
theorem compressStep_inv {s : State} {p : CompressPos} (hi : Inv s) (hp : s.phase = .compress p) :
    ∃ t, compressStep p s = .next t ∧ Inv t := by
  have hok : CompressOk p s := by simpa only [PhaseOk, hp] using hi.phaseOk
  by_cases hcl : p = .close
  · subst hcl
    have hb : s.busy = true := by simp [busy_eq_true_iff, hp]
    exact ⟨_, rfl, hi.data.of_eq, fun _ => hi.busyDone hb, fun _ _ => .inr (.inr (.inl rfl)), trivial⟩
  obtain ⟨hd, he⟩ := hi.running (by simp [hp]) (by simpa [hp] using hcl) (by simp [hp]) (by simp [hp])
  cases p with
  | clear => exact ⟨_, rfl, DataInv.inv_of_noError hi.data.invalidateFreq.of_eq hd he ⟨rfl, rfl, rfl⟩⟩
  | rewind => exact ⟨_, rfl, DataInv.inv_of_noError hi.data.rewind.of_eq hd he hok⟩
  | magic => exact ⟨_, rfl, DataInv.inv_of_noError hi.data.of_eq hd he ⟨hok, trivial⟩⟩
  | count q =>
    refine compositeStep_inv hi (countBody_keeps _ q s hi.data hok.2) hd he ?_ (fun _ _ h => h) (fun _ _ _ => trivial)
      (.inl rfl) ?_
    · rintro s' ⟨p', hp', hf, h⟩
      rw [PhaseOk, hp']
      exact ⟨hf, h⟩
    · intro e s' h
      obtain ⟨_, _, _, _, _, _, _, _, rfl⟩ := (countBody_frame _ q s).of_raise h
      rfl
  | build =>
    refine compositeStep_inv hi (buildBody_keeps s hi.data hok) hd he (fun _ h => h.elim) (fun _ _ h => h)
      (fun _ _ h => h.elim) (.inl rfl) ?_
    intro e s' h
    obtain ⟨_, _, _, _, _, rfl⟩ := (buildBody_frame s).of_raise h
    rfl
  | gencodes =>
    refine compositeStep_inv hi (gencodesBody_keeps s hi.data hok.1 hok.2) hd he (fun _ h => h.elim)
      (fun s' hd' h => ⟨h, (hd'.codesMade h).1⟩) (fun _ _ h => h.elim) (.inl rfl) ?_
    intro e s' h
    obtain ⟨_, _, _, rfl⟩ := (gencodesBody_frame s).of_raise h
    rfl
  | serialize q =>
    refine compositeStep_inv hi (serBody_keeps _ q s hi.data hok.2) hd he ?_ (fun _ _ h => h.trans hok.1)
      (fun _ _ h => h.elim) (.inl rfl) ?_
    · rintro s' ⟨p', hp', h, hc⟩
      rw [PhaseOk, hp']
      exact ⟨hc.trans hok.1, h⟩
    · intro e s' h
      obtain ⟨_, _, _, rfl⟩ := (serBody_frame _ q s).of_raise h
      rfl
  | encode q =>
    refine compositeStep_inv hi (encBody_keeps _ q s hi.data hok) hd he ?_ (fun _ _ _ => trivial)
      (fun _ _ _ => trivial) (.inl rfl) ?_
    · rintro s' ⟨p', hp', h⟩
      rw [PhaseOk, hp']
      exact h
    · intro e s' h
      obtain ⟨_, _, _, _, _, rfl⟩ := (encBody_frame _ q s).of_raise h
      rfl
  | close => exact absurd rfl hcl

/-- Each position of DECOMPRESS leads to one that has what it needs (R206). -/
theorem decompressStep_inv {s : State} {p : DecompressPos} (hi : Inv s) (hp : s.phase = .decompress p) :
    ∃ t, decompressStep p s = .next t ∧ Inv t := by
  have hok : DecompressOk p s := by simpa only [PhaseOk, hp] using hi.phaseOk
  by_cases hcl : p = .close
  · subst hcl
    have hb : s.busy = true := by simp [busy_eq_true_iff, hp]
    exact ⟨_, rfl, hi.data.of_eq, fun _ => hi.busyDone hb, fun _ _ => .inr (.inr (.inr rfl)), trivial⟩
  obtain ⟨hd, he⟩ := hi.running (by simp [hp]) (by simp [hp]) (by simpa [hp] using hcl) (by simp [hp])
  cases p with
  | clear => exact ⟨_, rfl, DataInv.inv_of_noError hi.data.invalidateFreq.of_eq hd he ⟨rfl, rfl, rfl⟩⟩
  | rewind => exact ⟨_, rfl, DataInv.inv_of_noError hi.data.rewind.of_eq hd he hok⟩
  | check =>
    refine compositeStep_inv hi (checkMagicBody_keeps s hi.data) hd he (fun _ h => h.elim)
      (fun _ _ h => ⟨h.1.trans hok.1, trivial⟩) (fun _ _ h => h.2.1.trans hok.1) (.inr rfl) ?_
    intro e s' h
    obtain ⟨_, _, rfl⟩ := (checkMagicBody_frame s).of_raise h
    rfl
  | deserialize q =>
    refine compositeStep_inv hi (desBody_keeps _ q s hi.data hok.2) hd he ?_ ?_ ?_ (.inr rfl) ?_
    · rintro s' ⟨p', hp', h, hf⟩
      rw [PhaseOk, hp']
      exact ⟨hf.trans hok.1, h⟩
    · rintro s' - ⟨htv, hsrc, hf⟩
      exact ⟨hf.trans hok.1, hsrc, htv⟩
    · rintro e s' ⟨-, -, -, hf⟩
      exact hf.trans hok.1
    · intro e s' h
      obtain ⟨_, _, _, _, _, _, _, _, rfl⟩ := (desBody_frame _ q s).of_raise h
      rfl
  | decode q =>
    obtain ⟨hfv, hsrc, hq⟩ := hok
    refine compositeStep_inv hi (decBody_keeps _ q s hi.data hq) hd he ?_ ?_ ?_ (.inr rfl) ?_
    · rintro s' ⟨p', hp', h, hf, hs⟩
      rw [PhaseOk, hp']
      exact ⟨hf.trans hfv, hs.trans hsrc, h⟩
    · rintro s' - ⟨-, hf, -⟩
      exact hf.trans hfv
    · rintro e s' ⟨-, -, hf, -⟩
      exact hf.trans hfv
    · intro e s' h
      obtain ⟨_, _, _, _, _, rfl⟩ := (decBody_frame _ q s).of_raise h
      rfl
  | close => exact absurd rfl hcl

/-! ### The turns (R11, R88) -/

/-- With the invariant the core's turn is a step, and to a state with the invariant. -/
theorem coreTurn_inv {s : State} (hi : Inv s) : ∃ t, coreTurn s = .next t ∧ Inv t := by
  have hok := hi.phaseOk
  cases hp : s.phase
  case idle => exact ⟨s, coreTurn_of_idle hp, hi⟩
  case ended i => exact ⟨_, coreTurn_of_ended hp, hi.finish⟩
  case compress p => exact coreTurn_of_compress hp ▸ compressStep_inv hi hp
  case decompress p => exact coreTurn_of_decompress hp ▸ decompressStep_inv hi hp
  all_goals
    obtain ⟨hd, he⟩ := hi.running (by simp [hp]) (by simp [hp]) (by simp [hp]) (by simp [hp])
    simp only [PhaseOk, hp] at hok
  case count q =>
    rw [coreTurn_of_count hp]
    exact unitStep_inv hi (countBody_keeps _ q s hi.data hok) hd he
      fun s' ⟨_, hp', _, h⟩ => by rw [PhaseOk, hp']; exact h
  case build =>
    rw [coreTurn_of_build hp]
    exact unitStep_inv hi (buildBody_keeps s hi.data hok) hd he fun _ h => h.elim
  case gencodes =>
    rw [coreTurn_of_gencodes hp]
    exact unitStep_inv hi (gencodesBody_keeps s hi.data hok.1 hok.2) hd he fun _ h => h.elim
  case serialize q =>
    rw [coreTurn_of_serialize hp]
    exact unitStep_inv hi (serBody_keeps _ q s hi.data hok) hd he
      fun s' ⟨_, hp', h, _⟩ => by rw [PhaseOk, hp']; exact h
  case deserialize q =>
    rw [coreTurn_of_deserialize hp]
    exact unitStep_inv hi (desBody_keeps _ q s hi.data hok) hd he
      fun s' ⟨_, hp', h, _⟩ => by rw [PhaseOk, hp']; exact h
  case writeMagic =>
    exact ⟨_, coreTurn_of_writeMagic hp, DataInv.inv_of_noError hi.data.of_eq hd he trivial⟩
  case encode q =>
    rw [coreTurn_of_encode hp]
    exact unitStep_inv hi (encBody_keeps _ q s hi.data hok) hd he
      fun s' ⟨_, hp', h⟩ => by rw [PhaseOk, hp']; exact h
  case checkMagic =>
    rw [coreTurn_of_checkMagic hp]
    exact unitStep_inv hi (checkMagicBody_keeps s hi.data) hd he fun _ h => h.elim
  case decode q =>
    rw [coreTurn_of_decode hp]
    exact unitStep_inv hi (decBody_keeps _ q s hi.data hok) hd he
      fun s' ⟨_, hp', h, _⟩ => by rw [PhaseOk, hp']; exact h
  case rewind => exact ⟨_, coreTurn_of_rewind hp, DataInv.inv_of_noError hi.data.rewind.of_eq hd he trivial⟩
  case close => exact ⟨_, coreTurn_of_close hp, DataInv.inv_of_noError hi.data.of_eq hd he trivial⟩

/-- The host's write to CMD is dropped, refused or accepted (R232, R249). -/
theorem issueCommand_inv {s : State} (hi : Inv s) (w : Word) : ∃ t, issueCommand w s = .next t ∧ Inv t := by
  unfold issueCommand
  split
  · exact ⟨_, rfl, hi.dropCommand⟩
  · rename_i hb
    have hidle : s.phase = .idle := (busy_eq_false_iff s).1 (by simpa using hb)
    split
    · exact ⟨_, rfl, DataInv.inv_of_idle hi.data.of_eq hidle⟩
    · rename_i i _
      obtain ⟨pre, h, hpre⟩ := exec_of_idle i hidle
      exact ⟨_, h, hi.accept hidle hpre.1⟩

/-- A host write to another register changes DONE to 0 at most, of what the invariant sees (R223). -/
theorem Inv.writeReg {s : State} (hi : Inv s) (off : Nat) (v : Word) : Inv (s.writeReg off v) := by
  unfold State.writeReg
  split
  · exact ⟨hi.data.of_eq, fun h => by simp [State.writeStatus, hi.busyDone h], hi.busyError, hi.phaseOk⟩
  · exact ⟨hi.data.of_eq, hi.busyDone, hi.busyError, hi.phaseOk⟩
  · exact ⟨hi.data.of_eq, hi.busyDone, hi.busyError, hi.phaseOk⟩
  · exact hi

theorem Inv.attachInput {s : State} (hi : Inv s) (h : s.phase = .idle) (bits : Bits) : Inv (s.attachInput bits) :=
  DataInv.inv_of_idle (s := s.attachInput bits)
    ⟨hi.data.params, Nat.zero_le _, hi.data.totalFits, hi.data.totalSum, hi.data.freqSentinel, hi.data.nodesFit,
      hi.data.treeStored, hi.data.treeBuilt, hi.data.codesMade⟩ h

theorem Inv.attachOutput {s : State} (hi : Inv s) (h : s.phase = .idle) (prior : List (List Byte)) :
    Inv (s.attachOutput prior) :=
  DataInv.inv_of_idle hi.data.of_eq h

/-- Attaching is a step from an idle core only (R266). -/
theorem whileIdle_eq_next {s s' t : State} (h : whileIdle s s' = .next t) : s.phase = .idle ∧ s' = t := by
  unfold whileIdle at h
  split at h
  · cases h
  · rename_i hb
    exact ⟨(busy_eq_false_iff s).1 (by simpa using hb), by simpa using h⟩

theorem takeTurn_inv {turn : Turn} {s t : State} (hi : Inv s) (h : takeTurn turn s = .next t) : Inv t := by
  cases turn with
  | core =>
    obtain ⟨u, hu, hinv⟩ := coreTurn_inv hi
    cases hu.symm.trans h
    exact hinv
  | read off bytes =>
    simp only [takeTurn, hostRead] at h
    split at h <;> cases h
    exact ⟨hi.data.of_eq, hi.busyDone, hi.busyError, hi.phaseOk⟩
  | write off bytes v =>
    simp only [takeTurn, hostWrite] at h
    split at h
    · split at h
      · obtain ⟨u, hu, hinv⟩ := issueCommand_inv hi v
        cases hu.symm.trans h
        exact hinv
      · cases h
        exact hi.writeReg off v
    · cases h
  | attachIn bits =>
    obtain ⟨hidle, rfl⟩ := whileIdle_eq_next h
    exact hi.attachInput hidle bits
  | attachOut prior =>
    obtain ⟨hidle, rfl⟩ := whileIdle_eq_next h
    exact hi.attachOutput hidle prior
  | answer b =>
    cases h
    exact ⟨hi.data.of_eq, hi.busyDone, hi.busyError, hi.phaseOk⟩
  | reset =>
    cases h
    exact hi.assertReset

/-- Settles O57: taking the next turn off the agenda is no concern of the invariant, and the turn itself keeps it. -/
theorem everyStepKeepsTheInvariant : Obligations.EveryStepKeepsTheInvariant := by
  intro s t hi h
  cases ha : s.agenda with
  | nil => exact takeTurn_inv (turn := .core) hi ((step_nil s ha).symm.trans h)
  | cons turn ts => exact takeTurn_inv (hi.withAgenda ts) ((step_cons s turn ts ha).symm.trans h)

end Sys2Proof.Machine
end

section
/-!
PROOFS. The frame of each command's step: which fields of the state a step of it may change (R28, R30 to R38).
-/
namespace Sys2Proof.Machine

/-- What no step of a running command changes: the parameters, CTRL, IDX, CMD, CMD_DROPPED, the attached input, the
agenda and the host's last read. -/
structure KeepsHostSide (s t : State) : Prop where
  params : t.params = s.params
  ie : t.ie = s.ie
  idxSym : t.idxSym = s.idxSym
  idxWord : t.idxWord = s.idxWord
  inBits : t.inBits = s.inBits
  inAnswers : t.inAnswers = s.inAnswers
  agenda : t.agenda = s.agenda
  hostData : t.hostData = s.hostData
  cmd : t.cmd = s.cmd
  cmdDropped : t.cmdDropped = s.cmdDropped

theorem compressStep_keepsHostSide {p : CompressPos} {s t : State} (h : compressStep p s = .next t) :
    KeepsHostSide s t := by
  cases p with
  | clear => cases h; constructor <;> rfl
  | rewind => cases h; constructor <;> rfl
  | magic => cases h; constructor <;> rfl
  | count q =>
    obtain ⟨_, ⟨_, _, _, _, _, _, _, _, rfl⟩, _, _, _, rfl⟩ := compositeStep_frame h (countBody_frame _ q s)
    constructor <;> rfl
  | build =>
    obtain ⟨_, ⟨_, _, _, _, _, rfl⟩, _, _, _, rfl⟩ := compositeStep_frame h (buildBody_frame s)
    constructor <;> rfl
  | gencodes =>
    obtain ⟨_, ⟨_, _, _, rfl⟩, _, _, _, rfl⟩ := compositeStep_frame h (gencodesBody_frame s)
    constructor <;> rfl
  | serialize q =>
    obtain ⟨_, ⟨_, _, _, rfl⟩, _, _, _, rfl⟩ := compositeStep_frame h (serBody_frame _ q s)
    constructor <;> rfl
  | encode q =>
    obtain ⟨_, ⟨_, _, _, _, _, rfl⟩, _, _, _, rfl⟩ := compositeStep_frame h (encBody_frame _ q s)
    constructor <;> rfl
  | close => cases h; constructor <;> rfl

/-- DECOMPRESS leaves FREQ, TOTAL and the code table alone besides (R206). -/
theorem decompressStep_frame {p : DecompressPos} {s t : State} (h : decompressStep p s = .next t) :
    KeepsHostSide s t ∧ t.freq = s.freq ∧ t.total = s.total ∧ t.len = s.len ∧ t.code = s.code := by
  cases p with
  | clear => cases h; exact ⟨by constructor <;> rfl, rfl, rfl, rfl, rfl⟩
  | rewind => cases h; exact ⟨by constructor <;> rfl, rfl, rfl, rfl, rfl⟩
  | check =>
    obtain ⟨_, ⟨_, _, rfl⟩, _, _, _, rfl⟩ := compositeStep_frame h (checkMagicBody_frame s)
    exact ⟨by constructor <;> rfl, rfl, rfl, rfl, rfl⟩
  | deserialize q =>
    obtain ⟨_, ⟨_, _, _, _, _, _, _, _, rfl⟩, _, _, _, rfl⟩ := compositeStep_frame h (desBody_frame _ q s)
    exact ⟨by constructor <;> rfl, rfl, rfl, rfl, rfl⟩
  | decode q =>
    obtain ⟨_, ⟨_, _, _, _, _, rfl⟩, _, _, _, rfl⟩ := compositeStep_frame h (decBody_frame _ q s)
    exact ⟨by constructor <;> rfl, rfl, rfl, rfl, rfl⟩
  | close => cases h; exact ⟨by constructor <;> rfl, rfl, rfl, rfl, rfl⟩

/-- Settles O54: acceptance and the dropped write change none of these fields but CMD and CMD_DROPPED; a running
command's step changes what its body's frame says. -/
theorem eachCommandKeepsTheRest : Obligations.EachCommandKeepsTheRest := by
  intro i s t h
  rcases exec_cases i s with ⟨hp, pre, he, -⟩ | ⟨hr, he⟩ | ⟨hp, hr, he⟩
  · cases he.symm.trans h
    cases pre <;> simp [accept_of_pre, accept_of_not_pre, hp]
  · rw [he] at h
    cases hp : s.phase <;> simp only [hp, Phase.running, Option.some.injEq, reduceCtorEq] at hr <;> subst hr
    case count q =>
      rw [coreTurn_of_count hp] at h
      obtain ⟨_, ⟨_, _, _, _, _, _, _, _, rfl⟩, _, _, _, _, rfl⟩ := unitStep_frame h (countBody_frame _ q s)
      simp
    case build =>
      rw [coreTurn_of_build hp] at h
      obtain ⟨_, ⟨_, _, _, _, _, rfl⟩, _, _, _, _, rfl⟩ := unitStep_frame h (buildBody_frame s)
      simp
    case gencodes =>
      rw [coreTurn_of_gencodes hp] at h
      obtain ⟨_, ⟨_, _, _, rfl⟩, _, _, _, _, rfl⟩ := unitStep_frame h (gencodesBody_frame s)
      simp
    case serialize q =>
      rw [coreTurn_of_serialize hp] at h
      obtain ⟨_, ⟨_, _, _, rfl⟩, _, _, _, _, rfl⟩ := unitStep_frame h (serBody_frame _ q s)
      simp
    case deserialize q =>
      rw [coreTurn_of_deserialize hp] at h
      obtain ⟨_, ⟨_, _, _, _, _, _, _, _, rfl⟩, _, _, _, _, rfl⟩ := unitStep_frame h (desBody_frame _ q s)
      simp
    case writeMagic =>
      cases (coreTurn_of_writeMagic hp).symm.trans h
      simp
    case encode q =>
      rw [coreTurn_of_encode hp] at h
      obtain ⟨_, ⟨_, _, _, _, _, rfl⟩, _, _, _, _, rfl⟩ := unitStep_frame h (encBody_frame _ q s)
      simp
    case checkMagic =>
      rw [coreTurn_of_checkMagic hp] at h
      obtain ⟨_, ⟨_, _, rfl⟩, _, _, _, _, rfl⟩ := unitStep_frame h (checkMagicBody_frame s)
      simp
    case decode q =>
      rw [coreTurn_of_decode hp] at h
      obtain ⟨_, ⟨_, _, _, _, _, rfl⟩, _, _, _, _, rfl⟩ := unitStep_frame h (decBody_frame _ q s)
      simp
    case rewind =>
      cases (coreTurn_of_rewind hp).symm.trans h
      simp
    case close =>
      cases (coreTurn_of_close hp).symm.trans h
      simp
    case compress p =>
      rw [coreTurn_of_compress hp] at h
      have hk := compressStep_keepsHostSide h
      simp [hk.params, hk.ie, hk.idxSym, hk.idxWord, hk.inBits, hk.inAnswers, hk.agenda, hk.hostData, hk.cmd,
        hk.cmdDropped]
    case decompress p =>
      rw [coreTurn_of_decompress hp] at h
      obtain ⟨hk, hfreq, htotal, hlen, hcode⟩ := decompressStep_frame h
      simp [hk.params, hk.ie, hk.idxSym, hk.idxWord, hk.inBits, hk.inAnswers, hk.agenda, hk.hostData, hk.cmd,
        hk.cmdDropped, hfreq, htotal, hlen, hcode]
    case ended =>
      cases (coreTurn_of_ended hp).symm.trans h
      simp
  · cases he.symm.trans h
    simp [hp, hr]

end Sys2Proof.Machine
end

section
/-!
PROOFS. What the host reads: the fields of STATUS, IDX and PARAMS, the table windows, and the registers after reset
(R24, R40 to R44, R53).
-/
namespace Sys2Proof.Machine

/-! ### The table windows (R41 to R43) -/

theorem freqData_of_valid {s : State} {y : Fin 257} (hy : s.idxSym.toNat = y.val) (hp : s.phase = .idle)
    (hv : s.freqValid = true) : s.freqData = BitVec.ofNat 32 s.freq[y] := by
  have hb := (busy_eq_false_iff s).2 hp
  simp [State.freqData, hy, hb, hv]

theorem codeLen_of_valid {s : State} {y : Fin 257} (hy : s.idxSym.toNat = y.val) (hp : s.phase = .idle)
    (hv : s.codesValid = true) : s.codeLen = s.len[y].setWidth 32 := by
  have hb := (busy_eq_false_iff s).2 hp
  simp [State.codeLen, hy, hb, hv]

theorem codeWord_of_valid {s : State} {y : Fin 257} (hy : s.idxSym.toNat = y.val) (hp : s.phase = .idle)
    (hv : s.codesValid = true) : s.codeWord = codeWindow s.code[y] s.idxWord.toNat := by
  have hb := (busy_eq_false_iff s).2 hp
  simp [State.codeWord, hy, hb, hv]

/-- While BUSY or with the table's flag 0 a window on an entry in range is closed. -/
theorem window_gate {s : State} {valid : Bool} (h : 256 < s.idxSym.toNat ∨ s.phase ≠ .idle ∨ valid = false)
    (hi : s.idxSym.toNat < 257) : (!s.busy && valid) = false := by
  rcases h with h | h | h
  · omega
  · simp [(busy_eq_true_iff s).2 h]
  · simp [h]

theorem freqData_of_gated {s : State} (h : 256 < s.idxSym.toNat ∨ s.phase ≠ .idle ∨ s.freqValid = false) :
    s.freqData = 0#32 := by
  unfold State.freqData
  split
  · rename_i hi
    simp [window_gate h hi]
  · rfl

theorem codeLen_of_gated {s : State} (h : 256 < s.idxSym.toNat ∨ s.phase ≠ .idle ∨ s.codesValid = false) :
    s.codeLen = 0#32 := by
  unfold State.codeLen
  split
  · rename_i hi
    simp [window_gate h hi]
  · rfl

theorem codeWord_of_gated {s : State} (h : 256 < s.idxSym.toNat ∨ s.phase ≠ .idle ∨ s.codesValid = false) :
    s.codeWord = 0#32 := by
  unfold State.codeWord
  split
  · rename_i hi
    simp [window_gate h hi]
  · rfl

/-- Settles O12: the two windows open and closed. -/
theorem tableWindowsAreGated : Obligations.TableWindowsAreGated := fun _ =>
  ⟨fun _ => freqData_of_valid, fun _ => codeLen_of_valid, freqData_of_gated, codeLen_of_gated⟩

/-- Bit `31 - j` of a window word is bit `32k + j` of the code, 0 past its end (R43). -/
theorem codeWindow_getLsbD (c : Bits) (k : Nat) {j : Nat} (hj : j < 32) :
    (codeWindow c k).getLsbD (31 - j) = c.getD (32 * k + j) false := by
  have h := bitsToNat_testBit ((List.range 32).map fun j => c.getD (32 * k + j) false) j (by simpa using hj)
  rw [codeWindow, BitVec.getLsbD_ofNat]
  simpa [show 31 - j < 32 by omega] using h

/-- Settles O13: the open window is the code's word, whose bits `codeWindow_getLsbD` gives; the closed one is 0. -/
theorem codeWordShowsTheCodeBits : Obligations.CodeWordShowsTheCodeBits := by
  refine fun s => ⟨fun y j hy hp hv hj => ?_, codeWord_of_gated⟩
  have hw : s.readReg 0x2C = codeWindow s.code[y] s.idxWord.toNat := codeWord_of_valid hy hp hv
  rw [hw, codeWindow_getLsbD _ _ hj]

/-! ### The registers after reset (R53) -/

/-- Settles O17: the windows are closed since their flags are 0, and every other register's fields are 0. -/
theorem resetStateReadsAsTabled : Obligations.ResetStateReadsAsTabled := by
  intro p
  have hstatus : (State.resetWith p).statusWord = 0#32 := BitVec.eq_of_toNat_eq (statusWord_toNat _)
  have hctrl : (State.resetWith p).ctrlWord = 0#32 := BitVec.eq_of_toNat_eq (ctrlWord_toNat _)
  have hidx : (State.resetWith p).idxRegister = 0#32 := BitVec.eq_of_toNat_eq (idxRegister_toNat _)
  have hfreq : (State.resetWith p).freqData = 0#32 := freqData_of_gated (.inr (.inr rfl))
  have hlen : (State.resetWith p).codeLen = 0#32 := codeLen_of_gated (.inr (.inr rfl))
  have hcode : (State.resetWith p).codeWord = 0#32 := codeWord_of_gated (.inr (.inr rfl))
  simp only [List.forall_mem_cons]
  exact ⟨rfl, rfl, rfl, hstatus, hctrl, rfl, rfl, rfl, rfl, rfl, hidx, hfreq, hlen, hcode, rfl, rfl,
    List.forall_mem_nil _⟩

/-! ### The fields of STATUS, IDX and PARAMS (R24, R40, R44) -/

theorem busy_eq_decide (s : State) : s.busy = decide (s.phase ≠ .idle) := by
  rw [Bool.eq_iff_iff, busy_eq_true_iff, decide_eq_true_iff]

theorem err_eq_decide (s : State) : s.err = decide (s.errCode ≠ .none) := by
  unfold State.err
  cases s.errCode <;> rfl

theorem treeSrc_bit_eq_decide (t : TreeSrc) : t.bit = decide (t = .read) := by cases t <;> rfl

/-- A field of a word as digits of its number. -/
theorem extractLsb'_eq_of_div {w : Word} {start len : Nat} {f : BitVec len}
    (h : w.toNat / 2 ^ start % 2 ^ len = f.toNat) : w.extractLsb' start len = f := by
  apply BitVec.eq_of_toNat_eq
  rw [BitVec.extractLsb'_toNat, Nat.shiftRight_eq_div_pow, h]

/-- A bit of a word as a digit of its number. -/
theorem getElem_eq_of_div {w : Word} {i : Nat} {h : i < 32} {b : Bool} (hb : w.toNat / 2 ^ i % 2 = b.toNat) :
    w[i] = b := by
  rw [getElem_eq_div, hb]
  cases b <;> rfl

/-- Settles O11: each field is some digits of the register's number, which the other fields do not reach. -/
theorem registerFieldsInPlace : Obligations.RegisterFieldsInPlace := by
  intro s hw
  have hs := statusWord_toNat s
  have hidx : (s.readReg 0x20).toNat = _ := idxRegister_toNat s
  have hparams : (s.readReg 0x34).toNat = _ := paramsWord_toNat s hw
  obtain ⟨-, -, hcountW, -, hnodeCap⟩ := Params.wf_bounds hw
  have hcode := s.errCode.code.isLt
  have hbusy := s.busy.toNat_le
  have hdone := s.done.toNat_le
  have herr := s.err.toNat_le
  have hdropped := s.cmdDropped.toNat_le
  have hfreq := s.freqValid.toNat_le
  have htree := s.treeValid.toNat_le
  have hsrc := s.treeSrc.bit.toNat_le
  have hcodes := s.codesValid.toNat_le
  have hsym := s.idxSym.isLt
  have hword := s.idxWord.isLt
  rw [← busy_eq_decide, ← err_eq_decide, ← treeSrc_bit_eq_decide]
  refine ⟨getElem_eq_of_div ?_, getElem_eq_of_div ?_, getElem_eq_of_div ?_, getElem_eq_of_div ?_,
    (extractLsb'_eq_of_div (f := s.errCode.code) ?_).trans (by cases s.errCode <;> rfl),
    getElem_eq_of_div ?_, getElem_eq_of_div ?_, getElem_eq_of_div ?_, getElem_eq_of_div ?_,
    extractLsb'_eq_of_div ?_, extractLsb'_eq_of_div ?_, extractLsb'_eq_of_div ?_, extractLsb'_eq_of_div ?_,
    extractLsb'_eq_of_div ?_, ?_, ?_, extractLsb'_eq_of_div ?_⟩
  all_goals
    simp only [BitVec.extractLsb'_toNat, Nat.shiftRight_eq_div_pow, hs, hidx, hparams, BitVec.toNat_ofNat]
    omega

end Sys2Proof.Machine
end

section
/-!
PROOFS. Where a step stops: the refusals of the host's turns (R79, R266), the core that waits for an unanswered read
(R73), and that nothing else stops a step from a state with the invariant.
-/
namespace Sys2Proof.Machine

/-! ### The word placed before all other turns (log 3) -/

/-- A number below 2^32 is itself the word of a 32-bit row. -/
theorem tableWord_of_lt {w : Nat} (hw : w < 2 ^ 32) : tableWord 32 w = BitVec.ofNat 32 w := by
  rw [tableWord, Nat.mod_eq_of_lt hw]

/-- Settles O4: the placed word is a write to CMD at the head of the agenda, with the core idle. -/
theorem placedWordRunsNext : Obligations.PlacedWordRunsNext := by
  intro s w i hw hdec
  obtain ⟨hwrite, -⟩ := stepRunsTheCommand
  exact hwrite (s.withFetchWord 32 w) s.agenda (tableWord 32 w) i rfl rfl (by rw [tableWord_of_lt hw, hdec])

/-! ### Host accesses (R79) -/

/-- An access is outside the register interface by its width, its alignment or its offset. -/
theorem accessWf_eq_false_iff (off bytes : Nat) :
    accessWf off bytes = false ↔ bytes ≠ 4 ∨ off % 4 ≠ 0 ∨ 0x40 ≤ off := by
  simp only [accessWf, Bool.and_eq_false_iff, decide_eq_false_iff_not, not_lt, or_assoc, ne_eq]

theorem hostRead_refused {off bytes : Nat} (h : accessWf off bytes = false) (s : State) :
    hostRead off bytes s = .refused (.hostAccess off bytes) := by
  simp [hostRead, h]

theorem hostWrite_refused {off bytes : Nat} (h : accessWf off bytes = false) (v : Word) (s : State) :
    hostWrite off bytes v s = .refused (.hostAccess off bytes) := by
  simp [hostWrite, h]

theorem hostRead_next {off bytes : Nat} (h : accessWf off bytes = true) (s : State) :
    hostRead off bytes s = .next { s with hostData := some (s.readReg off) } := by
  simp [hostRead, h]

/-- With the invariant a write inside the interface is a step: to CMD since every command word is answered (R232). -/
theorem Inv.hostWrite_next {s : State} (hi : Inv s) {off bytes : Nat} (h : accessWf off bytes = true) (v : Word) :
    ∃ t, hostWrite off bytes v s = .next t := by
  by_cases hoff : off = 0
  · subst hoff
    obtain ⟨t, ht, -⟩ := issueCommand_inv hi v
    exact ⟨t, by simp [hostWrite, h, ht]⟩
  · exact ⟨s.writeReg off v, by simp [hostWrite, h, hoff]⟩

/-- Settles O14: the refused access is the turn at the head of the agenda. -/
theorem accessOutsideInterfaceRefused : Obligations.AccessOutsideInterfaceRefused := by
  intro s ts off bytes v h
  have hwf := (accessWf_eq_false_iff off bytes).2 h
  exact ⟨fun ha => (step_cons s _ ts ha).trans (hostRead_refused hwf _),
    fun ha => (step_cons s _ ts ha).trans (hostWrite_refused hwf v _)⟩

/-! ### Attaching (R266) -/

/-- Attaching is a step while idle and refused while BUSY. -/
theorem whileIdle_cases (s s' : State) :
    (s.phase = .idle ∧ whileIdle s s' = .next s') ∨
    (s.phase ≠ .idle ∧ whileIdle s s' = .refused .attachWhileBusy) := by
  by_cases h : s.phase = .idle
  · exact .inl ⟨h, by simp [whileIdle, (busy_eq_false_iff s).2 h]⟩
  · exact .inr ⟨h, by simp [whileIdle, (busy_eq_true_iff s).2 h]⟩

/-! ### No fault (log 14) -/

/-- With the invariant a turn is a step, an access outside the interface, or an attach while BUSY. -/
theorem Inv.takeTurn_cases {s : State} (hi : Inv s) (turn : Turn) :
    (∃ t, takeTurn turn s = .next t) ∨
    (∃ off bytes v, accessWf off bytes = false ∧ takeTurn turn s = .refused (.hostAccess off bytes) ∧
      (turn = .read off bytes ∨ turn = .write off bytes v)) ∨
    (s.phase ≠ .idle ∧ takeTurn turn s = .refused .attachWhileBusy ∧
      ∃ bits prior, turn = .attachIn bits ∨ turn = .attachOut prior) := by
  cases turn with
  | core =>
    obtain ⟨t, ht, -⟩ := coreTurn_inv hi
    exact .inl ⟨t, ht⟩
  | read off bytes =>
    cases hwf : accessWf off bytes with
    | true => exact .inl ⟨_, hostRead_next hwf s⟩
    | false => exact .inr (.inl ⟨off, bytes, 0#32, hwf, hostRead_refused hwf s, .inl rfl⟩)
  | write off bytes v =>
    cases hwf : accessWf off bytes with
    | true => exact .inl (hi.hostWrite_next hwf v)
    | false => exact .inr (.inl ⟨off, bytes, v, hwf, hostWrite_refused hwf v s, .inr rfl⟩)
  | attachIn bits =>
    rcases whileIdle_cases s (s.attachInput bits) with ⟨-, h⟩ | ⟨hbusy, h⟩
    · exact .inl ⟨_, h⟩
    · exact .inr (.inr ⟨hbusy, h, bits, [], .inl rfl⟩)
  | attachOut prior =>
    rcases whileIdle_cases s (s.attachOutput prior) with ⟨-, h⟩ | ⟨hbusy, h⟩
    · exact .inl ⟨_, h⟩
    · exact .inr (.inr ⟨hbusy, h, [], prior, .inr rfl⟩)
  | answer b => exact .inl ⟨_, rfl⟩
  | reset => exact .inl ⟨_, rfl⟩

/-- Settles O58: an empty agenda leaves the core's turn, which is a step; a pending turn is one of `Inv.takeTurn_cases`. -/
theorem noFaultFromTheInvariant : Obligations.NoFaultFromTheInvariant := by
  intro s hi
  cases ha : s.agenda with
  | nil =>
    obtain ⟨t, ht, -⟩ := coreTurn_inv hi
    exact .inl ⟨t, (step_nil s ha).trans ht⟩
  | cons turn ts =>
    rw [step_cons s turn ts ha]
    rcases (hi.withAgenda ts).takeTurn_cases turn with
      hnext | ⟨off, bytes, v, hwf, href, hturn⟩ | ⟨hbusy, href, bits, prior, hturn⟩
    · exact .inl hnext
    · exact .inr (.inl ⟨off, bytes, v, ts, (accessWf_eq_false_iff off bytes).1 hwf, href, by simpa using hturn⟩)
    · exact .inr (.inr ⟨hbusy, href, bits, prior, ts, by simpa using hturn⟩)

/-! ### A body that goes on is the core's turn, as a command and inside a composite command -/

theorem RunsCount.coreTurn_of_cont {i : Instr} {k : CountPos → Phase} (h : RunsCount i k) {s t : State} {p : CountPos}
    (hp : s.phase = k p) (hb : countBody k p s = .cont t) : coreTurn s = .next t := by
  rcases h with ⟨-, rfl⟩ | ⟨-, rfl⟩
  · rw [coreTurn_of_count hp, hb, unitStep_cont]
  · rw [coreTurn_of_compress hp, compressStep, hb, compositeStep_cont]

theorem RunsDeserialize.coreTurn_of_cont {i : Instr} {k : DesPos → Phase} (h : RunsDeserialize i k) {s t : State}
    {p : DesPos} (hp : s.phase = k p) (hb : desBody k p s = .cont t) : coreTurn s = .next t := by
  rcases h with ⟨-, rfl⟩ | ⟨-, rfl⟩
  · rw [coreTurn_of_deserialize hp, hb, unitStep_cont]
  · rw [coreTurn_of_decompress hp, decompressStep, hb, compositeStep_cont]

theorem RunsEncode.coreTurn_of_cont {i : Instr} {k : EncPos → Phase} (h : RunsEncode i k) {s t : State} {p : EncPos}
    (hp : s.phase = k p) (hb : encBody k p s = .cont t) : coreTurn s = .next t := by
  rcases h with ⟨-, rfl⟩ | ⟨-, rfl⟩
  · rw [coreTurn_of_encode hp, hb, unitStep_cont]
  · rw [coreTurn_of_compress hp, compressStep, hb, compositeStep_cont]

theorem RunsDecode.coreTurn_of_cont {i : Instr} {k : DecPos → Phase} (h : RunsDecode i k) {s t : State} {p : DecPos}
    (hp : s.phase = k p) (hb : decBody k p s = .cont t) : coreTurn s = .next t := by
  rcases h with ⟨-, rfl⟩ | ⟨-, rfl⟩
  · rw [coreTurn_of_decode hp, hb, unitStep_cont]
  · rw [coreTurn_of_decompress hp, decompressStep, hb, compositeStep_cont]

/-! ### Waiting for an unanswered read (R73, log 8) -/

section Unanswered
variable {s : State} (h : s.inAnswers = false)
include h

theorem countBody_loop_pending (k : CountPos → Phase) : countBody k .loop s = .cont s := by
  simp [countBody, inRead_pending h]

theorem desBody_tag_pending (k : DesPos → Phase) (st : List Frame) : desBody k (.tag st) s = .cont s := by
  simp [desBody, inRead_pending h]

theorem desBody_sym_pending (k : DesPos → Phase) (st : List Frame) : desBody k (.sym st) s = .cont s := by
  simp [desBody, inRead_pending h]

theorem checkMagicBody_pending : checkMagicBody s = .cont s := by
  simp [checkMagicBody, inRead_pending h]

theorem encBody_read_pending (k : EncPos → Phase) : encBody k .read s = .cont s := by
  simp [encBody, inRead_pending h]

theorem decBody_atRoot_pending (k : DecPos → Phase) (ht : s.tree.isSome = true) :
    decBody k .atRoot s = .cont s := by
  obtain ⟨root, hroot⟩ := Option.isSome_iff_exists.1 ht
  simp [decBody, hroot, inRead_pending h]

theorem decBody_descending_pending (k : DecPos → Phase) (l r : HuffTree) :
    decBody k (.descending l r) s = .cont s := by
  simp [decBody, inRead_pending h]

end Unanswered

/-- Settles O19: with no turn pending the step is the core's turn, and at each reading position the body waits. -/
theorem unansweredReadBlocksTheCore : Obligations.UnansweredReadBlocksTheCore := by
  intro s i h ha _ hpos
  refine (step_nil s ha).trans ?_
  rcases hpos with ⟨k, hk, hp⟩ | ⟨k, hk, st, hp | hp⟩ | ⟨k, hk, hp⟩ | ⟨k, hk, ht, hp | ⟨l, r, hp⟩⟩ | hp | hp
  · exact hk.coreTurn_of_cont hp (countBody_loop_pending h k)
  · exact hk.coreTurn_of_cont hp (desBody_tag_pending h k st)
  · exact hk.coreTurn_of_cont hp (desBody_sym_pending h k st)
  · exact hk.coreTurn_of_cont hp (encBody_read_pending h k)
  · exact hk.coreTurn_of_cont hp (decBody_atRoot_pending h k ht)
  · exact hk.coreTurn_of_cont hp (decBody_descending_pending h k l r)
  · rw [coreTurn_of_checkMagic hp, checkMagicBody_pending h, unitStep_cont]
  · rw [coreTurn_of_decompress hp, decompressStep, checkMagicBody_pending h, compositeStep_cont]

end Sys2Proof.Machine
end

section
/-!
PROOFS. Command words (R100 to R104): the decoder inverts the encoder, the words of R102's map are the only legal ones,
and what the core does with an illegal one.
-/
namespace Sys2Proof.Machine

/-! ### The fields of a command word (R100) -/

theorem opcodeField_toNat (w : Word) : (opcodeField w).toNat = w.toNat % 256 := by
  simp [opcodeField]

theorem rsvdField_eq_zero_iff (w : Word) : rsvdField w = 0#24 ↔ w.toNat / 256 = 0 := by
  have hfield : (rsvdField w).toNat = w.toNat / 256 := by
    rw [rsvdField, BitVec.extractLsb'_toNat, Nat.shiftRight_eq_div_pow, Nat.mod_eq_of_lt (by omega)]
  rw [← BitVec.toNat_inj, hfield, BitVec.toNat_ofNat, Nat.zero_mod]

/-! ### The map of R102 -/

theorem encode_toNat_lt (i : Instr) : (encode i).toNat < 256 := by cases i <;> decide

theorem decodeOpcode_ok_iff (op : Nat) (i : Instr) : decodeOpcode op = .ok i ↔ op = (encode i).toNat := by
  constructor
  · intro h
    unfold decodeOpcode at h
    split at h <;> cases h <;> rfl
  · rintro rfl
    cases i <;> rfl

/-- The assigned opcodes (R104) are those of the commands. -/
theorem assignedOpcode_iff (op : Nat) : assignedOpcode op = true ↔ ∃ i, op = (encode i).toNat := by
  constructor
  · simp only [assignedOpcode, Bool.or_eq_true, decide_eq_true_eq]
    rintro ((⟨hlow, hhigh⟩ | rfl) | rfl)
    · interval_cases op
      exacts [⟨.count, rfl⟩, ⟨.build, rfl⟩, ⟨.gencodes, rfl⟩, ⟨.serialize, rfl⟩, ⟨.deserialize, rfl⟩,
        ⟨.writeMagic, rfl⟩, ⟨.encode, rfl⟩, ⟨.checkMagic, rfl⟩, ⟨.decode, rfl⟩, ⟨.rewind, rfl⟩, ⟨.close, rfl⟩]
    · exact ⟨.compress, rfl⟩
    · exact ⟨.decompress, rfl⟩
  · rintro ⟨i, rfl⟩
    cases i <;> decide

/-! ### The decoder (R101) -/

/-- A word decodes to a command exactly when it is that command's encoding (R101). -/
theorem decode_ok_iff (w : Word) (i : Instr) : decode w = .ok i ↔ w = encode i := by
  have hfields : decode w = .ok i ↔ w.toNat / 256 = 0 ∧ w.toNat % 256 = (encode i).toNat := by
    unfold decode
    split
    next hrsvd => simp [decodeOpcode_ok_iff, opcodeField_toNat, (rsvdField_eq_zero_iff w).1 hrsvd]
    next hrsvd => simp [mt (rsvdField_eq_zero_iff w).2 hrsvd]
  have := encode_toNat_lt i
  rw [hfields, ← BitVec.toNat_inj]
  omega

theorem decode_encode (i : Instr) : decode (encode i) = .ok i := (decode_ok_iff _ i).2 rfl

/-- The words that decode are the legal command words (R101, R104). -/
theorem exists_decode_ok_iff (w : Word) : (∃ i, decode w = .ok i) ↔ commandWordWf w = true := by
  simp only [commandWordWf, Bool.and_eq_true, decide_eq_true_eq, assignedOpcode_iff, ← exists_and_left]
  refine exists_congr fun i => ?_
  have := encode_toNat_lt i
  rw [decode_ok_iff, ← BitVec.toNat_inj]
  omega

/-- A legal command word in terms of its two fields (R101). -/
theorem commandWordWf_iff (w : Word) : commandWordWf w = true ↔
    w.toNat / 256 = 0 ∧ ((1 ≤ w.toNat % 256 ∧ w.toNat % 256 ≤ 0x0B) ∨ w.toNat % 256 = 0x10 ∨ w.toNat % 256 = 0x11) := by
  simp only [commandWordWf, assignedOpcode, Bool.and_eq_true, Bool.or_eq_true, decide_eq_true_eq, or_assoc]

/-- Settles O2: decoding inverts encoding, and the words that decode are the legal ones. -/
theorem decodeAndEncodeAgree : Obligations.DecodeAndEncodeAgree :=
  ⟨decode_encode, fun w i => (decode_ok_iff w i).1, fun w => (exists_decode_ok_iff w).trans (commandWordWf_iff w)⟩

/-- Settles O1: each of the thirteen words is the encoding of its command; the four reserved ones are evaluated. -/
theorem opcodeMapWordsDecode : Obligations.OpcodeMapWordsDecode :=
  ⟨decode_encode .count, decode_encode .build, decode_encode .gencodes, decode_encode .serialize,
    decode_encode .deserialize, decode_encode .writeMagic, decode_encode .encode, decode_encode .checkMagic,
    decode_encode .decode, decode_encode .rewind, decode_encode .close, decode_encode .compress,
    decode_encode .decompress, rfl, rfl, rfl, rfl⟩

/-! ### An illegal word written to CMD (R104, R232) -/

/-- An illegal word written to CMD while idle is refused (R232). -/
theorem issueCommand_of_illegal {s : State} {w : Word} (hp : s.phase = .idle) (hw : ¬ commandWordWf w = true) :
    issueCommand w s = .next (refuseIllegal w s) := by
  cases hd : decode w with
  | ok i => exact absurd ((exists_decode_ok_iff w).1 ⟨i, hd⟩) hw
  | error e => simp [issueCommand, (busy_eq_false_iff s).2 hp, hd]

/-- Settles O7: the write is the turn at the head of the agenda, and its refusal sets the four registers. -/
theorem illegalWordRefused : Obligations.IllegalWordRefused := by
  intro s ts w ha hp hw
  have hillegal : ¬ commandWordWf w = true := by rwa [commandWordWf_iff, not_and_or]
  calc step s = hostWrite 0 4 w { s with agenda := ts } := step_cons s _ ts ha
    _ = issueCommand w { s with agenda := ts } := hostWrite_cmd w _
    _ = .next (refuseIllegal w { s with agenda := ts }) := issueCommand_of_illegal hp hillegal

end Sys2Proof.Machine
end

section
/-!
PROOFS. The lengths of codes and artifacts (R113, R115).
-/
namespace Sys2Proof.Machine

/-! ### Code lengths (R115) -/

/-- Under a valid code table the stored tree is the one BUILD makes of FREQ, and the codes are its codes (R32, R33). -/
theorem DataInv.codes_of_tree {s : State} (hd : DataInv s) (hc : s.codesValid = true) {t : HuffTree}
    (ht : s.tree = some t) : Combines 0 (leafEntries s.freq) t ∧ s.code = (codeTable t).code := by
  obtain ⟨hvalid, hsrc, u, hu, -, hcode⟩ := hd.codesMade hc
  obtain ⟨v, hv, hcomb⟩ := hd.builtTree hvalid hsrc
  obtain rfl : u = t := by simpa [hu] using ht
  obtain rfl : v = u := by simpa [hv] using hu
  exact ⟨hcomb, hcode⟩

/-- No entry of a built tree's code table is longer than max(1, L - 1) bits (R115). -/
theorem built_code_length_le {freq : Vector Nat 257} {t : HuffTree} (h : Combines 0 (leafEntries freq) t)
    (y : Fin 257) : (codeTable t).code[y].length ≤ max 1 (t.leaves.length - 1) := by
  rcases built_code freq t h y with ⟨-, -, hempty⟩ | ⟨-, -, -, hmem⟩
  · simp [-Fin.getElem_fin, hempty]
  · exact t.codes_length _ hmem

/-- Settles O29: the second bound is the first for the at most 257 leaves of a built tree. -/
theorem codeLengthsAreBounded : Obligations.CodeLengthsAreBounded := by
  intro s t y hd hc ht
  obtain ⟨hcomb, hcode⟩ := hd.codes_of_tree hc ht
  have hlen := built_code_length_le hcomb y
  have hleaves := built_leaves_le hcomb
  rw [hcode]
  exact ⟨hlen, by omega⟩

/-! ### The payload (R109): a sum over the input is a sum over the alphabet -/

theorem freqOf_toList_getD (xs : List Byte) {y : Nat} (hy : y < 256) :
    (freqOf xs).toList.getD y 0 = xs.countP fun b => decide (b.toNat = y) := by
  have hne : y ≠ 256 := by omega
  rw [List.getD_eq_getElem _ _ (by rw [Vector.length_toList]; omega), Vector.getElem_toList, freqOf,
    Vector.getElem_ofFn, if_neg hne]

/-- Adding up `g` over the bytes of an input counts each byte value as often as it occurs. -/
theorem sum_map_toNat_countP (g : Nat → Nat) (xs : List Byte) :
    (xs.map fun b => g b.toNat).sum =
      ((List.range 256).map fun y => (xs.countP fun b => decide (b.toNat = y)) * g y).sum := by
  induction xs with
  | nil => simp only [List.map_nil, List.sum_nil, List.countP_nil, zero_mul, List.map_const', List.sum_replicate, smul_zero]
  | cons x xs ih =>
    have hx : ((List.range 256).map fun y => if x.toNat = y then g y else 0).sum = g x.toNat :=
      (Finset.sum_ite_eq (Finset.range 256) x.toNat g).trans (if_pos (Finset.mem_range.2 x.isLt))
    simp only [List.map_cons, List.sum_cons, List.countP_cons, decide_eq_true_eq, add_mul, ite_mul, one_mul, zero_mul,
      List.sum_map_add, hx, ih]
    omega

/-- The sum over the bytes of an input in terms of the counts that FREQ holds (R133). -/
theorem sum_map_toNat_freqOf (g : Nat → Nat) (xs : List Byte) :
    (xs.map fun b => g b.toNat).sum =
      ((List.range 256).map fun y => (freqOf xs).toList.getD y 0 * g y).sum := by
  rw [sum_map_toNat_countP]
  exact congrArg List.sum (List.map_congr_left fun y hy => by rw [freqOf_toList_getD xs (List.mem_range.1 hy)])

theorem payloadBits_length (code : Vector Bits 257) (xs : List Byte) :
    (payloadBits code xs).length =
      (xs.map fun b => code[byteEntry b].length).sum + code[sentinelEntry].length := by
  simp [-Fin.getElem_fin, payloadBits, List.length_flatMap]

/-- The payload of a built tree has `FREQ[s] * LEN[s]` bits for each byte value and those of the sentinel (R109). -/
theorem built_payload_length {xs : List Byte} {t : HuffTree} (h : Combines 0 (leafEntries (freqOf xs)) t) :
    (payloadBits (codeTable t).code xs).length =
      ((List.range 256).map fun y =>
        (freqOf xs).toList.getD y 0 * ((codeTable t).len.toList.getD y 0#9).toNat).sum +
      (codeTable t).len[sentinelEntry].toNat := by
  have hlen := codeTable_len_eq t (built_symbols_nodup h) (built_fits h)
  have hentry (b : Byte) :
      (codeTable t).code[byteEntry b].length = ((codeTable t).len.toList.getD b.toNat 0#9).toNat := by
    rw [← hlen, List.getD_eq_getElem _ _ (by rw [Vector.length_toList]; omega), Vector.getElem_toList]
    rfl
  simp only [payloadBits_length, hlen, hentry]
  rw [sum_map_toNat_freqOf fun y => ((codeTable t).len.toList.getD y 0#9).toNat]

/-! ### The artifact (R105, R113) -/

/-- A header has 11L - 1 bits for L leaves (R112). -/
theorem HuffTree.header_length_leaves (t : HuffTree) : t.header.length = 11 * t.leaves.length - 1 := by
  have := t.size_eq
  rw [t.header_length]
  omega

theorem closedBytes_length (bits : Bits) : (closedBytes bits).length = (bits.length + 7) / 8 := by
  have hpad : (bits ++ List.replicate (padLength bits.length) false).length = 8 * ((bits.length + 7) / 8) := by
    have h0 := length_add_padLength bits.length
    have h7 := padLength_le bits.length
    rw [List.length_append, List.length_replicate]
    omega
  have hbits := congrArg List.length (unpackBytes_packBytes _ _ hpad)
  rw [unpackBytes_length, hpad] at hbits
  exact Nat.eq_of_mul_eq_mul_left (by omega) hbits

/-- Settles O49: the lengths of magic, header and payload, and the padding of the last byte. -/
theorem artifactLength : Obligations.ArtifactLength := by
  intro p xs t ht
  refine ⟨?_, closedBytes_length _⟩
  rw [artifactBits, List.length_append, List.length_append, bitsOf_length, t.header_length_leaves,
    built_payload_length (buildTree_some ht), ← Nat.add_assoc]

end Sys2Proof.Machine
end

section
/-!
PROOFS. COUNT (R130 to R133): its body step by step, the overflow of TOTAL, and the run over a whole input.
-/
namespace Sys2Proof.Machine

/-! ### One step of COUNT's body (R130, R131); a whole word below the limit is `countBody_word` -/

section CountBody
variable (k : CountPos → Phase) {s : State}

theorem countBody_clear : countBody k .clear s = .cont
    { s with
      freqValid := false, treeValid := false, codesValid := false
      freq := Vector.replicate 257 0, total := 0, phase := k .loop } := rfl

theorem countBody_finish : countBody k .finish s = .done
    { s with freq := s.freq.set sentinelEntry 1, freqValid := true } := rfl

/-- Fewer than eight bits left end the loop, and stay unread (R132). -/
theorem countBody_eos (ha : s.inAnswers = true) (hl : s.inputRest.length < 8) :
    countBody k .loop s = .cont { s with phase := k .finish } := by
  simp [countBody, inRead_eos_of_rest ha hl]

/-- A whole word at the limit of TOTAL is consumed and not counted (R131). -/
theorem countBody_overflow (ha : s.inAnswers = true) {b : Byte} {rest : Bits}
    (hb : s.inputRest = bitsOf 8 b.toNat ++ rest) (hn : s.total = 2 ^ s.params.countW - 2) :
    countBody k .loop s = .raise .countOverflow { s with inCur := s.inCur + 8, inPos := s.inPos + 8#32 } := by
  simp [countBody, inRead_bitsOf ha b.toNat hb, hn]

end CountBody

/-! ### COUNT's body is the step of the command that runs it -/

theorem RunsCount.running {i : Instr} {k : CountPos → Phase} (h : RunsCount i k) (p : CountPos) :
    (k p).running = some i := by
  rcases h with ⟨rfl, rfl⟩ | ⟨rfl, rfl⟩ <;> rfl

theorem RunsCount.exec_of_cont {i : Instr} {k : CountPos → Phase} (h : RunsCount i k) {s t : State} {p : CountPos}
    (hp : s.phase = k p) (hb : countBody k p s = .cont t) : exec i s = .next t := by
  rw [← coreTurn_of_running (hp ▸ h.running p), h.coreTurn_of_cont hp hb]

theorem exec_of_count {s : State} {p : CountPos} (h : s.phase = .count p) :
    exec .count s = unitStep .count (countBody .count p s) := by
  rw [← coreTurn_of_running (by rw [h]; rfl), coreTurn_of_count h]

theorem exec_of_compress {s : State} {p : CompressPos} (h : s.phase = .compress p) :
    exec .compress s = compressStep p s := by
  rw [← coreTurn_of_running (by rw [h]; rfl), coreTurn_of_compress h]

/-- The last step of the command COUNT is its completion (R242, log 11). -/
theorem exec_count_finish {s : State} (h : s.phase = .count .finish) : exec .count s = .next
    { s with freq := s.freq.set sentinelEntry 1, freqValid := true, phase := .idle, done := true } := by
  rw [exec_of_count h, countBody_finish, unitStep_done, finish]

/-- Settles O20: the steps of the body that go on are steps of the command that runs it. -/
theorem countStepByStep : Obligations.CountStepByStep := by
  refine ⟨fun i k s hk => ⟨fun hp => ?clear, fun b rest hp ha hb hn => ?word, fun hp ha hl => ?eos⟩,
    fun s hp => exec_count_finish hp⟩
  case clear => exact hk.exec_of_cont hp (countBody_clear k)
  case word => exact hk.exec_of_cont hp (countBody_word k ha b hb hn)
  case eos => exact hk.exec_of_cont hp (countBody_eos k ha hl)

/-- Settles O21: the body raises the error, which ends COUNT and leads COMPRESS to its close (R233). -/
theorem countOverflowIsNotCounted : Obligations.CountOverflowIsNotCounted := by
  intro s b rest ha hb hn
  constructor
  · intro hp
    rw [exec_of_count hp, countBody_overflow .count ha hb hn, unitStep_raise, finish, recordError]
  · intro hp
    rw [exec_of_compress hp, compressStep, countBody_overflow _ ha hb hn, compositeStep_raise, recordError]

/-! ### The run over a whole input (R132, R133) -/

theorem byteSum_tally (xs : List Byte) (f : Vector Nat 257) : byteSum (tally f xs) = byteSum f + xs.length := by
  induction xs generalizing f with
  | nil => rfl
  | cons b bs ih => rw [tally, ih, byteSum_set_byte, List.length_cons, Nat.add_assoc, Nat.add_comm 1]

/-- The byte counts of an input sum to its length (R133). -/
theorem byteSum_freqOf (xs : List Byte) : byteSum (freqOf xs) = xs.length := by
  rw [← tally_freqOf, byteSum_set_sentinel, byteSum_tally, byteSum_replicate, Nat.zero_add]

/-- Settles O22: the clearing step, the loop (`count_run`) from an empty table, and the completing step. -/
theorem countTalliesTheInput : Obligations.CountTalliesTheInput := by
  intro s xs tail hq hp hb ht hn
  refine ⟨?_, byteSum_freqOf xs⟩
  have hk : RunsCount .count .count := .inl ⟨rfl, rfl⟩
  have hclear := hk.cont hq hp (countBody_clear _)
  have hloop := count_run hk xs
    { s with
      freqValid := false, treeValid := false, codesValid := false
      freq := Vector.replicate 257 0, total := 0, phase := .count .loop }
    tail hq rfl hb ht (by simpa using hn)
  have hfinish := hloop.trans (.one (Quiet.stepAt hq rfl rfl (exec_count_finish rfl)))
  simpa only [tally_freqOf, Nat.zero_add] using RunsIn.cons hclear hfinish

end Sys2Proof.Machine
end

section
/-!
PROOFS. BUILD (R140 to R145): its one step, the shape of the tree it makes, and the weights of a tree made of COUNT's FREQ.
-/
namespace Sys2Proof.Machine

/-! ### BUILD's step (R140, R242) -/

/-- BUILD's body stores the tree its loop made, of `2L - 1` nodes for the `L` entries of its first loop (R145). -/
theorem buildBody_of_tree {s : State} {t : HuffTree} (ht : buildTree s.freq = some t) : buildBody s = .done
    { s with
      tree := some t, nodes := 2 * (leafEntries s.freq).length - 1
      treeValid := true, treeSrc := .built, codesValid := false } := by
  rw [buildBody, ht, leafQueue_length, State.invalidateTree]

theorem exec_of_build {s : State} (h : s.phase = .build) : exec .build s = unitStep .build (buildBody s) := by
  rw [← coreTurn_of_running (by rw [h]; rfl), coreTurn_of_build h]

/-- Settles O23: the model's loop makes a tree of the rule's loop, which has no other. -/
theorem buildMakesTheTreeOfTheRule : Obligations.BuildMakesTheTreeOfTheRule := by
  intro s y hp hy
  obtain ⟨t, ht, hc⟩ := buildTree_combines s.freq y hy
  refine ⟨t, hc, fun t' hc' => (hc.unique _ t' (.refl _) hc').symm, ?_⟩
  rw [exec_of_build hp, buildBody_of_tree ht, unitStep_done, finish]

/-! ### The shape of a built tree (R143, R145) -/

/-- The root of a built tree weighs all counts together (R143). -/
theorem built_weight {freq : Vector Nat 257} {t : HuffTree} (h : Combines 0 (leafEntries freq) t) :
    t.weight = freq.toList.sum := h.weight.trans (queueWeight_leafEntries freq)

theorem built_weighted {freq : Vector Nat 257} {t : HuffTree} (h : Combines 0 (leafEntries freq) t) : t.Weighted :=
  h.weighted (leafEntries_weighted freq)

/-- Settles O24: what the loop keeps of the leaves and weights of its queue, for the queue of the nonzero counts. -/
theorem builtTreeShape : Obligations.BuiltTreeShape := by
  intro freq t ht
  have hc := buildTree_some ht
  have hsize : t.size = 2 * t.leaves.length - 1 := by rw [← t.size_eq, Nat.add_sub_cancel]
  exact ⟨built_symbols_nodup hc, built_mem_leaves hc, hsize, built_leaves_le hc, built_weighted hc, built_weight hc⟩

/-! ### The weights of a tree made of COUNT's FREQ (R131, R143) -/

/-- The stored tree is the one BUILD makes of FREQ, while it is valid and built (R33, R47). -/
theorem DataInv.combines_of_tree {s : State} (hd : DataInv s) (hv : s.treeValid = true) (hs : s.treeSrc = .built)
    {t : HuffTree} (ht : s.tree = some t) : Combines 0 (leafEntries s.freq) t :=
  buildTree_some ((hd.treeBuilt hv hs).2.trans ht)

/-- All counts of a valid FREQ: the TOTAL bytes and the sentinel (R133). -/
theorem DataInv.freq_sum {s : State} (hd : DataInv s) (hf : s.freqValid = true) : s.freq.toList.sum = s.total + 1 := by
  rw [toList_sum_split, hd.totalSum, hd.freqSentinel hf]

/-- Settles O25: the root weighs all counts together, which is TOTAL + 1; TOTAL is at most 2^COUNT_W - 2. -/
theorem builtWeightsFit : Obligations.BuiltWeightsFit := by
  intro s t hd hv hs ht
  have hf := (hd.treeBuilt hv hs).1
  have hc := hd.combines_of_tree hv hs ht
  have hroot : t.weight = s.total + 1 := (built_weight hc).trans (hd.freq_sum hf)
  have hfits := hd.totalFits
  refine ⟨hroot, by omega, ?sentinel, fun n hn => (built_weighted hc).weight_le hn⟩
  exact (built_mem_leaves hc sentinel 1).2 ⟨sentinelEntry, rfl, hd.freqSentinel hf, one_ne_zero⟩

end Sys2Proof.Machine
end

section
/-!
PROOFS. GENCODES (R150 to R153): its one step, and what a valid code table holds.
-/
namespace Sys2Proof.Machine

/-! ### GENCODES' step (R150, R151, R242) -/

/-- GENCODES' body stores the code table of a tree that fits it (R150). -/
theorem gencodesBody_of_fits {s : State} {t : HuffTree} (ht : s.tree = some t) (hf : t.fitsTable 0 = true) :
    gencodesBody s = .done
      { s with len := (codeTable t).len, code := (codeTable t).code, codesValid := true } := by
  simp [gencodesBody, ht, hf]

/-- Unique symbols of the alphabet fit the table, and no entry is written twice: each is its symbol's code (R150). -/
theorem gencodesBody_of_tableSymbols {s : State} {t : HuffTree} (ht : s.tree = some t) (h : t.TableSymbols) :
    gencodesBody s = .done
      { s with
        len := Vector.ofFn fun y => BitVec.ofNat 9 (t.codeOf y).length
        code := Vector.ofFn fun y => t.codeOf y
        codesValid := true } := by
  obtain ⟨hlen, hcode⟩ := codeTable_ofFn t h
  rw [gencodesBody_of_fits ht h.fits, hlen, hcode]

theorem exec_of_gencodes {s : State} (h : s.phase = .gencodes) :
    exec .gencodes s = unitStep .gencodes (gencodesBody s) := by
  rw [← coreTurn_of_running (by rw [h]; rfl), coreTurn_of_gencodes h]

/-- Settles O26: the body's step, which completes the command. -/
theorem gencodesRecordsEveryPath : Obligations.GencodesRecordsEveryPath := by
  intro s t hp ht h
  rw [exec_of_gencodes hp, gencodesBody_of_tableSymbols ht h, unitStep_done, finish]

/-! ### A valid code table (R152, R153) -/

/-- A valid code table is that of a tree BUILD made of FREQ (R32, R33). -/
theorem DataInv.exists_built_of_codesValid {s : State} (hd : DataInv s) (hc : s.codesValid = true) :
    ∃ t, Combines 0 (leafEntries s.freq) t ∧ s.len = (codeTable t).len ∧ s.code = (codeTable t).code := by
  obtain ⟨hvalid, hsrc, t, ht, hlen, hcode⟩ := hd.codesMade hc
  exact ⟨t, hd.combines_of_tree hvalid hsrc ht, hlen, hcode⟩

/-- Two different codes of a tree are not prefixes of each other: they lead to different leaves (R152). -/
theorem HuffTree.codes_not_prefix (t : HuffTree) {p q : Sym × Bits} (hp : p ∈ t.codes) (hq : q ∈ t.codes)
    (hne : p ≠ q) : ¬ p.2 <+: q.2 := by
  have hsymm : Std.Symm fun p q : Sym × Bits => ¬ p.2 <+: q.2 ∧ ¬ q.2 <+: p.2 := ⟨fun _ _ => And.symm⟩
  exact (t.codes_prefixFree.forall hp hq hne).1

/-- An entry with a nonzero length in a built tree's code table is a code of the tree (R150). -/
theorem built_code_mem {freq : Vector Nat 257} {t : HuffTree} (h : Combines 0 (leafEntries freq) t) {y : Fin 257}
    (hy : (codeTable t).len[y] ≠ 0#9) : (BitVec.ofNat 9 y.val, (codeTable t).code[y]) ∈ t.codes := by
  rcases built_code freq t h y with ⟨-, hzero, -⟩ | ⟨-, -, -, hmem⟩
  · exact absurd hzero hy
  · exact hmem

/-- A symbol has a code in a built tree's code table exactly if it was counted (R153). -/
theorem built_len_ne_zero_iff {freq : Vector Nat 257} {t : HuffTree} (h : Combines 0 (leafEntries freq) t)
    (y : Fin 257) : (codeTable t).len[y] ≠ 0#9 ↔ freq[y] ≠ 0 := by
  rcases built_code freq t h y with ⟨hfreq, hzero, -⟩ | ⟨hfreq, -, hlen, -⟩
  · exact iff_of_false (absurd hzero) (absurd hfreq)
  · exact iff_of_true hlen hfreq

/-- Settles O27: both entries are codes of the tree the table was made of, at leaves of different symbols. -/
theorem codesArePrefixFree : Obligations.CodesArePrefixFree := by
  intro s x y hd hc hxy hx hy
  obtain ⟨t, hcomb, hlen, hcode⟩ := hd.exists_built_of_codesValid hc
  rw [hlen] at hx hy
  rw [hcode]
  refine t.codes_not_prefix (built_code_mem hcomb hx) (built_code_mem hcomb hy) fun he => hxy ?_
  exact ofNat9_injective x y (congrArg Prod.fst he)

/-- Settles O28: the sentinel is always counted, once. -/
theorem everyCountedSymbolHasACode : Obligations.EveryCountedSymbolHasACode := by
  intro s y hd hc
  obtain ⟨hvalid, hsrc, -⟩ := hd.codesMade hc
  have hsentinel : s.freq[sentinelEntry] = 1 := hd.freqSentinel (hd.treeBuilt hvalid hsrc).1
  obtain ⟨t, hcomb, hlen, -⟩ := hd.exists_built_of_codesValid hc
  have hcoded : ∀ x : Fin 257, s.len[x] ≠ 0#9 ↔ s.freq[x] ≠ 0 := fun x => hlen ▸ built_len_ne_zero_iff hcomb x
  exact ⟨hcoded y, hd.len_eq hc y, (hcoded sentinelEntry).2 (by omega)⟩

end Sys2Proof.Machine
end

section
/-!
PROOFS. SERIALIZE and DESERIALIZE (R160 to R169): their bodies step by step, the errors of DESERIALIZE in their order,
and the runs that write and read back a whole header.
-/
namespace Sys2Proof.Machine

/-! ### One step of SERIALIZE's body (R160) -/

/-- A symbol's field is its nine bits: widening it to a word adds none of them (R76, R107). -/
theorem outWrite_sym (y : Sym) (s : State) : outWrite 9 (y.setWidth 32) s =
    { s with outCur := s.outCur ++ bitsOf 9 y.toNat, outLen := s.outLen + 9#32 } := by
  rw [outWrite, BitVec.toNat_setWidth_of_le (by omega)]

section SerializeBody
variable (k : SerPos → Phase) {s : State}

/-- The first step writes the root's tag, with nothing pending after it. -/
theorem serBody_start {t : HuffTree} (ht : s.tree = some t) : serBody k .start s = serBody k (.node t []) s := by
  simp [serBody, ht]

theorem serBody_internal (w : Nat) (l r : HuffTree) (rest : List HuffTree) :
    serBody k (.node (.internal w l r) rest) s = .cont
      { s with outCur := s.outCur ++ [false], outLen := s.outLen + 1#32, phase := k (.node l (r :: rest)) } := rfl

theorem serBody_leaf (y : Sym) (w : Nat) (rest : List HuffTree) :
    serBody k (.node (.leaf y w) rest) s = .cont
      { s with outCur := s.outCur ++ [true], outLen := s.outLen + 1#32, phase := k (.sym y rest) } := rfl

theorem serBody_sym (y : Sym) (t : HuffTree) (rest : List HuffTree) :
    serBody k (.sym y (t :: rest)) s = .cont
      { s with outCur := s.outCur ++ bitsOf 9 y.toNat, outLen := s.outLen + 9#32, phase := k (.node t rest) } := by
  rw [serBody, outWrite_sym]

/-- The symbol after which nothing is pending is the body's last transaction. -/
theorem serBody_lastSym (y : Sym) : serBody k (.sym y []) s = .last
    { s with outCur := s.outCur ++ bitsOf 9 y.toNat, outLen := s.outLen + 9#32 } := by
  rw [serBody, outWrite_sym]

end SerializeBody

/-! ### SERIALIZE's body is the step of the command that runs it -/

theorem exec_of_serialize {s : State} {p : SerPos} (h : s.phase = .serialize p) :
    exec .serialize s = unitStep .serialize (serBody .serialize p s) := by
  rw [← coreTurn_of_running (by rw [h]; rfl), coreTurn_of_serialize h]

theorem RunsSerialize.exec_of_cont {i : Instr} {k : SerPos → Phase} (h : RunsSerialize i k) {s t : State} {p : SerPos}
    (hp : s.phase = k p) (hb : serBody k p s = .cont t) : exec i s = .next t := by
  rcases h with ⟨rfl, rfl⟩ | ⟨rfl, rfl⟩
  · rw [exec_of_serialize hp, hb, unitStep_cont]
  · rw [exec_of_compress hp, compressStep, hb, compositeStep_cont]

/-- A node's tag is next at that node's position, and at the start for the root. -/
theorem RunsSerialize.exec_of_tag {i : Instr} {k : SerPos → Phase} (h : RunsSerialize i k) {s u : State} {t : HuffTree}
    {rest : List HuffTree} (hp : s.phase = k (.node t rest) ∨ (rest = [] ∧ s.phase = k .start ∧ s.tree = some t))
    (hb : serBody k (.node t rest) s = .cont u) : exec i s = .next u := by
  rcases hp with hp | ⟨rfl, hp, ht⟩
  · exact h.exec_of_cont hp hb
  · exact h.exec_of_cont hp ((serBody_start k ht).trans hb)

/-- The command's last transaction; its completion is the next step (log 11). -/
theorem exec_serialize_lastSym {s : State} {y : Sym} (h : s.phase = .serialize (.sym y [])) : exec .serialize s = .next
    { s with outCur := s.outCur ++ bitsOf 9 y.toNat, outLen := s.outLen + 9#32, phase := .ended .serialize } := by
  rw [exec_of_serialize h, serBody_lastSym, unitStep_last]

/-- Settles O30: the steps of the body that go on are steps of the command that runs it; the last one ends SERIALIZE. -/
theorem serializeWritesOneFieldPerStep : Obligations.SerializeWritesOneFieldPerStep := by
  refine ⟨fun i k s hk => ⟨fun w l r rest hp => ?internal, fun y w rest hp => ?leaf, fun y t rest hp => ?sym⟩,
    fun s y hp => exec_serialize_lastSym hp⟩
  case internal => exact hk.exec_of_tag hp (serBody_internal k w l r rest)
  case leaf => exact hk.exec_of_tag hp (serBody_leaf k y w rest)
  case sym => exact hk.exec_of_cont hp (serBody_sym k y t rest)

/-- Settles O31: the run to the last leaf's symbol (`ser_run`), that symbol, and the completion. -/
theorem serializeWritesTheHeader : Obligations.SerializeWritesTheHeader := by
  intro s t hq hp ht
  obtain ⟨y, pre, hheader, hrun⟩ := ser_run (.inl ⟨rfl, rfl⟩) t s [] hq (.inr ⟨rfl, hp, ht⟩)
  have hsym := hrun.trans (.one (Quiet.stepAt hq rfl rfl (exec_serialize_lastSym rfl)))
  have hend := hsym.trans (.one (Quiet.stepAt hq rfl rfl (exec_ended rfl)))
  have hpos := t.leaves_pos
  have hsteps : t.size + t.leaves.length - 1 + 1 + 1 = t.size + t.leaves.length + 1 := by omega
  have hlength : pre.length + 9 = t.size + 9 * t.leaves.length := by
    rw [← t.header_length, hheader, List.length_append, bitsOf_length]
  simpa only [finish, hsteps, ofNat_add_ofNat, hlength, List.append_assoc, ← hheader] using hend

/-! ### One step of DESERIALIZE's body (R165 to R167); a tag bit below capacity is `desBody_tag` -/

/-- A subtree returned to open nodes whose left children are complete closes each of them, innermost first (R165). -/
theorem returnNode_rights (ls : List HuffTree) (t : HuffTree) (fs : List Frame) :
    returnNode t (ls.map .right ++ fs) = returnNode (ls.foldl (fun r l => .internal 0 l r) t) fs := by
  induction ls generalizing t with
  | nil => rfl
  | cons l ls ih => exact ih (.internal 0 l t)

section DeserializeBody
variable (k : DesPos → Phase) {s : State}

theorem desBody_start : desBody k .start s = .cont
    { s with treeValid := false, codesValid := false, nodes := 0, phase := k (.tag []) } := rfl

theorem desBody_store (t : HuffTree) : desBody k (.store t) s = .done
    { s with tree := some t, treeValid := true, treeSrc := .read } := rfl

/-- The symbol that completes the whole tree. -/
theorem desBody_sym_complete (ha : s.inAnswers = true) {st : List Frame} {y : Sym} {rest : Bits} {t : HuffTree}
    (hb : s.inputRest = bitsOf 9 y.toNat ++ rest) (h : returnNode (.leaf y 0) st = .complete t) :
    desBody k (.sym st) s = .cont { s with inCur := s.inCur + 9, inPos := s.inPos + 9#32, phase := k (.store t) } := by
  simp [desBody, inRead_bitsOf ha y.toNat hb, h]

/-- Too few bits for the field that is next are an error, and stay unread (R166). -/
theorem desBody_eos (ha : s.inAnswers = true) {p : DesPos} {st : List Frame}
    (h : (p = .tag st ∧ s.inputRest = []) ∨ (p = .sym st ∧ s.inputRest.length < 9)) :
    desBody k p s = .raise .truncHeader s := by
  rcases h with ⟨rfl, hl⟩ | ⟨rfl, hl⟩
  · simp [desBody, inRead_eos_of_rest (n := 1) ha (by simp [hl])]
  · simp [desBody, inRead_eos_of_rest ha hl]

/-- A tag bit at capacity is consumed before the error (R165, R166). -/
theorem desBody_tag_overflow (ha : s.inAnswers = true) (st : List Frame) (hb : s.inputRest ≠ [])
    (hn : s.nodes = s.params.nodeCap) :
    desBody k (.tag st) s = .raise .headerOverflow { s with inCur := s.inCur + 1, inPos := s.inPos + 1#32 } := by
  obtain ⟨b, rest, hrest⟩ := List.exists_cons_of_ne_nil hb
  simp [desBody, inRead_one ha hrest, hn]

end DeserializeBody

/-! ### DESERIALIZE's body is the step of the command that runs it -/

theorem exec_of_deserialize {s : State} {p : DesPos} (h : s.phase = .deserialize p) :
    exec .deserialize s = unitStep .deserialize (desBody .deserialize p s) := by
  rw [← coreTurn_of_running (by rw [h]; rfl), coreTurn_of_deserialize h]

theorem exec_of_decompress {s : State} {p : DecompressPos} (h : s.phase = .decompress p) :
    exec .decompress s = decompressStep p s := by
  rw [← coreTurn_of_running (by rw [h]; rfl), coreTurn_of_decompress h]

theorem RunsDeserialize.running {i : Instr} {k : DesPos → Phase} (h : RunsDeserialize i k) (p : DesPos) :
    (k p).running = some i := by
  rcases h with ⟨rfl, rfl⟩ | ⟨rfl, rfl⟩ <;> rfl

theorem RunsDeserialize.exec_of_cont {i : Instr} {k : DesPos → Phase} (h : RunsDeserialize i k) {s t : State}
    {p : DesPos} (hp : s.phase = k p) (hb : desBody k p s = .cont t) : exec i s = .next t := by
  rw [← coreTurn_of_running (hp ▸ h.running p), h.coreTurn_of_cont hp hb]

/-- The last assignments complete the command (R165, R242, log 11). -/
theorem exec_deserialize_store {s : State} {t : HuffTree} (h : s.phase = .deserialize (.store t)) :
    exec .deserialize s = .next
      { s with tree := some t, treeValid := true, treeSrc := .read, phase := .idle, done := true } := by
  rw [exec_of_deserialize h, desBody_store, unitStep_done, finish]

/-- Settles O32: the steps of the body that go on are steps of the command that runs it; where a symbol leads is where
the tree it closes is returned to (`returnNode_rights`). -/
theorem deserializeReadsOneFieldPerStep : Obligations.DeserializeReadsOneFieldPerStep := by
  refine ⟨fun i k s st rest hk => ⟨fun hp => ?start, fun ha hp hn hb => ?leafTag, fun ha hp hn hb => ?internalTag,
    fun y ls ha hp hb => ?leftChild, fun y ls ha hp hb => ?wholeTree⟩, fun s t hp => exec_deserialize_store hp⟩
  case start => exact hk.exec_of_cont hp (desBody_start k)
  case leafTag => exact hk.exec_of_cont hp (desBody_tag k ha st true hn hb)
  case internalTag => exact hk.exec_of_cont hp (desBody_tag k ha st false hn hb)
  case leftChild => exact hk.exec_of_cont hp (desBody_sym k ha _ _ y hb (returnNode_rights ls _ (.left :: st)))
  case wholeTree =>
    have hreturn := returnNode_rights ls (.leaf y 0) []
    rw [List.append_nil] at hreturn
    exact hk.exec_of_cont hp (desBody_sym_complete k ha hb hreturn)

/-- An error of the body ends DESERIALIZE in the same step (R233). -/
theorem exec_deserialize_of_raise {s s' : State} {p : DesPos} {e : ErrCode} (hp : s.phase = .deserialize p)
    (hb : desBody .deserialize p s = .raise e s') :
    exec .deserialize s = .next { s' with errPos := s'.inPos, errCode := e, done := true, phase := .idle } := by
  rw [exec_of_deserialize hp, hb, unitStep_raise, finish, recordError]

/-- An error of the body leads DECOMPRESS to its close (R233, R234). -/
theorem exec_decompress_of_deserialize_raise {s s' : State} {p : DesPos} {e : ErrCode}
    (hp : s.phase = .decompress (.deserialize p))
    (hb : desBody (fun p => .decompress (.deserialize p)) p s = .raise e s') :
    exec .decompress s = .next { s' with errPos := s'.inPos, errCode := e, phase := .decompress .close } := by
  rw [exec_of_decompress hp, decompressStep, hb, compositeStep_raise, recordError]

/-- Settles O33: the two errors the body raises, each as the command's and as the composite's error entry. -/
theorem deserializeErrorsInOrder : Obligations.DeserializeErrorsInOrder := by
  refine fun s st ha => ⟨fun p h => ⟨fun hp => ?_, fun hp => ?_⟩, fun hb hn => ⟨fun hp => ?_, fun hp => ?_⟩⟩
  · exact exec_deserialize_of_raise hp (desBody_eos _ ha h)
  · exact exec_decompress_of_deserialize_raise hp (desBody_eos _ ha h)
  · exact exec_deserialize_of_raise hp (desBody_tag_overflow _ ha st hb hn)
  · exact exec_decompress_of_deserialize_raise hp (desBody_tag_overflow _ ha st hb hn)

/-! ### The run over a whole header (R169) -/

/-- Settles O34: the run that reads the whole header (`des_to_store`, whose induction over the tree is `des_run`), and
the last assignments. -/
theorem deserializeReadsTheHeader : Obligations.DeserializeReadsTheHeader := by
  intro s t rest hq hp hb hn
  have hread := des_to_store (.inl ⟨rfl, rfl⟩) t s rest hq hp hb hn
  have hstore := hread.trans (.one (Quiet.stepAt hq rfl rfl (exec_deserialize_store rfl)))
  have hsteps : 1 + t.size + t.leaves.length + 1 = t.size + t.leaves.length + 1 + 1 := by omega
  rw [hsteps]
  exact hstore

end Sys2Proof.Machine
end

section
/-!
PROOFS. WRITE_MAGIC and ENCODE (R180 to R184): their bodies step by step, the byte that has no code, and the run that
writes a whole payload.
-/
namespace Sys2Proof.Machine

/-! ### WRITE_MAGIC (R180), as a command and inside COMPRESS -/

theorem writeMagicBody_eq (s : State) : writeMagicBody s = .last
    { s with outCur := s.outCur ++ bitsOf 32 s.params.magic.toNat, outLen := s.outLen + 32#32 } := rfl

theorem exec_of_writeMagic {s : State} (h : s.phase = .writeMagic) :
    exec .writeMagic s = unitStep .writeMagic (writeMagicBody s) := by
  rw [← coreTurn_of_running (by rw [h]; rfl), coreTurn_of_writeMagic h]

/-- COMPRESS goes on to COUNT (R186). -/
theorem exec_compress_magic {s : State} (h : s.phase = .compress .magic) : exec .compress s = .next
    { s with
      outCur := s.outCur ++ bitsOf 32 s.params.magic.toNat, outLen := s.outLen + 32#32
      phase := .compress (.count .clear) } := by
  rw [exec_of_compress h, compressStep, writeMagicBody_eq, compositeStep_last]

/-- Settles O35: the body's one step is its last transaction, in the command and in the composite. -/
theorem writeMagicAppendsTheMagic : Obligations.WriteMagicAppendsTheMagic := by
  refine fun s => ⟨fun hp => ?command, exec_compress_magic⟩
  rw [exec_of_writeMagic hp, writeMagicBody_eq, unitStep_last]

/-! ### One step of ENCODE's body (R182 to R184); a code bit is `encBody_bit` -/

section EncodeBody
variable (k : EncPos → Phase) {s : State}

/-- A bit of the code is still to be written. -/
theorem emitFrom_of_lt {y : Fin 257} {j : Nat} (h : j < s.len[y].toNat) :
    emitFrom k y j s = .cont { s with phase := k (.emit y j) } := if_pos h

/-- After the last bit of a byte's code the next byte is read (R183). -/
theorem emitFrom_byte_end {y : Fin 257} {j : Nat} (h : s.len[y].toNat ≤ j) (hy : y ≠ sentinelEntry) :
    emitFrom k y j s = .cont { s with phase := k .read } :=
  (if_neg (Nat.not_lt.2 h)).trans (if_neg hy)

/-- Past the sentinel's code the body has reached its end (R183). -/
theorem emitFrom_sentinel_end {j : Nat} (h : s.len[sentinelEntry].toNat ≤ j) :
    emitFrom k sentinelEntry j s = .last s :=
  (if_neg (Nat.not_lt.2 h)).trans (if_pos rfl)

/-- A symbol that has a code has a first bit (R49). -/
theorem emitFrom_zero {y : Fin 257} (h : s.len[y] ≠ 0#9) :
    emitFrom k y 0 s = .cont { s with phase := k (.emit y 0) } := by
  have hne : s.len[y].toNat ≠ 0 := fun h0 => h (BitVec.eq_of_toNat_eq h0)
  exact emitFrom_of_lt k (Nat.pos_of_ne_zero hne)

theorem encBody_reset : encBody k .reset s = .cont { s with inCur := 0, inPos := 0#32, phase := k .read } := rfl

/-- A byte that has a code is consumed and its code is next. -/
theorem encBody_coded (ha : s.inAnswers = true) {b : Byte} {rest : Bits} (hb : s.inputRest = bitsOf 8 b.toNat ++ rest)
    (hl : s.len[byteEntry b] ≠ 0#9) :
    encBody k .read s = .cont
      { s with inCur := s.inCur + 8, inPos := s.inPos + 8#32, phase := k (.emit (byteEntry b) 0) } := by
  simp only [encBody, inRead_bitsOf ha b.toNat hb (by omega), BitVec.ofNat_toNat, BitVec.setWidth_eq, if_neg hl]
  exact emitFrom_zero k hl

/-- A byte that has no code is consumed before the error (R184). -/
theorem encBody_noCode (ha : s.inAnswers = true) {b : Byte} {rest : Bits} (hb : s.inputRest = bitsOf 8 b.toNat ++ rest)
    (hl : s.len[byteEntry b] = 0#9) :
    encBody k .read s = .raise .noCode { s with inCur := s.inCur + 8, inPos := s.inPos + 8#32 } := by
  simp only [encBody, inRead_bitsOf ha b.toNat hb (by omega), BitVec.ofNat_toNat, BitVec.setWidth_eq, if_pos hl]

/-- Fewer than eight bits left stay unread, and the sentinel's code is next (R183). -/
theorem encBody_eos (ha : s.inAnswers = true) (hr : s.inputRest.length < 8) (hl : s.len[sentinelEntry] ≠ 0#9) :
    encBody k .read s = .cont { s with phase := k (.emit sentinelEntry 0) } := by
  simp only [encBody, inRead_eos_of_rest ha hr]
  exact emitFrom_zero k hl

/-- The last bit of the sentinel's code ends the body. -/
theorem encBody_lastBit {j : Nat} {b : Bool} (hb : s.code[sentinelEntry][j]? = some b)
    (hl : s.len[sentinelEntry].toNat ≤ j + 1) :
    encBody k (.emit sentinelEntry j) s = .last { s with outCur := s.outCur ++ [b], outLen := s.outLen + 1#32 } :=
  (encBody_bit k sentinelEntry j b hb).trans (emitFrom_sentinel_end k hl)

end EncodeBody

/-! ### ENCODE's body is the step of the command that runs it -/

theorem exec_of_encode {s : State} {p : EncPos} (h : s.phase = .encode p) :
    exec .encode s = unitStep .encode (encBody .encode p s) := by
  rw [← coreTurn_of_running (by rw [h]; rfl), coreTurn_of_encode h]

theorem RunsEncode.running {i : Instr} {k : EncPos → Phase} (h : RunsEncode i k) (p : EncPos) :
    (k p).running = some i := by
  rcases h with ⟨rfl, rfl⟩ | ⟨rfl, rfl⟩ <;> rfl

theorem RunsEncode.exec_of_cont {i : Instr} {k : EncPos → Phase} (h : RunsEncode i k) {s t : State} {p : EncPos}
    (hp : s.phase = k p) (hb : encBody k p s = .cont t) : exec i s = .next t := by
  rw [← coreTurn_of_running (hp ▸ h.running p), h.coreTurn_of_cont hp hb]

/-- The command's last transaction; its completion is the next step (log 11). -/
theorem exec_encode_lastBit {s : State} {j : Nat} {b : Bool} (h : s.phase = .encode (.emit sentinelEntry j))
    (hb : s.code[sentinelEntry][j]? = some b) (hl : s.len[sentinelEntry].toNat ≤ j + 1) : exec .encode s = .next
    { s with outCur := s.outCur ++ [b], outLen := s.outLen + 1#32, phase := .ended .encode } := by
  rw [exec_of_encode h, encBody_lastBit .encode hb hl, unitStep_last]

/-- COMPRESS goes on to its close (R186). -/
theorem exec_compress_lastBit {s : State} {j : Nat} {b : Bool} (h : s.phase = .compress (.encode (.emit sentinelEntry j)))
    (hb : s.code[sentinelEntry][j]? = some b) (hl : s.len[sentinelEntry].toNat ≤ j + 1) : exec .compress s = .next
    { s with outCur := s.outCur ++ [b], outLen := s.outLen + 1#32, phase := .compress .close } := by
  rw [exec_of_compress h, compressStep, encBody_lastBit _ hb hl, compositeStep_last]

/-- Settles O40: the steps of the body that go on are steps of the command that runs it; the last one ends ENCODE. -/
theorem encodeStepByStep : Obligations.EncodeStepByStep := by
  refine ⟨fun i k s hk => ⟨fun hp => ?reset, fun b rest hp ha hb hl => ?byte, fun hp ha hr hl => ?eos,
    fun y j b hp hb hl => ?bit, fun y j b hp hb hl hy => ?byteEnd⟩, fun s j b hp hb hl => exec_encode_lastBit hp hb hl⟩
  case reset => exact hk.exec_of_cont hp (encBody_reset k)
  case byte => exact hk.exec_of_cont hp (encBody_coded k ha hb hl)
  case eos => exact hk.exec_of_cont hp (encBody_eos k ha hr hl)
  case bit => exact hk.exec_of_cont hp ((encBody_bit k y j b hb).trans (emitFrom_of_lt k hl))
  case byteEnd => exact hk.exec_of_cont hp ((encBody_bit k y j b hb).trans (emitFrom_byte_end k hl hy))

/-- Settles O41: the body raises the error, which ends ENCODE and leads COMPRESS to its close (R233). -/
theorem encodeWithoutACodeRaisesNoCode : Obligations.EncodeWithoutACodeRaisesNoCode := by
  intro s b rest ha hb hl
  constructor
  · intro hp
    rw [exec_of_encode hp, encBody_noCode .encode ha hb hl, unitStep_raise, finish, recordError]
  · intro hp
    rw [exec_of_compress hp, compressStep, encBody_noCode _ ha hb hl, compositeStep_raise, recordError]

/-! ### The run over a whole input (R183, R109) -/

/-- ENCODE from its rewind, up to the last bit of the sentinel's code. -/
theorem enc_from_reset {i : Instr} {k : EncPos → Phase} (hk : RunsEncode i k) (xs : List Byte) (s : State) (tail : Bits)
    (hq : Quiet s) (hp : s.phase = k .reset) (hb : s.inBits = unpackBytes xs ++ tail) (ht : tail.length < 8)
    (hlen : ∀ y : Fin 257, s.len[y].toNat = s.code[y].length) (hx : ∀ b ∈ xs, s.len[byteEntry b] ≠ 0#9)
    (hs : s.len[sentinelEntry] ≠ 0#9) :
    ∃ (n : Nat) (pre : Bits) (b : Bool), payloadBits s.code xs = pre ++ [b] ∧
      s.code[sentinelEntry][n]? = some b ∧ s.len[sentinelEntry].toNat ≤ n + 1 ∧
      RunsTo s
        { s with
          inCur := 8 * xs.length, inPos := BitVec.ofNat 32 (8 * xs.length)
          outCur := s.outCur ++ pre, outLen := s.outLen + BitVec.ofNat 32 pre.length
          phase := k (.emit sentinelEntry n) } := by
  obtain ⟨n, pre, b, hpay, hbit, hlast, hrun⟩ := enc_run hk xs
    { s with inCur := 0, inPos := 0#32, phase := k .read } tail hq rfl hb ht hlen hx hs
  refine ⟨n, pre, b, hpay, hbit, hlast, ?_⟩
  simpa only [Nat.zero_add, BitVec.zero_add] using RunsTo.cons (hk.cont hq hp (encBody_reset k)) hrun

/-- Settles O42: the run up to the last bit of the sentinel's code (`enc_from_reset`), that bit, and the completion. -/
theorem encodeWritesThePayload : Obligations.EncodeWritesThePayload := by
  intro s xs tail hq hp hb ht hlen hx hs
  obtain ⟨n, pre, b, hpay, hbit, hlast, hrun⟩ := enc_from_reset (.inl ⟨rfl, rfl⟩) xs s tail hq hp hb ht hlen hx hs
  have hend := hrun.trans (.cons (Quiet.stepAt hq rfl rfl (exec_encode_lastBit rfl hbit hlast))
    (.cons (Quiet.stepAt hq rfl rfl (exec_ended rfl)) (.refl _)))
  have hlength : pre.length + 1 = (payloadBits s.code xs).length := by rw [hpay, List.length_append, List.length_singleton]
  simpa only [finish, ofNat_add_ofNat, hlength, List.append_assoc, ← hpay] using hend

end Sys2Proof.Machine
end

section
/-!
PROOFS. COMPRESS (R186, R187): each of its positions as one step, and the run that delivers the artifact of an input.
-/
namespace Sys2Proof.Machine

/-! ### COMPRESS's positions, one step each; WRITE_MAGIC's is `exec_compress_magic`, the last of ENCODE's is
`exec_compress_lastBit` -/

section CompressSteps
variable {s : State}

theorem exec_compress_clear (h : s.phase = .compress .clear) : exec .compress s = .next
    { s with freqValid := false, treeValid := false, codesValid := false, phase := .compress .rewind } := by
  rw [exec_of_compress h, compressStep, State.invalidateFreq]

theorem exec_compress_rewind (h : s.phase = .compress .rewind) : exec .compress s = .next
    { s with inCur := 0, inPos := 0#32, phase := .compress .magic } := by
  rw [exec_of_compress h, compressStep, inReset]

theorem exec_compress_countFinish (h : s.phase = .compress (.count .finish)) : exec .compress s = .next
    { s with freq := s.freq.set sentinelEntry 1, freqValid := true, phase := .compress .build } := by
  rw [exec_of_compress h, compressStep, countBody_finish, compositeStep_done]

/-- A built tree has `2L - 1` nodes for the `L` entries of BUILD's first loop (R145). -/
theorem built_size {freq : Vector Nat 257} {t : HuffTree} (h : Combines 0 (leafEntries freq) t) :
    2 * (leafEntries freq).length - 1 = t.size := by
  rw [← leafQueue_length, ← built_leaves_length h, ← t.size_eq, Nat.add_sub_cancel]

theorem exec_compress_build {t : HuffTree} (h : s.phase = .compress .build) (ht : buildTree s.freq = some t) :
    exec .compress s = .next
      { s with
        tree := some t, nodes := t.size, treeValid := true, treeSrc := .built, codesValid := false
        phase := .compress .gencodes } := by
  rw [exec_of_compress h, compressStep, buildBody_of_tree ht, compositeStep_done, built_size (buildTree_some ht)]

theorem exec_compress_gencodes {t : HuffTree} (h : s.phase = .compress .gencodes) (ht : s.tree = some t)
    (hf : t.fitsTable 0 = true) : exec .compress s = .next
      { s with
        len := (codeTable t).len, code := (codeTable t).code, codesValid := true
        phase := .compress (.serialize .start) } := by
  rw [exec_of_compress h, compressStep, gencodesBody_of_fits ht hf, compositeStep_done]

theorem exec_compress_lastSym {y : Sym} (h : s.phase = .compress (.serialize (.sym y []))) : exec .compress s = .next
    { s with
      outCur := s.outCur ++ bitsOf 9 y.toNat, outLen := s.outLen + 9#32, phase := .compress (.encode .reset) } := by
  rw [exec_of_compress h, compressStep, serBody_lastSym, compositeStep_last]

/-- The close does not look at ERRCODE (R187). -/
theorem exec_compress_close (h : s.phase = .compress .close) : exec .compress s = .next
    { s with
      delivered := s.delivered ++ [closedBytes s.outCur], outCur := [], outLen := 0#32, phase := .ended .compress } := by
  rw [exec_of_compress h, compressStep, outClose, closedBytes]

end CompressSteps

/-- Settles O47: one step per position; GENCODES' code table is written out entry by entry (`codeTable_ofFn`). -/
theorem compressRunsItsBodiesInOrder : Obligations.CompressRunsItsBodiesInOrder := by
  refine fun s => ⟨exec_compress_clear, exec_compress_rewind, exec_compress_countFinish,
    fun t hp ht => exec_compress_build hp ht, fun t hp ht hsym => ?gencodes, fun y hp => exec_compress_lastSym hp,
    fun j b hp hb hl => exec_compress_lastBit hp hb hl, exec_compress_close⟩
  obtain ⟨hlen, hcode⟩ := codeTable_ofFn t hsym
  rw [exec_compress_gencodes hp ht hsym.fits, hlen, hcode]

/-! ### The run of COMPRESS over a whole input (R186), part by part -/

section CompressRun
variable {s : State}

/-- One step of COMPRESS, and then a run. -/
theorem Quiet.compress_cons {u v : State} {p : CompressPos} (hq : Quiet s) (hp : s.phase = .compress p)
    (h : exec .compress s = .next u) (hr : RunsTo u v) : RunsTo s v :=
  .cons (hq.stepAt hp rfl h) hr

/-- COUNT inside COMPRESS (R130, R133). -/
theorem compress_count {xs : List Byte} {tail : Bits} (hq : Quiet s) (hp : s.phase = .compress (.count .clear))
    (hb : s.inputRest = unpackBytes xs ++ tail) (ht : tail.length < 8) (hn : xs.length ≤ 2 ^ s.params.countW - 2) :
    RunsTo s
      { s with
        freqValid := true, treeValid := false, codesValid := false, freq := freqOf xs, total := xs.length
        inCur := s.inCur + 8 * xs.length, inPos := s.inPos + BitVec.ofNat 32 (8 * xs.length)
        phase := .compress .build } := by
  have hk : RunsCount .compress (fun p => .compress (.count p)) := .inr ⟨rfl, rfl⟩
  have hclear := hk.cont hq hp (countBody_clear _)
  have hloop := count_run hk xs
    { s with
      freqValid := false, treeValid := false, codesValid := false
      freq := Vector.replicate 257 0, total := 0, phase := .compress (.count .loop) }
    tail hq rfl hb ht (by simpa using hn)
  have hfinish := RunsTo.trans ⟨_, hloop⟩ (.cons (Quiet.stepAt hq rfl rfl (exec_compress_countFinish rfl)) (.refl _))
  simpa only [tally_freqOf, Nat.zero_add] using RunsTo.cons hclear hfinish

/-- The flags, the rewind, the magic and COUNT: up to BUILD. -/
theorem compress_to_build {xs : List Byte} {tail : Bits} (hq : Quiet s) (hp : s.phase = .compress .clear)
    (hb : s.inBits = unpackBytes xs ++ tail) (ht : tail.length < 8) (hn : xs.length ≤ 2 ^ s.params.countW - 2) :
    RunsTo s
      { s with
        freqValid := true, treeValid := false, codesValid := false, freq := freqOf xs, total := xs.length
        inCur := 8 * xs.length, inPos := BitVec.ofNat 32 (8 * xs.length)
        outCur := s.outCur ++ bitsOf 32 s.params.magic.toNat, outLen := s.outLen + 32#32
        phase := .compress .build } := by
  have hcount := compress_count
    (s := { s with
      freqValid := false, treeValid := false, codesValid := false, inCur := 0, inPos := 0#32
      outCur := s.outCur ++ bitsOf 32 s.params.magic.toNat, outLen := s.outLen + 32#32
      phase := .compress (.count .clear) }) hq rfl hb ht hn
  have hmagic := Quiet.compress_cons
    (s := { s with
      freqValid := false, treeValid := false, codesValid := false, inCur := 0, inPos := 0#32
      phase := .compress .magic }) hq rfl (exec_compress_magic rfl) hcount
  have hrewind := Quiet.compress_cons
    (s := { s with freqValid := false, treeValid := false, codesValid := false, phase := .compress .rewind }) hq rfl
    (exec_compress_rewind rfl) hmagic
  simpa only [Nat.zero_add, BitVec.zero_add] using hq.compress_cons hp (exec_compress_clear hp) hrewind

/-- BUILD and GENCODES: up to SERIALIZE, with the tables of FREQ's tree. -/
theorem compress_tables {t : HuffTree} (hq : Quiet s) (hp : s.phase = .compress .build)
    (ht : buildTree s.freq = some t) :
    RunsTo s
      { s with
        tree := some t, nodes := t.size, treeValid := true, treeSrc := .built
        len := (codeTable t).len, code := (codeTable t).code, codesValid := true
        phase := .compress (.serialize .start) } :=
  hq.compress_cons hp (exec_compress_build hp ht)
    (Quiet.compress_cons hq rfl (exec_compress_gencodes rfl rfl (built_fits (buildTree_some ht))) (.refl _))

/-- SERIALIZE inside COMPRESS writes the header (R161). -/
theorem compress_header {t : HuffTree} (hq : Quiet s) (hp : s.phase = .compress (.serialize .start))
    (ht : s.tree = some t) :
    RunsTo s
      { s with
        outCur := s.outCur ++ t.header, outLen := s.outLen + BitVec.ofNat 32 t.header.length
        phase := .compress (.encode .reset) } := by
  obtain ⟨y, pre, hheader, hrun⟩ := ser_run (.inr ⟨rfl, rfl⟩) t s [] hq (.inr ⟨rfl, hp, ht⟩)
  have hsym := RunsTo.trans ⟨_, hrun⟩ (Quiet.compress_cons hq rfl (exec_compress_lastSym rfl) (.refl _))
  have hlength : pre.length + 9 = t.header.length := by rw [hheader, List.length_append, bitsOf_length]
  simpa only [ofNat_add_ofNat, hlength, List.append_assoc, ← hheader] using hsym

/-- ENCODE inside COMPRESS writes the payload (R183, R109). -/
theorem compress_payload {xs : List Byte} {tail : Bits} (hq : Quiet s) (hp : s.phase = .compress (.encode .reset))
    (hb : s.inBits = unpackBytes xs ++ tail) (ht : tail.length < 8)
    (hlen : ∀ y : Fin 257, s.len[y].toNat = s.code[y].length) (hx : ∀ b ∈ xs, s.len[byteEntry b] ≠ 0#9)
    (hs : s.len[sentinelEntry] ≠ 0#9) :
    RunsTo s
      { s with
        inCur := 8 * xs.length, inPos := BitVec.ofNat 32 (8 * xs.length)
        outCur := s.outCur ++ payloadBits s.code xs
        outLen := s.outLen + BitVec.ofNat 32 (payloadBits s.code xs).length, phase := .compress .close } := by
  obtain ⟨n, pre, b, hpay, hbit, hlast, hrun⟩ := enc_from_reset (.inr ⟨rfl, rfl⟩) xs s tail hq hp hb ht hlen hx hs
  have hend := hrun.trans (Quiet.compress_cons hq rfl (exec_compress_lastBit rfl hbit hlast) (.refl _))
  have hlength : pre.length + 1 = (payloadBits s.code xs).length := by
    rw [hpay, List.length_append, List.length_singleton]
  simpa only [ofNat_add_ofNat, hlength, List.append_assoc, ← hpay] using hend

/-- The close and the completion. -/
theorem compress_end (hq : Quiet s) (hp : s.phase = .compress .close) :
    RunsTo s
      { s with
        delivered := s.delivered ++ [closedBytes s.outCur], outCur := [], outLen := 0#32
        phase := .idle, done := true } :=
  hq.compress_cons hp (exec_compress_close hp) (.cons (Quiet.stepAt hq rfl rfl (exec_ended rfl)) (.refl _))

end CompressRun

theorem freqOf_sentinel_ne_zero (xs : List Byte) : (freqOf xs)[sentinelEntry] ≠ 0 := by
  rw [freqOf_sentinel]
  exact one_ne_zero

/-- BUILD makes a tree of every input's counts, since the sentinel is counted (R133, R140). -/
theorem exists_buildTree_freqOf (xs : List Byte) :
    ∃ t, buildTree (freqOf xs) = some t ∧ Combines 0 (leafEntries (freqOf xs)) t :=
  buildTree_combines (freqOf xs) sentinelEntry (freqOf_sentinel_ne_zero xs)

/-- Settles O48: the parts of the run one after another; the tree of the counts gives every byte of the input and the
sentinel a code. -/
theorem compressDeliversTheArtifact : Obligations.CompressDeliversTheArtifact := by
  intro s xs tail hq _ hp _ hb ht hn hout
  obtain ⟨t, htree, hcomb⟩ := exists_buildTree_freqOf xs
  refine ⟨t, htree, ?_⟩
  have hbuild := compress_to_build hq hp hb ht hn
  have htables := hbuild.trans (compress_tables hq rfl htree)
  have hheader := htables.trans (compress_header hq rfl rfl)
  have hpayload := hheader.trans (compress_payload hq rfl hb ht
    (codeTable_len_eq t (built_symbols_nodup hcomb) (built_fits hcomb))
    (fun b h => (built_len_ne_zero_iff hcomb _).2 (freqOf_byte xs b h))
    ((built_len_ne_zero_iff hcomb _).2 (freqOf_sentinel_ne_zero xs)))
  have hclose := hpayload.trans (compress_end hq rfl)
  simpa only [artifactBits, hout, List.nil_append] using hclose

end Sys2Proof.Machine
end

section
/-!
PROOFS. The round trip (R188, R207): DECOMPRESS of an artifact, part by part, and that the bytes a close delivers are the
bits written.
-/
namespace Sys2Proof.Machine

/-! ### DECOMPRESS's positions on a well-formed artifact, one step each (R206) -/

section DecompressSteps
variable {s : State}

theorem exec_decompress_clear (h : s.phase = .decompress .clear) : exec .decompress s = .next
    { s with freqValid := false, treeValid := false, codesValid := false, phase := .decompress .rewind } := by
  rw [exec_of_decompress h, decompressStep, State.invalidateFreq]

theorem exec_decompress_rewind (h : s.phase = .decompress .rewind) : exec .decompress s = .next
    { s with inCur := 0, inPos := 0#32, phase := .decompress .check } := by
  rw [exec_of_decompress h, decompressStep, inReset]

/-- 32 bits equal to MAGIC are consumed (R200). -/
theorem checkMagicBody_accepts (ha : s.inAnswers = true) {rest : Bits}
    (hb : s.inputRest = bitsOf 32 s.params.magic.toNat ++ rest) :
    checkMagicBody s = .last { s with inCur := s.inCur + 32, inPos := s.inPos + 32#32 } := by
  simp [checkMagicBody, inRead_bitsOf ha _ hb]

theorem exec_decompress_check (h : s.phase = .decompress .check) (ha : s.inAnswers = true) {rest : Bits}
    (hb : s.inputRest = bitsOf 32 s.params.magic.toNat ++ rest) : exec .decompress s = .next
      { s with inCur := s.inCur + 32, inPos := s.inPos + 32#32, phase := .decompress (.deserialize .start) } := by
  rw [exec_of_decompress h, decompressStep, checkMagicBody_accepts ha hb, compositeStep_last]

theorem exec_decompress_store {t : HuffTree} (h : s.phase = .decompress (.deserialize (.store t))) :
    exec .decompress s = .next
      { s with tree := some t, treeValid := true, treeSrc := .read, phase := .decompress (.decode .atRoot) } := by
  rw [exec_of_decompress h, decompressStep, desBody_store, compositeStep_done]

/-- The last transaction of DECODE leads to the close. -/
theorem exec_decompress_decodeLast {u : State} {p : DecPos} (h : s.phase = .decompress (.decode p))
    (hb : decBody (fun p => .decompress (.decode p)) p s = .last u) :
    exec .decompress s = .next { u with phase := .decompress .close } := by
  rw [exec_of_decompress h, decompressStep, hb, compositeStep_last]

theorem exec_decompress_close (h : s.phase = .decompress .close) : exec .decompress s = .next
    { s with
      delivered := s.delivered ++ [closedBytes s.outCur], outCur := [], outLen := 0#32
      phase := .ended .decompress } := by
  rw [exec_of_decompress h, decompressStep, outClose, closedBytes]

/-- The bit that reaches the sentinel's leaf, from the root, from below it, or at a root that is that leaf, is the last
transaction of DECODE's body (R202, R203, R205). -/
theorem decBody_sentinel (k : DecPos → Phase) (ha : s.inAnswers = true) {b : Bool} {rest : Bits}
    (hb : s.inputRest = b :: rest) {p : DecPos} {v w : Nat} {l r : HuffTree}
    (hpos : (p = .atRoot ∧ s.tree = some (.internal w l r) ∧ (if b then r else l) = .leaf 256#9 v) ∨
      (p = .descending l r ∧ (if b then r else l) = .leaf 256#9 v) ∨
      (p = .atRoot ∧ s.tree = some (.leaf 256#9 v))) :
    decBody k p s = .last { s with inCur := s.inCur + 1, inPos := s.inPos + 1#32 } := by
  have hland (u : State) : landOn k (.leaf 256#9 v) u = .last u := by rw [landOn, if_pos rfl]
  rcases hpos with ⟨hp, ht, hleaf⟩ | ⟨hp, hleaf⟩ | ⟨rfl, ht⟩
  · rw [decBody_node k ha p b w l r hb (.inl ⟨hp, ht⟩), hleaf, hland]
  · rw [decBody_node k ha p b w l r hb (.inr hp), hleaf, hland]
  · rw [decBody_rootLeaf k ha b 256#9 v hb ht, hland]

end DecompressSteps

/-! ### The run of DECODE over a whole payload, up to its last transaction (R202, R207) -/

/-- DECODE of the codes of the bytes `xs` and the sentinel's code `sc`: the bit that ends the body, and the state the
body then leaves. -/
theorem dec_to_last {i : Instr} {k : DecPos → Phase} (hk : RunsDecode i k) {t : HuffTree} {code : Byte → Bits}
    {sc : Bits} {xs : List Byte} {s : State} {rest : Bits} (hq : Quiet s) (hp : s.phase = k .atRoot)
    (ht : s.tree = some t) (hx : ∀ b ∈ xs, (b.setWidth 9, code b) ∈ t.codes) (hs : (256#9, sc) ∈ t.codes)
    (hb : s.inputRest = xs.flatMap code ++ sc ++ rest) :
    ∃ (u : State) (p : DecPos), RunsTo s u ∧ Quiet u ∧ u.phase = k p ∧ decBody k p u = .last
      { s with
        inCur := s.inCur + (xs.flatMap code ++ sc).length
        inPos := s.inPos + BitVec.ofNat 32 (xs.flatMap code ++ sc).length
        outCur := s.outCur ++ unpackBytes xs, outLen := s.outLen + BitVec.ofNat 32 (8 * xs.length)
        phase := k p } := by
  rw [List.append_assoc] at hb
  have hbytes := dec_run hk t code xs s _ hq hp ht hx hb
  have hsc : s.inBits.drop (s.inCur + (xs.flatMap code).length) = sc ++ rest := State.inputRest_drop hb rfl
  obtain ⟨pre, b, p, w, l, r, v, hcode, hpos, hrun⟩ := dec_code hk t
    { s with
      inCur := s.inCur + (xs.flatMap code).length, inPos := s.inPos + BitVec.ofNat 32 (xs.flatMap code).length
      outCur := s.outCur ++ unpackBytes xs, outLen := s.outLen + BitVec.ofNat 32 (8 * xs.length)
      phase := k .atRoot } 256#9 sc rest hq rfl ht hs hsc
  have hbit : s.inBits.drop (s.inCur + (xs.flatMap code).length + pre.length) = b :: rest :=
    State.inputRest_drop (hsc.trans (by rw [hcode, List.append_assoc]; rfl)) rfl
  have hlast := decBody_sentinel k
    (s := { s with
      inCur := s.inCur + (xs.flatMap code).length + pre.length
      inPos := s.inPos + BitVec.ofNat 32 (xs.flatMap code).length + BitVec.ofNat 32 pre.length
      outCur := s.outCur ++ unpackBytes xs, outLen := s.outLen + BitVec.ofNat 32 (8 * xs.length)
      phase := k p }) hq.2 hbit hpos
  refine ⟨_, p, hbytes.trans ⟨_, hrun⟩, hq, rfl, hlast.trans ?_⟩
  simp only [hcode, ofNat_add_ofNat, List.length_append, List.length_singleton, Nat.add_assoc]

/-! ### The run of DECOMPRESS over a whole artifact (R206, R207), part by part -/

section DecompressRun
variable {s : State}

/-- One step of DECOMPRESS, and then a run. -/
theorem Quiet.decompress_cons {u v : State} {p : DecompressPos} (hq : Quiet s) (hp : s.phase = .decompress p)
    (h : exec .decompress s = .next u) (hr : RunsTo u v) : RunsTo s v :=
  .cons (hq.stepAt hp rfl h) hr

/-- The flags, the rewind and the magic: up to DESERIALIZE. -/
theorem decompress_to_deserialize {rest : Bits} (hq : Quiet s) (hp : s.phase = .decompress .clear)
    (hb : s.inBits = bitsOf 32 s.params.magic.toNat ++ rest) :
    RunsTo s
      { s with
        freqValid := false, treeValid := false, codesValid := false, inCur := 32, inPos := 32#32
        phase := .decompress (.deserialize .start) } := by
  have hcheck := Quiet.decompress_cons
    (s := { s with
      freqValid := false, treeValid := false, codesValid := false, inCur := 0, inPos := 0#32
      phase := .decompress .check }) hq rfl (exec_decompress_check rfl hq.2 hb) (.refl _)
  have hrewind := Quiet.decompress_cons
    (s := { s with freqValid := false, treeValid := false, codesValid := false, phase := .decompress .rewind }) hq rfl
    (exec_decompress_rewind rfl) hcheck
  exact hq.decompress_cons hp (exec_decompress_clear hp) hrewind

/-- DESERIALIZE inside DECOMPRESS reads the header and stores its tree (R169). -/
theorem decompress_header {t : HuffTree} {rest : Bits} (hq : Quiet s)
    (hp : s.phase = .decompress (.deserialize .start)) (hb : s.inputRest = t.header ++ rest)
    (hn : t.size ≤ s.params.nodeCap) :
    RunsTo s
      { s with
        inCur := s.inCur + t.header.length, inPos := s.inPos + BitVec.ofNat 32 t.header.length
        nodes := t.size, tree := some t.eraseWeights, treeValid := true, treeSrc := .read, codesValid := false
        phase := .decompress (.decode .atRoot) } :=
  RunsTo.trans ⟨_, des_to_store (.inr ⟨rfl, rfl⟩) t s rest hq hp hb hn⟩
    (Quiet.decompress_cons hq rfl (exec_decompress_store rfl) (.refl _))

/-- DECODE inside DECOMPRESS writes the bytes of the payload (R207). -/
theorem decompress_payload {t : HuffTree} {code : Byte → Bits} {sc : Bits} {xs : List Byte} {rest : Bits}
    (hq : Quiet s) (hp : s.phase = .decompress (.decode .atRoot)) (ht : s.tree = some t)
    (hx : ∀ b ∈ xs, (b.setWidth 9, code b) ∈ t.codes) (hs : (256#9, sc) ∈ t.codes)
    (hb : s.inputRest = xs.flatMap code ++ sc ++ rest) :
    RunsTo s
      { s with
        inCur := s.inCur + (xs.flatMap code ++ sc).length
        inPos := s.inPos + BitVec.ofNat 32 (xs.flatMap code ++ sc).length
        outCur := s.outCur ++ unpackBytes xs, outLen := s.outLen + BitVec.ofNat 32 (8 * xs.length)
        phase := .decompress .close } := by
  obtain ⟨u, p, hrun, hqu, hpu, hlast⟩ := dec_to_last (.inr ⟨rfl, rfl⟩) hq hp ht hx hs hb
  exact hrun.trans (hqu.decompress_cons hpu (exec_decompress_decodeLast hpu hlast) (.refl _))

/-- The close and the completion. -/
theorem decompress_end (hq : Quiet s) (hp : s.phase = .decompress .close) :
    RunsTo s
      { s with
        delivered := s.delivered ++ [closedBytes s.outCur], outCur := [], outLen := 0#32
        phase := .idle, done := true } :=
  hq.decompress_cons hp (exec_decompress_close hp) (.cons (Quiet.stepAt hq rfl rfl (exec_ended rfl)) (.refl _))

/-- DECOMPRESS of magic, header and payload, whatever follows them: the bytes are delivered, and nothing after the
sentinel's code is read (R207). -/
theorem decompress_artifact {t : HuffTree} {code : Byte → Bits} {sc : Bits} {xs : List Byte} {rest : Bits}
    (hq : Quiet s) (hp : s.phase = .decompress .clear)
    (hb : s.inBits = bitsOf 32 s.params.magic.toNat ++ (t.header ++ (xs.flatMap code ++ sc ++ rest)))
    (hn : t.size ≤ s.params.nodeCap) (hx : ∀ b ∈ xs, (b.setWidth 9, code b) ∈ t.codes) (hs : (256#9, sc) ∈ t.codes) :
    RunsTo s
      { s with
        freqValid := false, treeValid := true, treeSrc := .read, codesValid := false
        tree := some t.eraseWeights, nodes := t.size
        inCur := 32 + t.header.length + (xs.flatMap code ++ sc).length
        inPos := 32#32 + BitVec.ofNat 32 t.header.length + BitVec.ofNat 32 (xs.flatMap code ++ sc).length
        delivered := s.delivered ++ [closedBytes (s.outCur ++ unpackBytes xs)], outCur := [], outLen := 0#32
        phase := .idle, done := true } := by
  have hheaderRest : s.inBits.drop 32 = t.header ++ (xs.flatMap code ++ sc ++ rest) := by
    rw [hb, List.drop_left' (bitsOf_length 32 _)]
  have hpayloadRest : s.inBits.drop (32 + t.header.length) = xs.flatMap code ++ sc ++ rest :=
    State.inputRest_drop hheaderRest rfl
  rw [← t.codes_eraseWeights] at hx hs
  have hmagic := decompress_to_deserialize hq hp hb
  have hheader := hmagic.trans (decompress_header hq rfl hheaderRest hn)
  have hpayload := hheader.trans (decompress_payload hq rfl rfl hx hs hpayloadRest)
  exact hpayload.trans (decompress_end hq rfl)

end DecompressRun

/-! ### The bytes a close delivers (R74, R77, R78) -/

/-- They are the bits written and the padding. -/
theorem unpackBytes_closedBytes (bits : Bits) :
    unpackBytes (closedBytes bits) = bits ++ List.replicate (padLength bits.length) false := by
  refine unpackBytes_packBytes ((bits.length + padLength bits.length) / 8) _ ?_
  rw [List.length_append, List.length_replicate]
  have := length_add_padLength bits.length
  omega

/-- Whole bytes need no padding. -/
theorem closedBytes_unpackBytes (xs : List Byte) : closedBytes (unpackBytes xs) = xs := by
  have hpad : padLength (unpackBytes xs).length = 0 := by
    rw [unpackBytes_length, padLength]
    omega
  rw [closedBytes, hpad, List.replicate_zero, List.append_nil, packBytes_unpackBytes]

/-! ### The round trip (R188) -/

/-- A tree built of at most 257 symbols fits every legal tree store (R7, R145). -/
theorem built_size_le_nodeCap {p : Params} (hp : p.wf = true) {freq : Vector Nat 257} {t : HuffTree}
    (h : Combines 0 (leafEntries freq) t) : t.size ≤ p.nodeCap := by
  obtain ⟨-, -, -, hcap, -⟩ := Params.wf_bounds hp
  have hleaves := built_leaves_le h
  have hsize := t.size_eq
  omega

/-- DECOMPRESS of the artifact of `xs`, whatever follows it, delivers `xs` and leaves ERRCODE alone (R207). -/
theorem decompress_delivers {s : State} {xs : List Byte} {t : HuffTree} {rest : Bits} (hq : Quiet s)
    (hwf : s.params.wf = true) (hp : s.phase = .decompress .clear) (hcomb : Combines 0 (leafEntries (freqOf xs)) t)
    (hb : s.inBits = artifactBits s.params t xs ++ rest) (hout : s.outCur = []) :
    ∃ v, RunsTo s v ∧ v.phase = .idle ∧ v.errCode = s.errCode ∧ v.done = true ∧ v.delivered = s.delivered ++ [xs] := by
  obtain ⟨hx, hs⟩ := payload_codes xs t hcomb
  have hbits : s.inBits = bitsOf 32 s.params.magic.toNat ++ (t.header ++
      ((xs.flatMap fun b => (codeTable t).code[byteEntry b]) ++ (codeTable t).code[sentinelEntry] ++ rest)) := by
    rw [hb, artifactBits, payloadBits]
    simp only [List.append_assoc]
  refine ⟨_, decompress_artifact hq hp hbits (built_size_le_nodeCap hwf hcomb) hx hs, rfl, rfl, rfl, ?_⟩
  rw [hout, List.nil_append, closedBytes_unpackBytes]

/-- Settles O51: COMPRESS delivers the artifact's bits with their padding (O48), after which DECOMPRESS does not read. -/
theorem decompressUndoesCompress : Obligations.DecompressUndoesCompress := by
  intro s xs hq hwf hp he hb hn hout
  obtain ⟨t, htree, hrun⟩ := compressDeliversTheArtifact s xs [] hq hwf hp he (by rw [hb, List.append_nil]) (by decide)
    hn hout
  refine ⟨_, _, hrun, rfl, he, rfl, rfl, fun u rest hqu hparams hpu heu hbu houtu => ?_⟩
  have hbits : u.inBits = artifactBits u.params t xs ++
      (List.replicate (padLength (artifactBits s.params t xs).length) false ++ rest) := by
    rw [hbu, unpackBytes_closedBytes, hparams, List.append_assoc]
  obtain ⟨v, hv, hidle, hstatus, hdone, hdelivered⟩ :=
    decompress_delivers hqu (hparams ▸ hwf) hpu (buildTree_some htree) hbits houtu
  exact ⟨v, hv, hidle, hstatus.trans heu, hdone, hdelivered⟩

end Sys2Proof.Machine
end

section
/-!
PROOFS. CHECK_MAGIC and DECODE (R200 to R205): their bodies step by step, as commands and inside DECOMPRESS, and the run
that decodes a whole payload.
-/
namespace Sys2Proof.Machine

/-! ### CHECK_MAGIC (R200, R201); the magic itself is `checkMagicBody_accepts` -/

section CheckMagic
variable {s : State}

/-- 32 other bits are consumed before the error (R200). -/
theorem checkMagicBody_rejects (ha : s.inAnswers = true) {v : Word} {rest : Bits}
    (hb : s.inputRest = bitsOf 32 v.toNat ++ rest) (hv : v ≠ s.params.magic) :
    checkMagicBody s = .raise .badMagic { s with inCur := s.inCur + 32, inPos := s.inPos + 32#32 } := by
  simp [checkMagicBody, inRead_bitsOf ha _ hb, hv]

/-- Fewer than 32 bits stay unread (R201). -/
theorem checkMagicBody_eos (ha : s.inAnswers = true) (hl : s.inputRest.length < 32) :
    checkMagicBody s = .raise .truncHeader s := by
  simp [checkMagicBody, inRead_eos_of_rest ha hl]

theorem exec_of_checkMagic (h : s.phase = .checkMagic) :
    exec .checkMagic s = unitStep .checkMagic (checkMagicBody s) := by
  rw [← coreTurn_of_running (by rw [h]; rfl), coreTurn_of_checkMagic h]

/-- An error of the body ends CHECK_MAGIC in the same step (R233). -/
theorem exec_checkMagic_of_raise {s' : State} {e : ErrCode} (hp : s.phase = .checkMagic)
    (hb : checkMagicBody s = .raise e s') :
    exec .checkMagic s = .next { s' with errPos := s'.inPos, errCode := e, done := true, phase := .idle } := by
  rw [exec_of_checkMagic hp, hb, unitStep_raise, finish, recordError]

/-- An error of the body leads DECOMPRESS to its close (R233, R234). -/
theorem exec_decompress_of_checkMagic_raise {s' : State} {e : ErrCode} (hp : s.phase = .decompress .check)
    (hb : checkMagicBody s = .raise e s') :
    exec .decompress s = .next { s' with errPos := s'.inPos, errCode := e, phase := .decompress .close } := by
  rw [exec_of_decompress hp, decompressStep, hb, compositeStep_raise, recordError]

end CheckMagic

/-- Settles O36: the body's one step is its last transaction, in the command and in the composite. -/
theorem checkMagicAcceptsTheMagic : Obligations.CheckMagicAcceptsTheMagic := by
  refine fun s rest ha hb => ⟨fun hp => ?command, fun hp => exec_decompress_check hp ha hb⟩
  rw [exec_of_checkMagic hp, checkMagicBody_accepts ha hb, unitStep_last]

/-- Settles O37: the two errors the body raises, each as the command's and as the composite's error entry. -/
theorem checkMagicErrors : Obligations.CheckMagicErrors := by
  refine fun s v rest ha => ⟨fun hb hv => ⟨fun hp => ?_, fun hp => ?_⟩, fun hl => ⟨fun hp => ?_, fun hp => ?_⟩⟩
  · exact exec_checkMagic_of_raise hp (checkMagicBody_rejects ha hb hv)
  · exact exec_decompress_of_checkMagic_raise hp (checkMagicBody_rejects ha hb hv)
  · exact exec_checkMagic_of_raise hp (checkMagicBody_eos ha hl)
  · exact exec_decompress_of_checkMagic_raise hp (checkMagicBody_eos ha hl)

/-! ### One step of DECODE's body (R202 to R205); a bit read is `decBody_node`, `decBody_rootLeaf` or, at the sentinel's
leaf, `decBody_sentinel` -/

section DecodeBody
variable (k : DecPos → Phase) {s : State}

theorem landOn_internal (v : Nat) (l r : HuffTree) :
    landOn k (.internal v l r) s = .cont { s with phase := k (.descending l r) } := rfl

theorem landOn_leaf {y : Sym} (hy : y ≠ 256#9) (v : Nat) :
    landOn k (.leaf y v) s = .cont { s with phase := k (.out y) } := if_neg hy

/-- A symbol is written as its low eight bits (R108). -/
theorem decBody_out (y : Sym) : decBody k (.out y) s = .cont
    { s with outCur := s.outCur ++ bitsOf 8 (y.toNat % 256), outLen := s.outLen + 8#32, phase := k .atRoot } := by
  have hbits : bitsOf 8 (y.toNat % 4294967296) = bitsOf 8 (y.toNat % 256) := bitsOf_congr (by omega)
  simp [decBody, outWrite, hbits]

/-- The end of the stream, at the root or below it, is an error (R204). -/
theorem decBody_eos (ha : s.inAnswers = true) (hb : s.inputRest = []) {p : DecPos} {root l r : HuffTree}
    (hp : (p = .atRoot ∧ s.tree = some root) ∨ p = .descending l r) :
    decBody k p s = .raise .truncPayload s := by
  have hr := inRead_eos_of_rest (n := 1) ha (by rw [hb]; exact Nat.one_pos)
  rcases hp with ⟨rfl, ht⟩ | rfl
  · simp [decBody, ht, hr]
  · simp [decBody, hr]

end DecodeBody

/-! ### DECODE's body is the step of the command that runs it -/

theorem exec_of_decode {s : State} {p : DecPos} (h : s.phase = .decode p) :
    exec .decode s = unitStep .decode (decBody .decode p s) := by
  rw [← coreTurn_of_running (by rw [h]; rfl), coreTurn_of_decode h]

theorem RunsDecode.running {i : Instr} {k : DecPos → Phase} (h : RunsDecode i k) (p : DecPos) :
    (k p).running = some i := by
  rcases h with ⟨rfl, rfl⟩ | ⟨rfl, rfl⟩ <;> rfl

theorem RunsDecode.exec_of_cont {i : Instr} {k : DecPos → Phase} (h : RunsDecode i k) {s t : State} {p : DecPos}
    (hp : s.phase = k p) (hb : decBody k p s = .cont t) : exec i s = .next t := by
  rw [← coreTurn_of_running (hp ▸ h.running p), h.coreTurn_of_cont hp hb]

/-- The command's last transaction; its completion is the next step (log 11). -/
theorem exec_decode_last {s u : State} {p : DecPos} (h : s.phase = .decode p) (hb : decBody .decode p s = .last u) :
    exec .decode s = .next { u with phase := .ended .decode } := by
  rw [exec_of_decode h, hb, unitStep_last]

/-- An error of the body leads DECOMPRESS to its close (R233, R234). -/
theorem exec_decompress_of_decode_raise {s s' : State} {p : DecPos} {e : ErrCode}
    (hp : s.phase = .decompress (.decode p)) (hb : decBody (fun p => .decompress (.decode p)) p s = .raise e s') :
    exec .decompress s = .next { s' with errPos := s'.inPos, errCode := e, phase := .decompress .close } := by
  rw [exec_of_decompress hp, decompressStep, hb, compositeStep_raise, recordError]

/-- Settles O43: the steps of the body that go on are steps of the command that runs it. -/
theorem decodeStepByStep : Obligations.DecodeStepByStep := by
  refine fun i k s hk => ⟨fun b rest w l r ha hb hpos => ?node, fun b rest y w ha hb hp ht hy => ?rootLeaf,
    fun y hp => hk.exec_of_cont hp (decBody_out k y)⟩
  case node =>
    obtain ⟨p, hp, hcase⟩ : ∃ p, s.phase = k p ∧
        ((p = .atRoot ∧ s.tree = some (.internal w l r)) ∨ p = .descending l r) := by
      rcases hpos with ⟨hp, ht⟩ | hp
      · exact ⟨_, hp, .inl ⟨rfl, ht⟩⟩
      · exact ⟨_, hp, .inr rfl⟩
    have hread := decBody_node k ha p b w l r hb hcase
    constructor
    · intro v l' r' hchild
      exact hk.exec_of_cont hp (hread.trans (hchild ▸ landOn_internal k v l' r'))
    · intro y v hchild hy
      exact hk.exec_of_cont hp (hread.trans (hchild ▸ landOn_leaf k hy v))
  case rootLeaf => exact hk.exec_of_cont hp ((decBody_rootLeaf k ha b y w hb ht).trans (landOn_leaf k hy w))

/-- Settles O44: the bit is the body's last transaction, in the command and in the composite. -/
theorem sentinelLeafCompletesDecode : Obligations.SentinelLeafCompletesDecode := by
  intro s b rest v w l r p ha hb hpos
  constructor
  · intro hp
    exact exec_decode_last hp (decBody_sentinel .decode ha hb hpos)
  · intro hp
    exact exec_decompress_decodeLast hp (decBody_sentinel _ ha hb hpos)

/-- Settles O45: the body raises the error, which ends DECODE and leads DECOMPRESS to its close (R233, R234). -/
theorem decodeTruncationRaises : Obligations.DecodeTruncationRaises := by
  intro s l r root p ha hb hpos
  constructor
  · intro hp
    rw [exec_of_decode hp, decBody_eos .decode ha hb hpos, unitStep_raise, finish, recordError]
  · intro hp
    exact exec_decompress_of_decode_raise hp (decBody_eos _ ha hb hpos)

/-- Settles O46: the run up to the last bit of the sentinel's code (`dec_to_last`), that bit, and the completion. -/
theorem decodeWritesTheBytes : Obligations.DecodeWritesTheBytes := by
  intro s t code sc xs rest hq hp ht hx hs hb
  obtain ⟨u, p, hrun, hqu, hpu, hlast⟩ := dec_to_last (.inl ⟨rfl, rfl⟩) hq hp ht hx hs hb
  exact hrun.trans (.cons (hqu.stepAt hpu rfl (exec_decode_last hpu hlast))
    (.cons (Quiet.stepAt hq rfl rfl (exec_ended rfl)) (.refl _)))

end Sys2Proof.Machine
end

section
/-!
PROOFS. DECOMPRESS (R206 to R209): its bodies in order, a foreign magic, and every cut of an artifact.
-/
namespace Sys2Proof.Machine

/-- Settles O50: one step per position but for the header, whose run is `decompress_header`. -/
theorem decompressRunsItsBodiesInOrder : Obligations.DecompressRunsItsBodiesInOrder :=
  fun _ => ⟨exec_decompress_clear, exec_decompress_rewind, fun _ _ hq hp hb hn => decompress_header hq hp hb hn,
    fun _ hp => exec_decompress_store hp, exec_decompress_close⟩

/-- The first two steps of DECOMPRESS: up to CHECK_MAGIC, at the start of the stream. -/
theorem decompress_to_check {s : State} (hq : Quiet s) (hp : s.phase = .decompress .clear) :
    RunsIn 2 s
      { s with
        freqValid := false, treeValid := false, codesValid := false, inCur := 0, inPos := 0#32
        phase := .decompress .check } :=
  .cons (hq.stepAt hp rfl (exec_decompress_clear hp)) (.one (Quiet.stepAt hq rfl rfl (exec_decompress_rewind rfl)))

/-- Settles O52: the flags and the rewind, CHECK_MAGIC's error entry, the close and the completion. -/
theorem foreignMagicIsRejected : Obligations.ForeignMagicIsRejected := by
  intro s v rest hq hp hb hv
  have herror := exec_decompress_of_checkMagic_raise
    (s := { s with
      freqValid := false, treeValid := false, codesValid := false, inCur := 0, inPos := 0#32
      phase := .decompress .check }) rfl (checkMagicBody_rejects hq.2 hb hv)
  exact (decompress_to_check hq hp).trans (.cons (Quiet.stepAt hq rfl rfl herror)
    (.cons (Quiet.stepAt hq rfl rfl (exec_decompress_close rfl)) (.one (Quiet.stepAt hq rfl rfl (exec_ended rfl)))))

/-! ### DECOMPRESS on its way to the close with an error (R233, R234) -/

/-- From `s` DECOMPRESS comes to its close with `e` recorded, and has delivered nothing on the way. -/
def ClosesWith (e : ErrCode) (s : State) : Prop :=
  ∃ u, RunsTo s u ∧ Quiet u ∧ u.phase = .decompress .close ∧ u.errCode = e ∧ u.delivered = s.delivered

section ClosesWith
variable {s u : State} {e : ErrCode}

theorem ClosesWith.of_run (hrun : RunsTo s u) (hd : u.delivered = s.delivered) (hu : ClosesWith e u) :
    ClosesWith e s := by
  obtain ⟨v, hv, hqv, hpv, hev, hdv⟩ := hu
  exact ⟨v, hrun.trans hv, hqv, hpv, hev, hdv.trans hd⟩

theorem ClosesWith.of_step {p : DecompressPos} (hq : Quiet s) (hp : s.phase = .decompress p)
    (h : exec .decompress s = .next u) (hd : u.delivered = s.delivered) (hu : ClosesWith e u) : ClosesWith e s :=
  .of_run (hq.decompress_cons hp h (.refl u)) hd hu

/-- The error entry itself. -/
theorem ClosesWith.of_raise {p : DecompressPos} (hq : Quiet s) (hp : s.phase = .decompress p)
    (h : exec .decompress s = .next { s with errPos := s.inPos, errCode := e, phase := .decompress .close }) :
    ClosesWith e s :=
  .of_step hq hp h rfl ⟨_, .refl _, hq, rfl, rfl, rfl⟩

/-- The close delivers one byte string and the command completes (R234, R242). -/
theorem ClosesWith.ends (h : ClosesWith e s) : ∃ v, RunsTo s v ∧ v.phase = .idle ∧ v.done = true ∧ v.errCode = e ∧
    v.outCur = [] ∧ v.delivered.length = s.delivered.length + 1 := by
  obtain ⟨u, hrun, hq, hp, he, hd⟩ := h
  exact ⟨_, hrun.trans (decompress_end hq hp), rfl, rfl, he, rfl, by simp [hd]⟩

end ClosesWith

/-! ### Bit strings that are short of some bits -/

/-- A cut of a concatenation lies in its first part or leaves that part whole. -/
theorem cut_append_cases {bits missing a b : Bits} (h : bits ++ missing = a ++ b) :
    (∃ z, bits ++ z = a ∧ z ≠ []) ∨ ∃ z, bits = a ++ z ∧ z ++ missing = b := by
  rcases List.append_eq_append_iff.1 h with ⟨z, ha, hz⟩ | ⟨z, hbits, hz⟩
  · by_cases hnil : z = []
    · subst hnil
      exact .inr ⟨[], by simp [ha], by simpa using hz⟩
    · exact .inl ⟨z, ha.symm, hnil⟩
  · exact .inr ⟨z, hbits, hz.symm⟩

/-- A bit string short of some bits is shorter. -/
theorem length_lt_of_cut {bits missing a : Bits} (h : bits ++ missing = a) (hm : missing ≠ []) :
    bits.length < a.length := by
  rw [← h, List.length_append]
  exact Nat.lt_add_of_pos_right (List.length_pos_of_ne_nil hm)

/-! ### A cut within the header is TRUNC_HEADER (R166, R209) -/

theorem runsDeserialize_decompress : RunsDeserialize .decompress fun p => .decompress (.deserialize p) :=
  .inr ⟨rfl, rfl⟩

/-- DESERIALIZE reads a whole left subtree, and the right child's tag is next (R165). -/
theorem des_left_child {s : State} {t : HuffTree} {st : List Frame} {rest : Bits} (hq : Quiet s)
    (hp : s.phase = .decompress (.deserialize (.tag (.left :: st)))) (hb : s.inputRest = t.header ++ rest)
    (hn : s.nodes + t.size ≤ s.params.nodeCap) :
    ∃ u, RunsTo s u ∧ Quiet u ∧ u.phase = .decompress (.deserialize (.tag (.right t.eraseWeights :: st))) ∧
      u.inputRest = rest ∧ u.nodes = s.nodes + t.size ∧ u.params = s.params ∧ u.delivered = s.delivered := by
  obtain ⟨y, c, st', -, hreturn, hsym, hrun⟩ := des_run runsDeserialize_decompress t s _ rest hq hp hb hn
  have hlast := desBody_sym (fun p => .decompress (.deserialize p))
    (s := { s with
      inCur := s.inCur + c, inPos := s.inPos + BitVec.ofNat 32 c, nodes := s.nodes + t.size
      phase := .decompress (.deserialize (.sym st')) }) hq.2 st' _ y hsym hreturn
  exact ⟨_, RunsTo.trans ⟨_, hrun⟩ (.cons (runsDeserialize_decompress.cont hq rfl hlast) (.refl _)), hq, rfl,
    State.inputRest_drop hsym (bitsOf_length 9 _), rfl, rfl, rfl⟩

/-- The stream ends at a tag or inside a symbol. -/
theorem closesWith_of_des_eos {s : State} {p : DesPos} {st : List Frame} (hq : Quiet s)
    (hp : s.phase = .decompress (.deserialize p))
    (h : (p = .tag st ∧ s.inputRest = []) ∨ (p = .sym st ∧ s.inputRest.length < 9)) : ClosesWith .truncHeader s :=
  .of_raise hq hp (exec_decompress_of_deserialize_raise hp (desBody_eos _ hq.2 h))

/-- DESERIALIZE on a stream that ends inside the header of a subtree. -/
theorem closesWith_of_cut_subtree (t : HuffTree) : ∀ (s : State) (st : List Frame) (bits missing : Bits), Quiet s →
    s.phase = .decompress (.deserialize (.tag st)) → s.nodes + t.size ≤ s.params.nodeCap → s.inputRest = bits →
    bits ++ missing = t.header → missing ≠ [] → ClosesWith .truncHeader s := by
  induction t with
  | leaf y w =>
    intro s st bits missing hq hp hn hr hb hm
    rw [HuffTree.size] at hn
    cases bits with
    | nil => exact closesWith_of_des_eos hq hp (.inl ⟨rfl, hr⟩)
    | cons b q =>
      rw [HuffTree.header, List.cons_append, List.cons.injEq] at hb
      obtain ⟨rfl, hsym⟩ := hb
      have htag := runsDeserialize_decompress.exec_of_cont hp (desBody_tag _ hq.2 st true (by omega) hr)
      have hrest : s.inBits.drop (s.inCur + 1) = q := State.inputRest_drop (a := [true]) hr rfl
      have hshort : q.length < 9 := bitsOf_length 9 y.toNat ▸ length_lt_of_cut hsym hm
      exact .of_step hq hp htag rfl
        (closesWith_of_des_eos hq rfl (.inr ⟨rfl, (congrArg List.length hrest).trans_lt hshort⟩))
  | internal w l r ihl ihr =>
    intro s st bits missing hq hp hn hr hb hm
    rw [HuffTree.size] at hn
    have hl := l.size_pos
    cases bits with
    | nil => exact closesWith_of_des_eos hq hp (.inl ⟨rfl, hr⟩)
    | cons b q =>
      rw [HuffTree.header, List.cons_append, List.cons.injEq] at hb
      obtain ⟨rfl, hsub⟩ := hb
      have htag := runsDeserialize_decompress.exec_of_cont hp (desBody_tag _ hq.2 st false (by omega) hr)
      have hrest : s.inBits.drop (s.inCur + 1) = q := State.inputRest_drop (a := [false]) hr rfl
      refine .of_step hq hp htag rfl ?_
      rcases cut_append_cases hsub with ⟨z, hz, hne⟩ | ⟨z, rfl, hz⟩
      · exact ihl _ (.left :: st) q z hq rfl (by simp only; omega) hrest hz hne
      · obtain ⟨u, hrun, hqu, hpu, hbu, hnu, hcap, hdu⟩ := des_left_child (s := { s with
          inCur := s.inCur + 1, inPos := s.inPos + 1#32, nodes := s.nodes + 1
          phase := .decompress (.deserialize (.tag (.left :: st))) }) hq rfl hrest (by simp only; omega)
        refine .of_run hrun hdu (ihr u _ z missing hqu hpu ?_ hbu hz hm)
        rw [hnu, hcap]
        simp only
        omega

/-- DESERIALIZE on a stream that ends inside the header. -/
theorem closesWith_of_cut_header {s : State} {t : HuffTree} {bits missing : Bits} (hq : Quiet s)
    (hp : s.phase = .decompress (.deserialize .start)) (hn : t.size ≤ s.params.nodeCap) (hr : s.inputRest = bits)
    (hb : bits ++ missing = t.header) (hm : missing ≠ []) : ClosesWith .truncHeader s :=
  .of_step hq hp (runsDeserialize_decompress.exec_of_cont hp (desBody_start _)) rfl
    (closesWith_of_cut_subtree t _ [] bits missing hq rfl (by simpa using hn) hr hb hm)

/-! ### A cut within the payload is TRUNC_PAYLOAD (R204, R209) -/

theorem runsDecode_decompress : RunsDecode .decompress fun p => .decompress (.decode p) := .inr ⟨rfl, rfl⟩

/-- The stream ends at the root or below it. -/
theorem closesWith_of_dec_eos {s : State} {p : DecPos} {root l r : HuffTree} (hq : Quiet s)
    (hp : s.phase = .decompress (.decode p)) (hb : s.inputRest = [])
    (hpos : (p = .atRoot ∧ s.tree = some root) ∨ p = .descending l r) : ClosesWith .truncPayload s :=
  .of_raise hq hp (exec_decompress_of_decode_raise hp (decBody_eos _ hq.2 hb hpos))

/-- A path through a child is that child's path after its first bit (R14). -/
theorem HuffTree.cons_mem_paths {w : Nat} {l r : HuffTree} {y : Sym} {b : Bool} {path : Bits} :
    (y, b :: path) ∈ (HuffTree.internal w l r).paths ↔ (y, path) ∈ (if b then r else l).paths := by
  cases b <;> simp [HuffTree.paths]

/-- DECODE on a stream that ends inside a leaf's path, by induction on the bits still there. -/
theorem closesWith_of_cut_path (bits : Bits) : ∀ (s : State) (p : DecPos) (w : Nat) (l r : HuffTree) (y : Sym)
    (missing : Bits), Quiet s → s.phase = .decompress (.decode p) →
    ((p = .atRoot ∧ s.tree = some (.internal w l r)) ∨ p = .descending l r) → s.inputRest = bits →
    (y, bits ++ missing) ∈ (HuffTree.internal w l r).paths → missing ≠ [] → ClosesWith .truncPayload s := by
  induction bits with
  | nil =>
    intro s p w l r y missing hq hp hpos hb _ _
    exact closesWith_of_dec_eos hq hp hb hpos
  | cons b bits ih =>
    intro s p w l r y missing hq hp hpos hb hpath hm
    rw [List.cons_append, HuffTree.cons_mem_paths] at hpath
    have hread := decBody_node (fun p => .decompress (.decode p)) hq.2 p b w l r hb hpos
    cases hchild : (if b then r else l) with
    | leaf y' v =>
      rw [hchild] at hpath
      simp [HuffTree.paths, hm] at hpath
    | internal v l' r' =>
      rw [hchild] at hpath hread
      exact .of_step hq hp (runsDecode_decompress.exec_of_cont hp hread) rfl
        (ih _ (.descending l' r') v l' r' y missing hq rfl (.inr rfl) (State.inputRest_drop (a := [b]) hb rfl) hpath hm)

/-- DECODE from the root on a stream that ends inside a code. -/
theorem closesWith_of_cut_code {s : State} {t : HuffTree} {y : Sym} {bits missing : Bits} (hq : Quiet s)
    (hp : s.phase = .decompress (.decode .atRoot)) (ht : s.tree = some t) (hb : s.inputRest = bits)
    (hcode : (y, bits ++ missing) ∈ t.codes) (hm : missing ≠ []) : ClosesWith .truncPayload s := by
  cases t with
  | leaf y' w =>
    have hnil : bits = [] := by
      simp only [HuffTree.codes, List.mem_singleton, Prod.mk.injEq, List.append_eq_singleton_iff] at hcode
      obtain ⟨-, ⟨h, -⟩ | ⟨-, h⟩⟩ := hcode
      · exact h
      · exact absurd h hm
    exact closesWith_of_dec_eos (l := .leaf y' w) (r := .leaf y' w) hq hp (hb.trans hnil) (.inl ⟨rfl, ht⟩)
  | internal w l r => exact closesWith_of_cut_path _ s .atRoot w l r y missing hq hp (.inl ⟨rfl, ht⟩) hb hcode hm

/-- DECODE on a stream that ends inside a payload, by induction on the bytes. -/
theorem closesWith_of_cut_payload {t : HuffTree} {code : Byte → Bits} {sc missing : Bits}
    (hs : (256#9, sc) ∈ t.codes) (hm : missing ≠ []) (xs : List Byte) : ∀ (s : State) (bits : Bits), Quiet s →
    s.phase = .decompress (.decode .atRoot) → s.tree = some t → (∀ b ∈ xs, (b.setWidth 9, code b) ∈ t.codes) →
    s.inputRest = bits → bits ++ missing = xs.flatMap code ++ sc → ClosesWith .truncPayload s := by
  induction xs with
  | nil =>
    intro s bits hq hp ht _ hr hb
    have hsc : bits ++ missing = sc := hb
    exact closesWith_of_cut_code hq hp ht hr (hsc ▸ hs) hm
  | cons x xs ih =>
    intro s bits hq hp ht hx hr hb
    have hcode := hx x List.mem_cons_self
    rw [List.flatMap_cons, List.append_assoc] at hb
    rcases cut_append_cases hb with ⟨z, hz, hne⟩ | ⟨z, rfl, hz⟩
    · exact closesWith_of_cut_code hq hp ht hr (hz ▸ hcode) hne
    · have hbyte : x.setWidth 9 ≠ 256#9 := by
        have := x.isLt
        bv_omega
      exact .of_run ⟨_, dec_sym runsDecode_decompress t s _ _ z hq hp ht hcode hr hbyte⟩ rfl (ih _ z hq rfl ht
        (fun b hb => hx b (List.mem_cons_of_mem x hb)) (State.inputRest_drop hr rfl) hz)

/-! ### Every cut of an artifact (R209) -/

section Cut
variable {s : State}

/-- CHECK_MAGIC on a stream of fewer than 32 bits (R201). -/
theorem closesWith_of_cut_magic (hq : Quiet s) (hp : s.phase = .decompress .clear) (hl : s.inBits.length < 32) :
    ClosesWith .truncHeader s :=
  .of_run ⟨2, decompress_to_check hq hp⟩ rfl
    (.of_raise hq rfl (exec_decompress_of_checkMagic_raise rfl (checkMagicBody_eos hq.2 hl)))

/-- DECOMPRESS of magic, header and payload short of some bits: the part that is cut names the error. -/
theorem closesWith_of_cut {t : HuffTree} {code : Byte → Bits} {sc : Bits} {xs : List Byte} {missing : Bits}
    (hq : Quiet s) (hp : s.phase = .decompress .clear)
    (hb : s.inBits ++ missing = bitsOf 32 s.params.magic.toNat ++ (t.header ++ (xs.flatMap code ++ sc)))
    (hm : missing ≠ []) (hn : t.size ≤ s.params.nodeCap) (hx : ∀ b ∈ xs, (b.setWidth 9, code b) ∈ t.codes)
    (hs : (256#9, sc) ∈ t.codes) :
    ClosesWith (if s.inBits.length < 32 + t.header.length then .truncHeader else .truncPayload) s := by
  rcases cut_append_cases hb with ⟨z, hz, hne⟩ | ⟨bits, hmagic, hbits⟩
  · have hshort := length_lt_of_cut hz hne
    rw [bitsOf_length] at hshort
    rw [if_pos (by omega)]
    exact closesWith_of_cut_magic hq hp hshort
  have hrun := decompress_to_deserialize hq hp hmagic
  have hdrop : s.inBits.drop 32 = bits := by rw [hmagic, List.drop_left' (bitsOf_length 32 _)]
  have hlength : s.inBits.length = 32 + bits.length := by rw [hmagic, List.length_append, bitsOf_length]
  rcases cut_append_cases hbits with ⟨z, hz, hne⟩ | ⟨q, hheader, hpayload⟩
  · have hshort := length_lt_of_cut hz hne
    rw [if_pos (by omega)]
    exact .of_run hrun rfl (closesWith_of_cut_header hq rfl hn hdrop hz hne)
  · have hlong := congrArg List.length hheader
    rw [List.length_append] at hlong
    rw [if_neg (by omega)]
    have hdecode := hrun.trans (decompress_header hq rfl (hdrop.trans hheader) hn)
    rw [← t.codes_eraseWeights] at hx hs
    exact .of_run hdecode rfl (closesWith_of_cut_payload hs hm xs _ q hq rfl rfl hx
      (State.inputRest_drop (hdrop.trans hheader) rfl) hpayload)

end Cut

/-- Settles O53: a stream of the first `n` bits is the artifact short of the others, and each part's cut is found. -/
theorem truncationIsDetected : Obligations.TruncationIsDetected := by
  intro s xs t n hq hwf hp htree hn hb
  have hcomb := buildTree_some htree
  obtain ⟨hx, hs⟩ := payload_codes xs t hcomb
  have hlength : s.inBits.length = n := by rw [hb, List.length_take_of_le hn.le]
  have hcut := closesWith_of_cut hq hp
    (by rw [hb, List.take_append_drop, artifactBits, payloadBits, List.append_assoc])
    (List.drop_eq_nil_iff.not.2 hn.not_ge) (built_size_le_nodeCap hwf hcomb) hx hs
  exact (hlength ▸ hcut).ends

end Sys2Proof.Machine
end

section
/-!
PROOFS. Port control: REWIND and CLOSE (R220, R221), and the host's register accesses (R222, R223).
-/
namespace Sys2Proof.Machine

/-! ### REWIND and CLOSE: one port transaction, after which the command has reached its end -/

theorem exec_of_rewind {s : State} (h : s.phase = .rewind) : exec .rewind s = unitStep .rewind (rewindBody s) := by
  rw [← coreTurn_of_running (by rw [h]; rfl), coreTurn_of_rewind h]

theorem exec_of_close {s : State} (h : s.phase = .close) : exec .close s = unitStep .close (closeBody s) := by
  rw [← coreTurn_of_running (by rw [h]; rfl), coreTurn_of_close h]

/-- Settles O38: the body's one step is `InReset()`, its last transaction. -/
theorem rewindReturnsToTheStart : Obligations.RewindReturnsToTheStart := by
  intro s hp
  rw [exec_of_rewind hp, rewindBody, unitStep_last, inReset]

/-- Settles O39: the bytes are those of `closedBytes`, whose bits are the written ones and at most seven of padding. -/
theorem closeDeliversThePaddedArtifact : Obligations.CloseDeliversThePaddedArtifact := by
  refine fun s hp => ⟨padLength s.outCur.length, closedBytes s.outCur, Nat.lt_succ_of_le (padLength_le _),
    unpackBytes_closedBytes _, ?_⟩
  rw [exec_of_close hp, closeBody, unitStep_last, outClose, closedBytes]

/-! ### Accesses inside the register interface (R79) -/

theorem accessWf_word {off : Nat} (hoff : off % 4 = 0) (hlt : off < 0x40) : accessWf off 4 = true := by
  simp [accessWf, hoff, hlt]

/-- A write at any other offset than CMD's is a write of that register, whatever the core is doing (R223). -/
theorem hostWrite_next {off bytes : Nat} (h : accessWf off bytes = true) (hne : off ≠ 0) (v : Word) (s : State) :
    hostWrite off bytes v s = .next (s.writeReg off v) := by
  simp [hostWrite, h, hne]

/-! ### The register writes (R223): three registers take fields, the others ignore the write -/

theorem writeReg_status (v : Word) (s : State) : s.writeReg 0x04 v =
    { s with done := s.done && !v[1], cmdDropped := s.cmdDropped && !v[3] } := rfl

theorem writeReg_ctrl (v : Word) (s : State) : s.writeReg 0x08 v = { s with ie := v[0] } := rfl

theorem writeReg_idx (v : Word) (s : State) : s.writeReg 0x20 v =
    { s with idxSym := v.extractLsb' 0 9, idxWord := v.extractLsb' 16 3 } := rfl

theorem writeReg_ignored {off : Nat} (hstatus : off ≠ 0x04) (hctrl : off ≠ 0x08) (hidx : off ≠ 0x20) (v : Word)
    (s : State) : s.writeReg off v = s := by
  unfold State.writeReg
  split
  · exact absurd rfl hstatus
  · exact absurd rfl hctrl
  · exact absurd rfl hidx
  · rfl

/-- Settles O9: the host's turn is the write of the register at its offset, by the four kinds of register. -/
theorem hostWriteTakesItsFields : Obligations.HostWriteTakesItsFields := by
  intro s ts off v ha hoff hlt hne
  rw [step_cons s _ ts ha, takeTurn, hostWrite_next (accessWf_word hoff hlt) hne]
  split_ifs with hstatus hctrl hidx
  · rw [hstatus, writeReg_status]
  · rw [hctrl, writeReg_ctrl]
  · rw [hidx, writeReg_idx]
  · rw [writeReg_ignored hstatus hctrl hidx]

/-! ### CTRL as it is read (R34) -/

theorem ctrlWord_ie (s : State) : s.ctrlWord[0] = s.ie := by
  rw [BitVec.getElem_eq_testBit_toNat, ctrlWord_toNat]
  cases s.ie <;> rfl

theorem ctrlWord_reserved (s : State) {j : Nat} (hj : 1 ≤ j) : s.ctrlWord.getLsbD j = false := by
  rw [← BitVec.testBit_toNat, ctrlWord_toNat]
  refine Nat.testBit_lt_two_pow ?_
  calc s.ie.toNat < 2 := s.ie.toNat_lt
    _ ≤ 2 ^ j := Nat.le_self_pow (Nat.ne_of_gt hj) 2

/-- Settles O10: the host's turn records the value read, and the map gives each offset its register. -/
theorem hostReadReturnsTheRegister : Obligations.HostReadReturnsTheRegister :=
  ⟨fun s ts _ ha hoff hlt => (step_cons s _ ts ha).trans (hostRead_next (accessWf_word hoff hlt) _),
    fun s => ⟨rfl, rfl, ctrlWord_ie s, fun _ => ctrlWord_reserved s, rfl, rfl, rfl, rfl, rfl, rfl, rfl, rfl⟩⟩

end Sys2Proof.Machine
end

section
/-!
PROOFS. Acceptance, completion and the dropped write (R232, R242, R249), attaching streams (R266), reset (R260, R263) and
the edges of IRQ (R241).
-/
namespace Sys2Proof.Machine

/-! ### Acceptance and completion -/

/-- Settles O5: `exec` is the acceptance that starts the command, whose fields `accept_of_pre` writes out. -/
theorem acceptedCommandStarts : Obligations.AcceptedCommandStarts := by
  intro i s hidle hpre
  rw [exec_of_idle_of_precondition hidle hpre, accept_of_pre]

/-- Settles O6: `exec` is the refusal of the command, whose fields `accept_of_not_pre` writes out. -/
theorem sequenceRefusalChangesNothingElse : Obligations.SequenceRefusalChangesNothingElse := by
  intro i s hidle hpre
  rw [exec_of_idle_of_not_precondition hidle hpre, accept_of_not_pre]

/-- Settles O60: the step at the end of the pseudocode is `finish`. -/
theorem endedCommandCompletes : Obligations.EndedCommandCompletes := by
  intro i s hp
  rw [exec_ended hp, finish]

/-! ### The host's write to CMD -/

/-- While BUSY the write is dropped, whatever its word (R249). -/
theorem issueCommand_of_busy {s : State} (h : s.phase ≠ .idle) (w : Word) :
    issueCommand w s = .next (dropCommand s) := by
  simp [issueCommand, (busy_eq_true_iff s).2 h]

/-- Everything a write to CMD can be: dropped, refused as illegal, or the acceptance of a command (R232, R249). -/
theorem issueCommand_cases (w : Word) (s : State) :
    (s.phase ≠ .idle ∧ issueCommand w s = .next (dropCommand s)) ∨
    (s.phase = .idle ∧ issueCommand w s = .next (refuseIllegal w s)) ∨
    (s.phase = .idle ∧ ∃ i pre, issueCommand w s = .next (accept i pre (firstPhase i) s)) := by
  by_cases hidle : s.phase = .idle
  · by_cases hw : commandWordWf w = true
    · obtain ⟨i, hd⟩ := (exists_decode_ok_iff w).2 hw
      obtain ⟨pre, he, -⟩ := exec_of_idle i hidle
      exact .inr (.inr ⟨hidle, i, pre, (issueCommand_of_idle hidle hd).trans he⟩)
    · exact .inr (.inl ⟨hidle, issueCommand_of_illegal hidle hw⟩)
  · exact .inl ⟨hidle, issueCommand_of_busy hidle w⟩

/-- Settles O8: the write is the turn at the head of the agenda, and the core is busy. -/
theorem busyCommandWriteDropped : Obligations.BusyCommandWriteDropped := by
  intro s ts w ha hbusy
  calc step s = issueCommand w { s with agenda := ts } := step_cons s _ ts ha
    _ = .next (dropCommand { s with agenda := ts }) := issueCommand_of_busy (s := { s with agenda := ts }) hbusy w

/-! ### Attaching and reset -/

theorem whileIdle_of_idle {s : State} (h : s.phase = .idle) (s' : State) : whileIdle s s' = .next s' :=
  (whileIdle_cases s s').elim And.right fun ⟨hbusy, _⟩ => absurd h hbusy

theorem whileIdle_of_busy {s : State} (h : s.phase ≠ .idle) (s' : State) :
    whileIdle s s' = .refused .attachWhileBusy :=
  (whileIdle_cases s s').elim (fun ⟨hidle, _⟩ => absurd hidle h) And.right

/-- Settles O15: the attach is the turn at the head of the agenda, and `whileIdle` lets it through or refuses it. -/
theorem streamsAttachOnlyWhileIdle : Obligations.StreamsAttachOnlyWhileIdle := by
  refine fun s ts bits prior => ⟨fun ha hidle => ?input, fun ha hidle => ?output, fun ha hbusy => ?busy⟩
  case input => exact (step_cons s _ ts ha).trans (whileIdle_of_idle hidle _)
  case output => exact (step_cons s _ ts ha).trans (whileIdle_of_idle hidle _)
  case busy => rcases ha with ha | ha <;> exact (step_cons s _ ts ha).trans (whileIdle_of_busy hbusy _)

theorem assertReset_statusWord (s : State) : s.assertReset.statusWord = 0#32 :=
  BitVec.eq_of_toNat_eq (statusWord_toNat _)

theorem assertReset_irq (s : State) : s.assertReset.irq = false := rfl

/-- Settles O16: the reset turn is `assertReset`, whatever the phase; its fields are the reset values or those of `s`. -/
theorem resetClearsRegistersKeepsPorts : Obligations.ResetClearsRegistersKeepsPorts := fun s ts ha =>
  ⟨State.assertReset { s with agenda := ts }, step_cons s _ ts ha, rfl, assertReset_statusWord _, rfl, rfl, rfl, rfl,
    rfl, rfl, rfl, rfl, rfl, assertReset_irq _, rfl, rfl, rfl, rfl, rfl, rfl, rfl⟩

/-! ### The edges of IRQ (R52, R241) -/

/-- A step is one turn: that at the head of the agenda, or the core's. -/
theorem step_turn {s t : State} (h : step s = .next t) :
    ∃ turn ts, takeTurn turn { s with agenda := ts } = .next t ∧ (turn = .core ∨ s.agenda = turn :: ts) := by
  cases ha : s.agenda with
  | nil => exact ⟨.core, s.agenda, (step_nil s ha).symm.trans h, .inl rfl⟩
  | cons turn ts => exact ⟨turn, ts, (step_cons s turn ts ha).symm.trans h, .inr rfl⟩

/-- No step of the core changes CTRL.IE, and an idle core changes nothing. -/
theorem coreTurn_ie {s t : State} (h : coreTurn s = .next t) : t.ie = s.ie ∧ (s.phase = .idle → t = s) := by
  cases hr : s.phase.running with
  | none =>
    have hidle := (running_eq_none_iff _).1 hr
    cases (coreTurn_of_idle hidle).symm.trans h
    exact ⟨rfl, fun _ => rfl⟩
  | some i =>
    obtain ⟨-, hie, -⟩ := eachCommandKeepsTheRest i s t ((coreTurn_of_running hr).symm.trans h)
    exact ⟨hie, fun hidle => by simp [hidle, Phase.running] at hr⟩

/-- A host write that is a step is one word wide, to CMD or to another register (R79, R223). -/
theorem hostWrite_eq_next {off bytes : Nat} {v : Word} {s t : State} (h : hostWrite off bytes v s = .next t) :
    bytes = 4 ∧ ((off = 0x00 ∧ issueCommand v s = .next t) ∨ (off ≠ 0x00 ∧ s.writeReg off v = t)) := by
  cases hwf : accessWf off bytes with
  | false => exact absurd ((hostWrite_refused hwf v s).symm.trans h) (by simp)
  | true =>
    obtain rfl : bytes = 4 := by
      by_contra hbytes
      exact absurd hwf (by simp [(accessWf_eq_false_iff off bytes).2 (.inl hbytes)])
    refine ⟨rfl, ?_⟩
    by_cases hcmd : off = 0x00
    · subst hcmd
      exact .inl ⟨rfl, h⟩
    · cases (hostWrite_next hwf hcmd v s).symm.trans h
      exact .inr ⟨hcmd, rfl⟩

/-- A write to CMD leaves IE alone; DONE it changes only while idle, and sets it only with an error (R232, R249). -/
theorem issueCommand_irq_inputs {w : Word} {s t : State} (h : issueCommand w s = .next t) :
    t.ie = s.ie ∧ (t.done = s.done ∨
      (s.phase = .idle ∧ (t.done = true → t.errCode = .illegalCmd ∨ t.errCode = .sequence))) := by
  rcases issueCommand_cases w s with ⟨-, he⟩ | ⟨hidle, he⟩ | ⟨hidle, i, pre, he⟩ <;> cases he.symm.trans h
  · exact ⟨rfl, .inl rfl⟩
  · exact ⟨rfl, .inr ⟨hidle, fun _ => .inl rfl⟩⟩
  · cases pre with
    | true => exact ⟨rfl, .inr ⟨hidle, fun hdone => absurd hdone Bool.false_ne_true⟩⟩
    | false => exact ⟨rfl, .inr ⟨hidle, fun _ => .inr rfl⟩⟩

/-- Of the other registers STATUS clears DONE by bit 1 and CTRL takes IE from bit 0 (R223). -/
theorem writeReg_irq_inputs (off : Nat) (v : Word) (s : State) :
    ((s.writeReg off v).ie = s.ie ∧ (s.writeReg off v).done = s.done) ∨
    (off = 0x04 ∧ (s.writeReg off v).ie = s.ie ∧ (s.writeReg off v).done = (s.done && !v[1])) ∨
    (off = 0x08 ∧ (s.writeReg off v).ie = v[0] ∧ (s.writeReg off v).done = s.done) := by
  unfold State.writeReg
  split
  · exact .inr (.inl ⟨rfl, rfl, rfl⟩)
  · exact .inr (.inr ⟨rfl, rfl, rfl⟩)
  · exact .inl ⟨rfl, rfl⟩
  · exact .inl ⟨rfl, rfl⟩

/-- What a turn does to the two inputs of IRQ: nothing, or it is one of the five kinds that may change them. -/
theorem takeTurn_irq_inputs {turn : Turn} {s t : State} (h : takeTurn turn s = .next t) :
    (t.ie = s.ie ∧ t.done = s.done) ∨
    (s.phase ≠ .idle ∧ t.ie = s.ie ∧ turn = .core) ∨
    (∃ w, turn = .write 0x00 4 w ∧ s.phase = .idle ∧ t.ie = s.ie ∧
      (t.done = true → t.errCode = .illegalCmd ∨ t.errCode = .sequence)) ∨
    (∃ v, turn = .write 0x04 4 v ∧ t.ie = s.ie ∧ t.done = (s.done && !v[1])) ∨
    (∃ v, turn = .write 0x08 4 v ∧ t.ie = v[0] ∧ t.done = s.done) ∨
    (turn = .reset ∧ t.ie = false) := by
  cases turn with
  | core =>
    obtain ⟨hie, hsame⟩ := coreTurn_ie h
    by_cases hidle : s.phase = .idle
    · exact .inl (by simp [hsame hidle])
    · exact .inr (.inl ⟨hidle, hie, rfl⟩)
  | read off bytes =>
    simp only [takeTurn, hostRead] at h
    split at h <;> cases h
    exact .inl ⟨rfl, rfl⟩
  | write off bytes v =>
    obtain ⟨rfl, ⟨rfl, hcmd⟩ | ⟨-, rfl⟩⟩ := hostWrite_eq_next h
    · obtain ⟨hie, hdone | ⟨hidle, herr⟩⟩ := issueCommand_irq_inputs hcmd
      · exact .inl ⟨hie, hdone⟩
      · exact .inr (.inr (.inl ⟨v, rfl, hidle, hie, herr⟩))
    · rcases writeReg_irq_inputs off v s with hsame | ⟨rfl, hstatus⟩ | ⟨rfl, hctrl⟩
      · exact .inl hsame
      · exact .inr (.inr (.inr (.inl ⟨v, rfl, hstatus⟩)))
      · exact .inr (.inr (.inr (.inr (.inl ⟨v, rfl, hctrl⟩))))
  | attachIn bits =>
    obtain ⟨-, rfl⟩ := whileIdle_eq_next h
    exact .inl ⟨rfl, rfl⟩
  | attachOut prior =>
    obtain ⟨-, rfl⟩ := whileIdle_eq_next h
    exact .inl ⟨rfl, rfl⟩
  | answer b =>
    cases h
    exact .inl ⟨rfl, rfl⟩
  | reset =>
    cases h
    exact .inr (.inr (.inr (.inr (.inr ⟨rfl, rfl⟩))))

theorem irq_eq_true_iff (s : State) : s.irq = true ↔ s.ie = true ∧ s.done = true := by simp [State.irq]

/-- With DONE = 1 no command runs (R26). -/
theorem Inv.idle_of_done {s : State} (hi : Inv s) (h : s.done = true) : s.phase = .idle := by
  by_contra hbusy
  exact Bool.false_ne_true ((hi.busyDone ((busy_eq_true_iff s).2 hbusy)).symm.trans h)

/-- What raises IRQ (R241). -/
theorem irq_rise {s t : State} (hi : Inv s) (h : step s = .next t) (hs : s.irq = false) (ht : t.irq = true) :
    (s.ie = true ∧ s.phase ≠ .idle ∧ t.phase = .idle) ∨
    (s.ie = true ∧ s.phase = .idle ∧ (∃ w ts, s.agenda = .write 0x00 4 w :: ts) ∧
      (t.errCode = .illegalCmd ∨ t.errCode = .sequence)) ∨
    (s.done = true ∧ ∃ v ts, s.agenda = .write 0x08 4 v :: ts ∧ v[0] = true) := by
  obtain ⟨hie, hdone⟩ := (irq_eq_true_iff t).1 ht
  have hlow : ¬ (s.ie = true ∧ s.done = true) := by simp [← irq_eq_true_iff, hs]
  obtain ⟨turn, ts, hturn, ha⟩ := step_turn h
  rcases takeTurn_irq_inputs hturn with ⟨he, hd⟩ | ⟨hbusy, he, -⟩ | ⟨w, rfl, hidle, he, herr⟩ | ⟨v, rfl, he, hd⟩ |
    ⟨v, rfl, he, hd⟩ | ⟨rfl, he⟩
  · exact absurd ⟨he.symm.trans hie, hd.symm.trans hdone⟩ hlow
  · exact .inl ⟨he.symm.trans hie, hbusy, (everyStepKeepsTheInvariant s t hi h).idle_of_done hdone⟩
  · exact .inr (.inl ⟨he.symm.trans hie, hidle, ⟨w, ts, by simpa using ha⟩, herr hdone⟩)
  · have hd' : s.done = true := (Bool.and_eq_true_iff.1 (hd.symm.trans hdone)).1
    exact absurd ⟨he.symm.trans hie, hd'⟩ hlow
  · exact .inr (.inr ⟨hd.symm.trans hdone, v, ts, by simpa using ha, he.symm.trans hie⟩)
  · exact absurd (he.symm.trans hie) Bool.false_ne_true

/-- What lowers IRQ (R241). -/
theorem irq_fall {s t : State} (hi : Inv s) (h : step s = .next t) (hs : s.irq = true) (ht : t.irq = false) :
    (∃ v ts, s.agenda = .write 0x04 4 v :: ts ∧ v[1] = true) ∨
    (∃ v ts, s.agenda = .write 0x08 4 v :: ts ∧ v[0] = false) ∨
    (∃ w ts, s.agenda = .write 0x00 4 w :: ts) ∨ (∃ ts, s.agenda = .reset :: ts) := by
  obtain ⟨hie, hdone⟩ := (irq_eq_true_iff s).1 hs
  have hlow : ¬ (t.ie = true ∧ t.done = true) := by simp [← irq_eq_true_iff, ht]
  obtain ⟨turn, ts, hturn, ha⟩ := step_turn h
  rcases takeTurn_irq_inputs hturn with ⟨he, hd⟩ | ⟨hbusy, -⟩ | ⟨w, rfl, -⟩ | ⟨v, rfl, he, hd⟩ | ⟨v, rfl, he, hd⟩ |
    ⟨rfl, -⟩
  · exact absurd ⟨he.trans hie, hd.trans hdone⟩ hlow
  · exact absurd (hi.idle_of_done hdone) hbusy
  · exact .inr (.inr (.inl ⟨w, ts, by simpa using ha⟩))
  · refine .inl ⟨v, ts, by simpa using ha, ?_⟩
    by_contra hv
    exact hlow ⟨he.trans hie, by simp [hd, hdone, hv]⟩
  · refine .inr (.inl ⟨v, ts, by simpa using ha, ?_⟩)
    by_contra hv
    exact hlow ⟨by simpa [he] using hv, hd.trans hdone⟩
  · exact .inr (.inr (.inr ⟨ts, by simpa using ha⟩))

/-- Settles O18: IRQ is IE and DONE by definition, and a step is a turn that changes one of the two in few ways. -/
theorem interruptEdges : Obligations.InterruptEdges :=
  ⟨fun _ => rfl, fun _ _ hi h => ⟨irq_rise hi h, irq_fall hi h⟩⟩

end Sys2Proof.Machine
end

section
/-!
PROOFS. The error a running command records, ERR_POS, and the validity flags it leaves (R231, R233, R236, R237).
-/
namespace Sys2Proof.Machine

/-- The errors command `i` can record in a step from `s`, and the validity flags of the state `u` it raises them in
(R231, R237). -/
def RaisesWith (i : Instr) (s : State) (e : ErrCode) (u : State) : Prop :=
  match e with
  | .none => False
  | .badMagic | .truncHeader | .headerOverflow =>
    (i = .deserialize → u.treeValid = false) ∧ (i = .decompress → FlagsClear u)
  | .truncPayload => i ≠ .deserialize ∧ u.treeValid = true ∧ (i = .decompress → u.treeSrc = .read)
  | .illegalCmd => False
  | .sequence => False
  | .countOverflow => i ≠ .deserialize ∧ FlagsClear u
  | .noCode =>
    i ≠ .deserialize ∧ u.freqValid = s.freqValid ∧ u.treeValid = s.treeValid ∧ u.treeSrc = s.treeSrc ∧
      u.codesValid = s.codesValid

/-- A step from `s` to `t` records no error, or records it with ERR_POS = IN_POS and the flags of `RaisesWith`. -/
def RecordsAtMost (i : Instr) (s t : State) : Prop :=
  t.errCode = .none ∨ (t.errPos = t.inPos ∧ RaisesWith i s t.errCode t)

section Ends
variable {i : Instr} {s t : State} {r : BodyResult} {C D : State → Prop} {R : ErrCode → State → Prop}

theorem BodyResult.Keeps.of_raise (h : r.Keeps s C D R) {e : ErrCode} {u : State} (hr : r = .raise e u) : R e u := by
  subst hr
  exact h.2.2

/-- What a body raises is what the unit command records (R233). -/
theorem unitStep_records {j : Instr} (h : unitStep j r = .next t) (hr : r.Keeps s C D R) (he : s.errCode = .none)
    (hraises : ∀ e u, r = .raise e u → RaisesWith i s e u) : RecordsAtMost i s t := by
  rcases unitStep_error h hr he with hn | ⟨e, u, hraise, -, rfl⟩
  · exact .inl hn
  · exact .inr ⟨rfl, hraises e u hraise⟩

/-- What a body raises is what the composite command records (R233). -/
theorem compositeStep_records {after closing : Phase} (h : compositeStep after closing r = .next t)
    (hr : r.Keeps s C D R) (he : s.errCode = .none) (hraises : ∀ e u, r = .raise e u → RaisesWith i s e u) :
    RecordsAtMost i s t := by
  rcases compositeStep_error h hr he with hn | ⟨e, u, hraise, -, rfl⟩
  · exact .inl hn
  · exact .inr ⟨rfl, hraises e u hraise⟩

end Ends

/-! ### What each body raises; BUILD, GENCODES and SERIALIZE raise nothing -/

section Bodies
variable {i : Instr} {s u : State} {e : ErrCode} (hd : DataInv s)
include hd

theorem countBody_raises {k : CountPos → Phase} {p : CountPos} (hp : CountOk p s) (hi : i ≠ .deserialize)
    (h : countBody k p s = .raise e u) : RaisesWith i s e u := by
  obtain ⟨rfl, hflags⟩ := (countBody_keeps k p s hd hp).of_raise h
  exact ⟨hi, hflags⟩

theorem desBody_raises {k : DesPos → Phase} {p : DesPos} (hp : DesOk p s) (hf : i = .decompress → s.freqValid = false)
    (h : desBody k p s = .raise e u) : RaisesWith i s e u := by
  obtain ⟨he, htree, hcodes, hfreq⟩ := (desBody_keeps k p s hd hp).of_raise h
  have hflags : (i = .deserialize → u.treeValid = false) ∧ (i = .decompress → FlagsClear u) :=
    ⟨fun _ => htree, fun hi => ⟨hfreq.trans (hf hi), htree, hcodes⟩⟩
  rcases he with rfl | rfl <;> exact hflags

theorem checkMagicBody_raises (hi : i ≠ .deserialize) (hf : i = .decompress → FlagsClear s)
    (h : checkMagicBody s = .raise e u) : RaisesWith i s e u := by
  obtain ⟨he, hfreq, htree, hcodes⟩ := (checkMagicBody_keeps s hd).of_raise h
  have hflags : (i = .deserialize → u.treeValid = false) ∧ (i = .decompress → FlagsClear u) := by
    refine ⟨fun hi' => absurd hi' hi, fun hi' => ?_⟩
    obtain ⟨hfreq', htree', hcodes'⟩ := hf hi'
    exact ⟨hfreq.trans hfreq', htree.trans htree', hcodes.trans hcodes'⟩
  rcases he with rfl | rfl <;> exact hflags

theorem encBody_raises {k : EncPos → Phase} {p : EncPos} (hp : EncOk p s) (hi : i ≠ .deserialize)
    (h : encBody k p s = .raise e u) : RaisesWith i s e u := by
  obtain ⟨rfl, -⟩ := (encBody_keeps k p s hd hp).of_raise h
  obtain ⟨_, _, _, _, _, rfl⟩ := (encBody_frame k p s).of_raise h
  exact ⟨hi, rfl, rfl, rfl, rfl⟩

theorem decBody_raises {k : DecPos → Phase} {p : DecPos} (hp : DecOk p s) (hi : i ≠ .deserialize)
    (hsrc : i = .decompress → s.treeSrc = .read) (h : decBody k p s = .raise e u) : RaisesWith i s e u := by
  obtain ⟨rfl, htree, -, hsame⟩ := (decBody_keeps k p s hd hp).of_raise h
  exact ⟨hi, htree, fun hi' => hsame.trans (hsrc hi')⟩

end Bodies

/-! ### The steps of the commands -/

section Steps
variable {s t : State} (hi : Inv s) (he : s.errCode = .none)
include hi he

theorem compressStep_records {p : CompressPos} (hp : s.phase = .compress p) (h : compressStep p s = .next t) :
    RecordsAtMost .compress s t := by
  have hok : CompressOk p s := by simpa only [PhaseOk, hp] using hi.phaseOk
  cases p with
  | clear => cases h; exact .inl he
  | rewind => cases h; exact .inl he
  | magic => cases h; exact .inl he
  | count q =>
    exact compositeStep_records h (countBody_keeps _ q s hi.data hok.2) he
      fun _ _ => countBody_raises hi.data hok.2 (by decide)
  | build =>
    have hkeeps := buildBody_keeps s hi.data hok
    exact compositeStep_records h hkeeps he fun _ _ hr => (hkeeps.of_raise hr).elim
  | gencodes =>
    have hkeeps := gencodesBody_keeps s hi.data hok.1 hok.2
    exact compositeStep_records h hkeeps he fun _ _ hr => (hkeeps.of_raise hr).elim
  | serialize q =>
    have hkeeps := serBody_keeps (fun p => .compress (.serialize p)) q s hi.data hok.2
    exact compositeStep_records h hkeeps he fun _ _ hr => (hkeeps.of_raise hr).elim
  | encode q =>
    exact compositeStep_records h (encBody_keeps _ q s hi.data hok) he
      fun _ _ => encBody_raises hi.data hok (by decide)
  | close => cases h; exact .inl he

theorem decompressStep_records {p : DecompressPos} (hp : s.phase = .decompress p)
    (h : decompressStep p s = .next t) : RecordsAtMost .decompress s t := by
  have hok : DecompressOk p s := by simpa only [PhaseOk, hp] using hi.phaseOk
  cases p with
  | clear => cases h; exact .inl he
  | rewind => cases h; exact .inl he
  | check =>
    exact compositeStep_records h (checkMagicBody_keeps s hi.data) he
      fun _ _ => checkMagicBody_raises hi.data (by decide) fun _ => hok
  | deserialize q =>
    exact compositeStep_records h (desBody_keeps _ q s hi.data hok.2) he
      fun _ _ => desBody_raises hi.data hok.2 fun _ => hok.1
  | decode q =>
    obtain ⟨-, hsrc, hq⟩ := hok
    exact compositeStep_records h (decBody_keeps _ q s hi.data hq) he
      fun _ _ => decBody_raises hi.data hq (by decide) fun _ => hsrc
  | close => cases h; exact .inl he

/-- Every running command: each body raises what `RaisesWith` says, and the other steps record nothing. -/
theorem coreTurn_records {i : Instr} (hr : s.phase.running = some i) (h : coreTurn s = .next t) :
    RecordsAtMost i s t := by
  have hok := hi.phaseOk
  cases hp : s.phase <;> simp only [hp, Phase.running, Option.some.injEq, reduceCtorEq] at hr <;> subst hr <;>
    simp only [PhaseOk, hp] at hok
  case count q =>
    exact unitStep_records (coreTurn_of_count hp ▸ h) (countBody_keeps _ q s hi.data hok) he
      fun _ _ => countBody_raises hi.data hok (by decide)
  case build =>
    have hkeeps := buildBody_keeps s hi.data hok
    exact unitStep_records (coreTurn_of_build hp ▸ h) hkeeps he fun _ _ hr => (hkeeps.of_raise hr).elim
  case gencodes =>
    have hkeeps := gencodesBody_keeps s hi.data hok.1 hok.2
    exact unitStep_records (coreTurn_of_gencodes hp ▸ h) hkeeps he fun _ _ hr => (hkeeps.of_raise hr).elim
  case serialize q =>
    have hkeeps := serBody_keeps .serialize q s hi.data hok
    exact unitStep_records (coreTurn_of_serialize hp ▸ h) hkeeps he fun _ _ hr => (hkeeps.of_raise hr).elim
  case deserialize q =>
    exact unitStep_records (coreTurn_of_deserialize hp ▸ h) (desBody_keeps _ q s hi.data hok) he
      fun _ _ => desBody_raises hi.data hok nofun
  case writeMagic =>
    cases (coreTurn_of_writeMagic hp).symm.trans h
    exact .inl he
  case encode q =>
    exact unitStep_records (coreTurn_of_encode hp ▸ h) (encBody_keeps _ q s hi.data hok) he
      fun _ _ => encBody_raises hi.data hok (by decide)
  case checkMagic =>
    exact unitStep_records (coreTurn_of_checkMagic hp ▸ h) (checkMagicBody_keeps s hi.data) he
      fun _ _ => checkMagicBody_raises hi.data (by decide) nofun
  case decode q =>
    exact unitStep_records (coreTurn_of_decode hp ▸ h) (decBody_keeps _ q s hi.data hok) he
      fun _ _ => decBody_raises hi.data hok (by decide) nofun
  case rewind =>
    cases (coreTurn_of_rewind hp).symm.trans h
    exact .inl he
  case close =>
    cases (coreTurn_of_close hp).symm.trans h
    exact .inl he
  case compress p => exact compressStep_records hi he hp ((coreTurn_of_compress hp).symm.trans h)
  case decompress p => exact decompressStep_records hi he hp ((coreTurn_of_decompress hp).symm.trans h)
  case ended =>
    cases (coreTurn_of_ended hp).symm.trans h
    exact .inl he

end Steps

/-- Settles O55: no error makes every clause empty; for each code that can be recorded `RaisesWith` gives the clauses. -/
theorem flagsAfterAnError : Obligations.FlagsAfterAnError := by
  intro i s t hi hr h he
  rcases coreTurn_records hi he hr ((coreTurn_of_running hr).trans h) with hnone | ⟨hpos, hflags⟩
  · simp [hnone]
  · cases hcode : t.errCode <;> simp only [hcode, RaisesWith, FlagsClear] at hflags
    case badMagic => simpa [hpos] using hflags
    case truncHeader => simpa [hpos] using hflags
    case headerOverflow => simpa [hpos] using hflags
    case truncPayload =>
      obtain ⟨hdes, htree, hsrc⟩ := hflags
      simpa [hpos, hdes, htree] using hsrc
    case countOverflow => simp [hpos, hflags]
    case noCode => simp [hpos, hflags]

end Sys2Proof.Machine
end

section
/-!
PROOFS. Every running command ends (R270, R271): each step of the core comes nearer to the end, by the order of the bodies
inside the command and, within a body that loops, by what is left of it.
-/
namespace Sys2Proof.Machine

/-- Where a phase stands before its command's end, counted in bodies: 0 at IDLE only. -/
@[simp] def Phase.stage : Phase → Nat
  | .idle => 0
  | .ended _ => 1
  | .compress .close | .decompress .close => 2
  | .compress (.encode _) | .decompress (.decode _) => 3
  | .compress (.serialize _) | .decompress (.deserialize _) => 4
  | .compress .gencodes | .decompress .check => 5
  | .compress .build | .decompress .rewind => 6
  | .compress (.count _) | .decompress .clear => 7
  | .compress .magic => 8
  | .compress .rewind => 9
  | .compress .clear => 10
  | _ => 2

/-- What is left of the body that the phase is in, if that body loops. -/
def State.left (s : State) : Nat :=
  match s.phase with
  | .count p | .compress (.count p) => countLeft p s
  | .serialize p | .compress (.serialize p) => serLeft p s
  | .deserialize p | .decompress (.deserialize p) => desLeft p s
  | .encode p | .compress (.encode p) => encLeft p s
  | .decode p | .decompress (.decode p) => decLeft p s
  | _ => 0

/-- In `t` a command runs, and is nearer to its end than in `s`. -/
def NearerEnd (s t : State) : Prop :=
  0 < t.phase.stage ∧
    (t.phase.stage < s.phase.stage ∨ (t.phase.stage = s.phase.stage ∧ t.left < s.left))

/-- From `s` to `t` the running command ends or comes nearer to its end. -/
def Progress (s t : State) : Prop := (t.phase = .idle ∧ t.done = true) ∨ NearerEnd s t

/-- Coming nearer cannot go on forever. -/
theorem wellFounded_nearerEnd : WellFounded fun t s => NearerEnd s t := by
  refine Subrelation.wf (r := InvImage (Prod.Lex (· < ·) (· < ·)) fun s : State => (s.phase.stage, s.left)) ?_
    (InvImage.wf _ (WellFounded.prod_lex Nat.lt_wfRel.wf Nat.lt_wfRel.wf))
  rintro t s ⟨-, h⟩
  exact Prod.lex_def.2 h

theorem stage_eq_zero_iff (p : Phase) : p.stage = 0 ↔ p = .idle := by
  unfold Phase.stage
  split <;> simp_all

/-! ### A body's step -/

/-- Going on to a later body is progress. -/
theorem Progress.of_stage {s t : State} {p q : Phase} (hs : s.phase = p) (ht : t.phase = q)
    (h : 0 < q.stage ∧ q.stage < p.stage) : Progress s t := by
  subst hs ht
  exact .inr ⟨h.1, .inl h.2⟩

/-- Going on inside a body that loops comes nearer to the end: the stage stays, and less is left of the body. -/
theorem BodyResult.Shrinks.nearerEnd {α : Type} {k : α → Phase} {m : α → State → Nat} {p : α} {s : State}
    {r : BodyResult} (hr : r.Shrinks k m p s) (hp : s.phase = k p) {n : Nat} (hstage : ∀ p, (k p).stage = n + 1)
    (hleft : ∀ p (u : State), u.phase = k p → u.left = m p u := by intro _ _ hu; rw [State.left, hu]) :
    ∀ u, r = .cont u → NearerEnd s u := by
  rintro u rfl
  obtain ⟨p', hp', hm⟩ := hr
  refine ⟨by rw [hp', hstage]; exact n.succ_pos, .inr ⟨by rw [hp', hp, hstage, hstage], ?_⟩⟩
  rwa [hleft p s hp, hleft p' u hp']

theorem unitStep_progress {i : Instr} {r : BodyResult} {s t : State} (h : unitStep i r = .next t)
    (hs : 1 < s.phase.stage) (hcont : ∀ u, r = .cont u → NearerEnd s u) : Progress s t := by
  cases r with
  | cont u => cases h; exact .inr (hcont _ rfl)
  | done u => cases h; exact .inl ⟨rfl, rfl⟩
  | last u => cases h; exact .inr ⟨Nat.one_pos, .inl hs⟩
  | raise e u => cases h; exact .inl ⟨rfl, rfl⟩
  | fault f => cases h

theorem compositeStep_progress {after closing : Phase} {r : BodyResult} {s t : State}
    (h : compositeStep after closing r = .next t)
    (hstages : (0 < after.stage ∧ after.stage < s.phase.stage) ∧ (0 < closing.stage ∧ closing.stage < s.phase.stage))
    (hcont : ∀ u, r = .cont u → NearerEnd s u) : Progress s t := by
  obtain ⟨hafter, hclosing⟩ := hstages
  cases r with
  | cont u => cases h; exact .inr (hcont _ rfl)
  | done u => cases h; exact .of_stage rfl rfl hafter
  | last u => cases h; exact .of_stage rfl rfl hafter
  | raise e u => cases h; exact .of_stage rfl rfl hclosing
  | fault f => cases h

/-! ### BUILD, GENCODES and an answered CHECK_MAGIC are one step each (R271) -/

theorem buildBody_ne_cont (s u : State) : buildBody s ≠ .cont u := by
  unfold buildBody
  split <;> simp

theorem gencodesBody_ne_cont (s u : State) : gencodesBody s ≠ .cont u := by
  unfold gencodesBody
  split
  · simp
  · split <;> simp

theorem checkMagicBody_ne_cont {s : State} (ha : s.inAnswers = true) (u : State) : checkMagicBody s ≠ .cont u := by
  rcases inRead_cases 32 s with ⟨h, -⟩ | ⟨-, -, h⟩ | ⟨-, -, h⟩
  · exact absurd (h.symm.trans ha) Bool.false_ne_true
  · simp [checkMagicBody, h]
  · simp only [checkMagicBody, h]
    split <;> simp

/-! ### The steps of the commands -/

section Steps
variable {s t : State} (ha : s.inAnswers = true)
include ha

theorem compressStep_progress (hi : Inv s) {p : CompressPos} (hp : s.phase = .compress p)
    (h : compressStep p s = .next t) : Progress s t := by
  have hok : CompressOk p s := by simpa only [PhaseOk, hp] using hi.phaseOk
  cases p with
  | clear => cases h; exact .of_stage hp rfl (by simp)
  | rewind => cases h; exact .of_stage hp rfl (by simp)
  | magic => cases h; exact .of_stage hp rfl (by simp)
  | count q =>
    exact compositeStep_progress h (by simp [hp]) ((countBody_shrinks _ q s ha).nearerEnd hp fun _ => rfl)
  | build => exact compositeStep_progress h (by simp [hp]) fun u hu => absurd hu (buildBody_ne_cont s u)
  | gencodes => exact compositeStep_progress h (by simp [hp]) fun u hu => absurd hu (gencodesBody_ne_cont s u)
  | serialize q =>
    exact compositeStep_progress h (by simp [hp]) ((serBody_shrinks _ q s).nearerEnd hp fun _ => rfl)
  | encode q =>
    exact compositeStep_progress h (by simp [hp]) ((encBody_shrinks _ q s ha hok).nearerEnd hp fun _ => rfl)
  | close => cases h; exact .of_stage hp rfl (by simp)

theorem decompressStep_progress {p : DecompressPos} (hp : s.phase = .decompress p)
    (h : decompressStep p s = .next t) : Progress s t := by
  cases p with
  | clear => cases h; exact .of_stage hp rfl (by simp)
  | rewind => cases h; exact .of_stage hp rfl (by simp)
  | check => exact compositeStep_progress h (by simp [hp]) fun u hu => absurd hu (checkMagicBody_ne_cont ha u)
  | deserialize q =>
    exact compositeStep_progress h (by simp [hp]) ((desBody_shrinks _ q s ha).nearerEnd hp fun _ => rfl)
  | decode q =>
    exact compositeStep_progress h (by simp [hp]) ((decBody_shrinks _ q s ha).nearerEnd hp fun _ => rfl)
  | close => cases h; exact .of_stage hp rfl (by simp)

/-- Every step of a running command: its positions and bodies in order, and a body that loops has less left. -/
theorem coreTurn_progress (hi : Inv s) (hb : s.phase ≠ .idle) (h : coreTurn s = .next t) : Progress s t := by
  have hok := hi.phaseOk
  cases hp : s.phase <;> simp only [PhaseOk, hp] at hok
  case idle => exact absurd hp hb
  case count q =>
    exact unitStep_progress (coreTurn_of_count hp ▸ h) (by simp [hp])
      ((countBody_shrinks _ q s ha).nearerEnd hp fun _ => rfl)
  case build =>
    exact unitStep_progress (coreTurn_of_build hp ▸ h) (by simp [hp]) fun u hu => absurd hu (buildBody_ne_cont s u)
  case gencodes =>
    exact unitStep_progress (coreTurn_of_gencodes hp ▸ h) (by simp [hp])
      fun u hu => absurd hu (gencodesBody_ne_cont s u)
  case serialize q =>
    exact unitStep_progress (coreTurn_of_serialize hp ▸ h) (by simp [hp])
      ((serBody_shrinks _ q s).nearerEnd hp fun _ => rfl)
  case deserialize q =>
    exact unitStep_progress (coreTurn_of_deserialize hp ▸ h) (by simp [hp])
      ((desBody_shrinks _ q s ha).nearerEnd hp fun _ => rfl)
  case writeMagic =>
    cases (coreTurn_of_writeMagic hp).symm.trans h
    exact .of_stage hp rfl (by simp)
  case encode q =>
    exact unitStep_progress (coreTurn_of_encode hp ▸ h) (by simp [hp])
      ((encBody_shrinks _ q s ha hok).nearerEnd hp fun _ => rfl)
  case checkMagic =>
    exact unitStep_progress (coreTurn_of_checkMagic hp ▸ h) (by simp [hp])
      fun u hu => absurd hu (checkMagicBody_ne_cont ha u)
  case decode q =>
    exact unitStep_progress (coreTurn_of_decode hp ▸ h) (by simp [hp])
      ((decBody_shrinks _ q s ha).nearerEnd hp fun _ => rfl)
  case rewind =>
    cases (coreTurn_of_rewind hp).symm.trans h
    exact .of_stage hp rfl (by simp)
  case close =>
    cases (coreTurn_of_close hp).symm.trans h
    exact .of_stage hp rfl (by simp)
  case compress p => exact compressStep_progress ha hi hp ((coreTurn_of_compress hp).symm.trans h)
  case decompress p => exact decompressStep_progress ha hp ((coreTurn_of_decompress hp).symm.trans h)
  case ended =>
    cases (coreTurn_of_ended hp).symm.trans h
    exact .inl ⟨rfl, rfl⟩

end Steps

/-- The core's step keeps the core alone and its reads answered. -/
theorem Quiet.coreTurn {s t : State} (hq : Quiet s) (hb : s.phase ≠ .idle) (h : coreTurn s = .next t) : Quiet t := by
  obtain ⟨i, hr⟩ := running_of_ne_idle hb
  obtain ⟨-, -, -, -, -, hanswers, hagenda, -⟩ := eachCommandKeepsTheRest i s t ((coreTurn_of_running hr).symm.trans h)
  exact ⟨hagenda.trans hq.1, hanswers.trans hq.2⟩

/-- Settles O59: the core's turn ends the command or brings it nearer to its end, and that cannot go on forever. -/
theorem everyCommandTerminates : Obligations.EveryCommandTerminates := by
  intro s
  induction s using wellFounded_nearerEnd.induction with
  | _ s ih =>
    intro hi hq hb
    obtain ⟨t, ht, hinv⟩ := coreTurn_inv hi
    have hstep : step s = .next t := (step_nil s hq.1).trans ht
    rcases coreTurn_progress hq.2 hi hb ht with ⟨hidle, hdone⟩ | hnear
    · exact ⟨t, .cons hstep (.refl t), hidle, hdone⟩
    · have hbusy : t.phase ≠ .idle := mt (stage_eq_zero_iff _).2 (Nat.ne_of_gt hnear.1)
      obtain ⟨u, hrun, hu⟩ := ih t hnear hinv (hq.coreTurn hb ht) hbusy
      exact ⟨u, .cons hstep hrun, hu⟩

end Sys2Proof.Machine
end
